-- ==== Sys2Proof/Word.lean ====
section
/-! DEFINITION. The two word types of the block: a data byte and the 16-bit parallel word (00_scope.md R11,
20_memory.md R56). Bit 0 is the least significant bit. -/

namespace Sys2Proof

/-- An unsigned 8-bit value, 0 to 255 (R11). Addition of bytes wraps modulo 256. -/
abbrev Byte := BitVec 8

/-- The command word and the STATUS word: 16 parallel bits, bit 15 the most significant (R56). -/
abbrev Word := BitVec 16

end Sys2Proof
end

