-- ==== Sys2Proof/Config.lean ====
section
/-! DEFINITION. What an implementation fixes (00_scope.md R7, R8) and the one free value of the model. -/

namespace Sys2Proof

/-- The implementation parameters of R8, each an argument of the model (92_eei_decisions.md, its table of open
parameters). -/
structure Params where
  /-- TXQ_DEPTH: capacity in bytes of the transmit queue. -/
  txqDepth : Nat
  /-- PLB_DEPTH: capacity in bytes of the decoded payload buffer. -/
  plbDepth : Nat
  /-- MAX_FRAME_BYTES: most raw bytes RXD accepts for one frame, flags included. -/
  maxFrameBytes : Nat
  /-- MAX_ATTEMPTS: the client's total transmissions per logical send. -/
  maxAttempts : Nat
  /-- T_BYTE: how long one byte read waits, in the transport's unit, which the spec leaves open (D35). It is the client's
  and the transport's; the block never uses it, and no step reads it (log 17). -/
  tByte : Nat
  deriving DecidableEq, Repr

/-- The values 95_test_vectors.md uses, and the source's default of three attempts (R8).
DESIGN CHOICE (log 1): the spec gives no value for the three sizes, and none for T_BYTE, here one unit of the transport's. -/
def Params.vectors : Params :=
  { txqDepth := 64, plbDepth := 64, maxFrameBytes := 256, maxAttempts := 3, tByte := 1 }

/-- How long one receive can wait for its bytes: at most MAX_FRAME_BYTES byte reads, each at most T_BYTE (47 R212). -/
def Params.receiveWait (p : Params) : Nat := p.maxFrameBytes * p.tByte

/-- The source's bound on one exchange, `retries × (per_byte_timeout × max_frame_bytes)`, in T_BYTE's unit; the time to
drain `txq` is extra (47 R212). -/
def Params.exchangeWait (p : Params) : Nat := p.maxAttempts * p.receiveWait

namespace Config

/-- FLAG, the frame delimiter (R7). -/
abbrev FLAG : Byte := 0x7E#8
/-- ESC, the escape introducer (R7). -/
abbrev ESC : Byte := 0x7D#8
/-- ESC_FLAG, the follower that stands for 0x7E (R7). -/
abbrev ESC_FLAG : Byte := 0x5E#8
/-- ESC_ESC, the follower that stands for 0x7D (R7). -/
abbrev ESC_ESC : Byte := 0x5D#8
/-- The client's retryable response code, CHECKSUM_ERROR (47_exchange_client.md R201). -/
abbrev CHECKSUM_ERROR : Byte := 0x08#8

/-- FREE VALUE (10_state.md R29, 93_implementation_defined.md U3): the byte of `plb` at an index DEC has not written.
DESIGN CHOICE (log 4): one value per index, unknown to every proof. -/
opaque plbUnspecified : Nat → Byte

end Config
end Sys2Proof
end

