-- ==== Sys2Proof/Syntax.lean ====
section
/-! DEFINITION. The 15 commands of 30_encoding.md R75, one constructor per row of spec/opcode_table.json. -/

namespace Sys2Proof

/-- A command of the block. A command that takes no operand carries none, since it ignores CMD[7:0] (R73). -/
inductive Instr where
  /-- NOP (44_ports.md R190). -/
  | nop
  /-- CK_CLEAR (40_checksum.md R102). -/
  | ckClear
  /-- CK_ADD d (R103). -/
  | ckAdd (d : Byte)
  /-- CK_READ (R104). -/
  | ckRead
  /-- ENC_OPEN (41_encoder.md R123). -/
  | encOpen
  /-- ENC_BYTE d (R124). -/
  | encByte (d : Byte)
  /-- ENC_BYTE_ACC d (R125). -/
  | encByteAcc (d : Byte)
  /-- ENC_CKSUM (R126). -/
  | encCksum
  /-- ENC_CLOSE (R127). -/
  | encClose
  /-- DEC_CLEAR (42_decoder.md R149). -/
  | decClear
  /-- DEC_BYTE d (R150). -/
  | decByte (d : Byte)
  /-- DEC_LAST d (R151). -/
  | decLast (d : Byte)
  /-- PL_LEN (44_ports.md R191). -/
  | plLen
  /-- PL_READ i (R192). -/
  | plRead (i : Byte)
  /-- RX_ARM (43_frame_reader.md R171). -/
  | rxArm
  deriving DecidableEq, Repr

end Sys2Proof
end

