-- ==== Sys2Proof/WellFormed.lean ====
section
/-! DEFINITION. What may be checked before a run: the operand range of a command and the parameter ranges of R8. -/

namespace Sys2Proof

/-- The operand field of a command, if it has one (30_encoding.md R72). -/
def Instr.operand : Instr → Option Byte
  | .nop => none
  | .ckClear => none
  | .ckAdd d => some d
  | .ckRead => none
  | .encOpen => none
  | .encByte d => some d
  | .encByteAcc d => some d
  | .encCksum => none
  | .encClose => none
  | .decClear => none
  | .decByte d => some d
  | .decLast d => some d
  | .plLen => none
  | .plRead i => some i
  | .rxArm => none

/-- An operand is a byte, 0 to 255 (R72, R82). The type of the field already says so: no command is ill-formed. -/
def Instr.wf (i : Instr) : Bool :=
  match i.operand with
  | none => true
  | some d => d.toNat ≤ 255

/-- The ranges of 00_scope.md R8; T_BYTE is a positive duration. -/
def Params.wf (p : Params) : Bool :=
  2 ≤ p.txqDepth && 1 ≤ p.plbDepth && p.plbDepth ≤ 255 && 2 ≤ p.maxFrameBytes && 1 ≤ p.maxAttempts && 1 ≤ p.tByte

end Sys2Proof
end

