-- ==== Sys2Proof/Decode.lean ====
section
/-! DEFINITION. The command word of 30_encoding.md: the decoder, total on every 16-bit word, rejecting by name, and
after it the encoder. The decoder reads R75's match and mask columns, the encoder its OP column. -/

namespace Sys2Proof

/-- Bits [15:8], OP (R71). -/
def opcodeField (w : Word) : Byte := w.extractLsb' 8 8

/-- Bits [7:0], D, the unsigned operand byte (R71, R72). -/
def operandField (w : Word) : Byte := w.extractLsb' 0 8

/-- One row of R75: a word is the row's command iff it agrees with `pattern` under `mask`. -/
structure Row where
  pattern : Word
  mask : Word
  build : Byte → Instr

/-- Rows of the port and of CKU (R74: OP 0x0_). -/
def portRows : List Row :=
  [ ⟨0x0000, 0xFF00, fun _ => .nop⟩,
    ⟨0x0100, 0xFF00, fun _ => .ckClear⟩,
    ⟨0x0200, 0xFF00, fun d => .ckAdd d⟩,
    ⟨0x0300, 0xFF00, fun _ => .ckRead⟩ ]

/-- Rows of ENC (R74: OP 0x1_). -/
def encRows : List Row :=
  [ ⟨0x1000, 0xFF00, fun _ => .encOpen⟩,
    ⟨0x1100, 0xFF00, fun d => .encByte d⟩,
    ⟨0x1200, 0xFF00, fun d => .encByteAcc d⟩,
    ⟨0x1300, 0xFF00, fun _ => .encCksum⟩,
    ⟨0x1400, 0xFF00, fun _ => .encClose⟩ ]

/-- Rows of DEC and of the payload read-out (R74: OP 0x2_). -/
def decRows : List Row :=
  [ ⟨0x2000, 0xFF00, fun _ => .decClear⟩,
    ⟨0x2100, 0xFF00, fun d => .decByte d⟩,
    ⟨0x2200, 0xFF00, fun d => .decLast d⟩,
    ⟨0x2300, 0xFF00, fun _ => .plLen⟩,
    ⟨0x2400, 0xFF00, fun i => .plRead i⟩ ]

/-- Rows of RXD (R74: OP 0x3_). -/
def rxRows : List Row :=
  [ ⟨0x3000, 0xFF00, fun _ => .rxArm⟩ ]

/-- The complete opcode table (R75). -/
def opcodeTable : List Row := portRows ++ encRows ++ decRows ++ rxRows

/-- Why a word is no command. -/
inductive DecodeError where
  /-- OP is not in R75 (R76). The command port still accepts the word and raises CMD_ERR. Safe. -/
  | illegalOpcode (op : Byte)
  deriving DecidableEq, Repr

/-- Any 16-bit word decodes to a command of R75, or to "illegal" (R76). -/
def decode (w : Word) : Except DecodeError Instr :=
  match opcodeTable.find? (fun r => w &&& r.mask == r.pattern) with
  | some r => .ok (r.build (operandField w))
  | none => .error (.illegalOpcode (opcodeField w))

/-- The OP column of R75. -/
def Instr.opcode : Instr → Byte
  | .nop => 0x00#8
  | .ckClear => 0x01#8
  | .ckAdd _ => 0x02#8
  | .ckRead => 0x03#8
  | .encOpen => 0x10#8
  | .encByte _ => 0x11#8
  | .encByteAcc _ => 0x12#8
  | .encCksum => 0x13#8
  | .encClose => 0x14#8
  | .decClear => 0x20#8
  | .decByte _ => 0x21#8
  | .decLast _ => 0x22#8
  | .plLen => 0x23#8
  | .plRead _ => 0x24#8
  | .rxArm => 0x30#8

/-- The word of a command: `OP << 8 | operand`, with 0x00 as the low byte of operand-less commands (R82). -/
def encode (i : Instr) : Word := i.opcode ++ i.operand.getD 0x00#8

/-- The host's question to the decoder: the command of the word whose bits are `w`, `nbits` of them given and every
bit above them 0. A command is one parallel 16-bit word, so no byte order applies (20_memory.md R56; log 21). -/
def decodeTableWord (nbits w : Nat) : Option Instr :=
  (decode (BitVec.ofNat 16 (w % 2 ^ nbits))).toOption

end Sys2Proof
end

