-- ==== Sys2Proof/Machine/Assembler.lean ====
section
/-! DEFINITION. The assembler's view of a program: the pseudo-instructions of 30_encoding.md R83 and the line syntax of
R82. `encode` (Decode.lean) gives the assembled word. -/

namespace Sys2Proof.Machine

/-- `ENC_FRAME b0, ..., bn-1` (R83). -/
def encFrame (p : List Byte) : List Instr := [.encOpen] ++ p.map .encByte ++ [.encClose]

/-- `SEND_MSG b0, ..., bn-1` (R83). -/
def sendMsg (r : List Byte) : List Instr := [.ckClear, .encOpen] ++ r.map .encByteAcc ++ [.encCksum, .encClose]

/-- `CK_SUM b0, ..., bn-1` (R83). -/
def ckSum (p : List Byte) : List Instr := [.ckClear] ++ p.map .ckAdd ++ [.ckRead]

/-- The commands that feed a whole frame to DEC: every byte but the last with DEC_BYTE, the last with DEC_LAST. -/
def decFeed : List Byte → List Instr
  | [] => []
  | [f] => [.decLast f]
  | f :: g :: rest => .decByte f :: decFeed (g :: rest)

/-- `DEC_FRAME f0, ..., fn-1` for n ≥ 1 (R83). -/
def decFrame (f : List Byte) : List Instr := .decClear :: decFeed f

/-- A program's assembled words (R82, R84). -/
def assembleWords (is : List Instr) : List Word := is.map encode

/-- Why a line does not assemble (R82, R83). -/
inductive AsmError where
  /-- No command or pseudo-instruction of that name. -/
  | unknownMnemonic
  /-- "An operand on an operand-less command is an assembly error." -/
  | unwantedOperand
  /-- A command that takes an operand has none or several. -/
  | operandCount
  /-- The operand is not a byte in hex or decimal, 0 to 255. -/
  | badOperand
  /-- "`DEC_FRAME` with no operand is an assembly error." -/
  | emptyDecFrame
  deriving DecidableEq, Repr

/-- One line of a program, read into its mnemonic and its operands. -/
structure AsmLine where
  mnemonic : String
  operands : List Byte
  deriving DecidableEq, Repr

/-- The value of a digit in base 10 or 16. -/
def digitValue (base : Nat) (c : Char) : Option Nat :=
  let v :=
    if '0' ≤ c ∧ c ≤ '9' then some (c.toNat - '0'.toNat)
    else if 'a' ≤ c ∧ c ≤ 'f' then some (c.toNat - 'a'.toNat + 10)
    else if 'A' ≤ c ∧ c ≤ 'F' then some (c.toNat - 'A'.toNat + 10)
    else none
  v.filter (· < base)

/-- A number of at least one digit, most significant first. -/
def numberFrom (base : Nat) (acc : Nat) : List Char → Option Nat
  | [] => some acc
  | c :: cs =>
    match digitValue base c with
    | some v => numberFrom base (acc * base + v) cs
    | none => none

/-- "a byte in hex (`0x7E`) or decimal (`126`), 0 to 255" (R82). -/
def parseOperand (cs : List Char) : Option Byte :=
  let n :=
    match cs with
    | [] => none
    | '0' :: 'x' :: c :: rest => numberFrom 16 0 (c :: rest)
    | c :: rest => numberFrom 10 0 (c :: rest)
  (n.filter (· ≤ 255)).map (BitVec.ofNat 8)

/-- Spaces, tabs and commas separate the words of a line (log 20). -/
def isSeparator (c : Char) : Bool := c == ' ' || c == '\t' || c == ','

/-- The words of a line, in order; `cur` is the word being read. -/
def wordsFrom (cur : List Char) : List Char → List (List Char)
  | [] => if cur.isEmpty then [] else [cur]
  | c :: cs =>
    if isSeparator c then (if cur.isEmpty then wordsFrom [] cs else cur :: wordsFrom [] cs)
    else wordsFrom (cur ++ [c]) cs

/-- A line without its comment ("`;` begins a comment", R82), read into mnemonic and operands; `none` for a line with
nothing but a comment. -/
def parseLine (line : List Char) : Except AsmError (Option AsmLine) :=
  match wordsFrom [] (line.takeWhile (· != ';')) with
  | [] => .ok none
  | m :: ops =>
    match ops.mapM parseOperand with
    | some bs => .ok (some { mnemonic := String.ofList m, operands := bs })
    | none => .error .badOperand

/-- A command without operand. -/
def noOperand (i : Instr) : List Byte → Except AsmError (List Instr)
  | [] => .ok [i]
  | _ :: _ => .error .unwantedOperand

/-- A command with one operand. -/
def oneOperand (f : Byte → Instr) : List Byte → Except AsmError (List Instr)
  | [d] => .ok [f d]
  | [] => .error .operandCount
  | _ :: _ :: _ => .error .operandCount

/-- `DEC_FRAME` with no operand is an assembly error (R83). -/
def assembleDecFrame : List Byte → Except AsmError (List Instr)
  | [] => .error .emptyDecFrame
  | f :: fs => .ok (decFrame (f :: fs))

/-- The commands a line stands for (R75, R82, R83). -/
def assembleLine (l : AsmLine) : Except AsmError (List Instr) :=
  if l.mnemonic = "NOP" then noOperand .nop l.operands
  else if l.mnemonic = "CK_CLEAR" then noOperand .ckClear l.operands
  else if l.mnemonic = "CK_ADD" then oneOperand .ckAdd l.operands
  else if l.mnemonic = "CK_READ" then noOperand .ckRead l.operands
  else if l.mnemonic = "ENC_OPEN" then noOperand .encOpen l.operands
  else if l.mnemonic = "ENC_BYTE" then oneOperand .encByte l.operands
  else if l.mnemonic = "ENC_BYTE_ACC" then oneOperand .encByteAcc l.operands
  else if l.mnemonic = "ENC_CKSUM" then noOperand .encCksum l.operands
  else if l.mnemonic = "ENC_CLOSE" then noOperand .encClose l.operands
  else if l.mnemonic = "DEC_CLEAR" then noOperand .decClear l.operands
  else if l.mnemonic = "DEC_BYTE" then oneOperand .decByte l.operands
  else if l.mnemonic = "DEC_LAST" then oneOperand .decLast l.operands
  else if l.mnemonic = "PL_LEN" then noOperand .plLen l.operands
  else if l.mnemonic = "PL_READ" then oneOperand .plRead l.operands
  else if l.mnemonic = "RX_ARM" then noOperand .rxArm l.operands
  else if l.mnemonic = "ENC_FRAME" then .ok (encFrame l.operands)
  else if l.mnemonic = "SEND_MSG" then .ok (sendMsg l.operands)
  else if l.mnemonic = "CK_SUM" then .ok (ckSum l.operands)
  else if l.mnemonic = "DEC_FRAME" then assembleDecFrame l.operands
  else .error .unknownMnemonic

/-- One line of text to its words (R82). -/
def assembleText (line : List Char) : Except AsmError (List Word) :=
  match parseLine line with
  | .error e => .error e
  | .ok none => .ok []
  | .ok (some l) =>
    match assembleLine l with
    | .error e => .error e
    | .ok is => .ok (assembleWords is)

/-- A whole program, one line after another (R82, R84). -/
def assembleProgram : List (List Char) → Except AsmError (List Word)
  | [] => .ok []
  | l :: ls =>
    match assembleText l with
    | .error e => .error e
    | .ok ws =>
      match assembleProgram ls with
      | .error e => .error e
      | .ok rest => .ok (ws ++ rest)

end Sys2Proof.Machine
end

