-- ==== Sys2Proof/Machine/State.lean ====
section
/-! DEFINITION. The state of the machine: the implementation parameters (00_scope.md R8), the block's complete record
(10_state.md R21) and the data of the agents around it (00_scope.md R10), with the state right after reset. -/

namespace Sys2Proof.Machine

/-- The indexed bytes of `plb` that DEC has written, as (index, byte) cells with indices strictly rising. An unlisted
index holds no value of the model's: its byte is unspecified (R29; log 4). -/
abbrev Memory := List Host.Cell

/-- `dec_st` (R26). Codes 6 and 7 are never produced, so they have no constructor. -/
inductive DecSt where
  /-- No byte of the current frame consumed; the next byte must be FLAG. -/
  | idle
  /-- Opening FLAG consumed; scanning the interior, no escape pending. -/
  | body
  /-- Interior scan, the previous byte was 0x7D; the next byte is a selector. -/
  | esc
  /-- A failure is latched in `dec_cause`; the rest of the frame is absorbed. -/
  | bad
  /-- The frame ended and decoded. -/
  | doneOk
  /-- The frame ended and failed. -/
  | doneFail
  deriving DecidableEq, Repr

/-- `dec_cause` (R27). Code 7 is never produced. -/
inductive DecCause where
  | none
  | noOpenFlag
  | badEscape
  | escAtEnd
  | noCloseFlag
  | shortFrame
  | overflow
  deriving DecidableEq, Repr

/-- `rx_st` (R30). Codes 5 to 7 are never produced. -/
inductive RxSt where
  /-- Not armed; received bytes wait in the transport. -/
  | idle
  /-- Armed; each received byte is taken, counted and passed to DEC. -/
  | receiving
  /-- The second FLAG arrived. -/
  | done
  /-- The transport signalled a timeout or end of stream before the second FLAG. -/
  | timeout
  /-- MAX_FRAME_BYTES bytes were taken without a second FLAG. -/
  | overflow
  deriving DecidableEq, Repr

/-- The complete state of the block (R21), field by field. -/
structure Block where
  /-- Checksum accumulator (R22). -/
  acc : Byte
  /-- Value returned by the last read command (R23). -/
  result : Byte
  /-- ENC is inside a frame (R24). -/
  encOpen : Bool
  /-- Transmit queue, head first (R25). -/
  txq : List Byte
  /-- DEC frame state (R26). -/
  decSt : DecSt
  /-- First failure cause of the current frame (R27). -/
  decCause : DecCause
  /-- Number of valid bytes in `plb` (R28). -/
  decLen : Nat
  /-- Decoded payload buffer (R29). -/
  plb : Memory
  /-- RXD state (R30). -/
  rxSt : RxSt
  /-- FLAG bytes RXD has counted in the current frame (R31). -/
  flagCnt : Nat
  /-- Raw bytes RXD has taken in the current frame (R32). -/
  rawCnt : Nat
  /-- The host has issued a command the block rejected; sticky (R33). -/
  cmdErr : Bool
  deriving DecidableEq, Repr

/-- The reset column of R21 (70_reset_and_hazards.md R260). Every byte of `plb` is unspecified: none is listed. -/
def Block.reset : Block :=
  { acc := 0x00#8, result := 0x00#8, encOpen := false, txq := [], decSt := .idle, decCause := .none, decLen := 0,
    plb := [], rxSt := .idle, flagCnt := 0, rawCnt := 0, cmdErr := false }

/-- Whose event comes next (R10). Every interleaving is some list of turns (20_memory.md R61; log 2). -/
inductive Turn where
  /-- The host offers the head word of its command queue (CMD_VALID). -/
  | command
  /-- The transport takes TXD (TX_READY). -/
  | txPop
  /-- The transport offers its first received byte (RX_VALID). -/
  | rxByte
  /-- The transport reports a timeout or end of stream (RX_TMO). -/
  | rxTimeout
  /-- RST is asserted. -/
  | reset
  /-- The reference client moves (47_exchange_client.md R204). -/
  | client
  deriving DecidableEq, Repr

/-- Where the reference client stands in `send_message raw`, at attempt `k` counted from 1 (R204). -/
inductive ClientSt where
  /-- No call in progress. -/
  | idle
  /-- Sending: the words of `SEND_MSG raw` not yet placed on the port. -/
  | sending (raw : List Byte) (k : Nat) (todo : List Word)
  /-- AwaitingReply: RX_ARM is issued, STATUS is polled. -/
  | awaiting (raw : List Byte) (k : Nat)
  /-- PL_LEN is issued. -/
  | lenAsked (raw : List Byte) (k : Nat)
  /-- PL_READ 1 is issued for a payload of `len` bytes. -/
  | codeAsked (raw : List Byte) (k : Nat) (len : Nat)
  /-- The payload is being read out: `got` is read, PL_READ |got| is issued. -/
  | reading (raw : List Byte) (k : Nat) (len : Nat) (got : List Byte)
  deriving DecidableEq, Repr

/-- What `send_message` returns (R204, R209). -/
inductive Reply where
  | response (payload : List Byte)
  | empty
  deriving DecidableEq, Repr

/-- A finished call: what it returned and how many frames it wrote (R211). -/
structure Returned where
  writes : Nat
  reply : Reply
  deriving DecidableEq, Repr

/-- The reference client (R200): calls waiting, oldest first, the call in progress, and the calls finished. -/
structure Client where
  calls : List (List Byte)
  st : ClientSt
  returned : List Returned
  deriving DecidableEq, Repr

/-- The data of the agents around the block. None of it is block state (R38), and reset does not touch it
(70_reset_and_hazards.md R262, R263). -/
structure Env where
  /-- The words the host offers, in port order; the head is on CMD (R70). -/
  cmdPort : List Word
  /-- The bytes handed to the transport so far, in order (R195). -/
  txOut : List Byte
  /-- The bytes the transport holds for RXD, in delivery order (R176). -/
  rxIn : List Byte
  /-- Whose event comes next, oldest first. -/
  turns : List Turn
  /-- The reference client. -/
  client : Client
  deriving DecidableEq, Repr

/-- Nothing offered, nothing received, no call made. DESIGN CHOICE (log 2, 3, 12). -/
def Env.start : Env :=
  { cmdPort := [], txOut := [], rxIn := [], turns := [], client := { calls := [], st := .idle, returned := [] } }

end Sys2Proof.Machine

namespace Sys2Proof.Machine

/-- The machine: its parameters, the block, and the agents around it. -/
structure State where
  par : Params
  blk : Block
  env : Env
  deriving DecidableEq, Repr

/-- Why a step would end in a fault. There is no constructor: the block has no traps, and no condition stops it
(60_exceptions.md R230). A rejected command sets CMD_ERR and the block goes on; that a claim counts CMD_ERR as a fault
(R248) is said in Safety.lean. Raised by nobody (log 6); safe. -/
inductive Fault where
  deriving DecidableEq, Repr

/-- Why a step has no meaning. -/
inductive Refusal where
  /-- An instruction that has no meaning yet; raised by an arm of `exec`, and no arm raises it. Safe. -/
  | notModelled (mnemonic : String)
  /-- `send_message([])`: "A model of the client refuses" it (47_exchange_client.md R203). Raised by the client's turn
  when the oldest waiting call has an empty RawMessage. Safe. -/
  | emptyRawMessage
  deriving DecidableEq, Repr

/-- What a meaning answers. -/
abbrev Result := Host.Outcome State Fault Refusal

/-- The machine right after reset (10_state.md R21), with the parameters of the test vectors (log 1). -/
def State.reset : State :=
  { par := Params.vectors, blk := Block.reset, env := Env.start }

end Sys2Proof.Machine
end

