-- ==== Sys2Proof/Machine/Ops.lean ====
section
/-! DEFINITION. The named operations every meaning is written over: the bytes of `plb`, the command port, and the four
ways a command ends (accepted, rejected, held, accepted with output). -/

namespace Sys2Proof.Machine

/-- The canonical form of a memory: indices strictly rising. -/
def Memory.wf : Memory → Bool
  | [] => true
  | [_] => true
  | a :: b :: rest => a.1 < b.1 && Memory.wf (b :: rest)

/-- The byte listed at index `k`, if DEC has written it. -/
def Memory.read? : Memory → Nat → Option Byte
  | [], _ => none
  | (i, v) :: rest, k => if i = k then some v else Memory.read? rest k

/-- `plb[k] <- v`, keeping the canonical form (R12, R54). -/
def Memory.write : Memory → Nat → Byte → Memory
  | [], k, v => [(k, v)]
  | (i, w) :: rest, k, v =>
    if k < i then (k, v) :: (i, w) :: rest
    else if k = i then (k, v) :: rest
    else (i, w) :: Memory.write rest k v

/-- The byte `plb[k]`; where DEC has written none it is unspecified, a free value (R29; log 4). -/
def Block.plbByte (b : Block) (k : Nat) : Byte := (b.plb.read? k).getD (Config.plbUnspecified k)

/-- Bytes the transmit queue can still take: TXQ_DEPTH − |txq| (20_memory.md R53). Where no rule lets |txq| exceed
TXQ_DEPTH the difference is exact; in a state no run reaches it is 0 (log 9). -/
def State.txFree (s : State) : Nat := s.par.txqDepth - s.blk.txq.length

/-- `tx_push(L)`: append to the tail of `txq`, in list order (R12, R53). -/
def Block.txPush (b : Block) (L : List Byte) : Block := { b with txq := b.txq ++ L }

/-- An accepted command leaves the port (60_exceptions.md R231); the port then shows the host's next word (R34). -/
def State.leavePort (s : State) : State := { s with env.cmdPort := s.env.cmdPort.tail }

/-- The command is accepted and the block becomes `b`; all of it is one event (20_memory.md R61). -/
def complete (b : Block) (s : State) : Result := .next { s.leavePort with blk := b }

/-- `raise CMD_ERR` (00_scope.md R12, 60_exceptions.md R231): the command is accepted, sets the sticky flag, and has no
other effect but what is already written in `b`. This is the block's only error entry: no state is saved, no mode
changes and no vector is taken (R238), and there is no return from it (R239). -/
def raiseCmdErr (b : Block) (s : State) : Result := complete { b with cmdErr := true } s

/-- `hold` (R12, 70_reset_and_hazards.md R268): the command is not accepted, the port keeps it and no state changes. -/
def hold (s : State) : Result := .next s

/-- `need = |L| ; hold while TXQ_DEPTH − |txq| < need`, then `tx_push(L)` onto `b` (41_encoder.md R123 to R127). -/
def emit (L : List Byte) (b : Block) (s : State) : Result :=
  if s.txFree < L.length then hold s else complete (b.txPush L) s

end Sys2Proof.Machine
end

