-- ==== Sys2Proof/Machine/Flags.lean ====
section
/-! DEFINITION. The STATUS word (10_state.md R35): the codes of the status fields, the word computed from the state, the
fields as a host reads them from the word, and the other output ports of 30_encoding.md R70. -/

namespace Sys2Proof.Machine

/-- Code of `dec_st` (R26). -/
def DecSt.code : DecSt → BitVec 3
  | .idle => 0
  | .body => 1
  | .esc => 2
  | .bad => 3
  | .doneOk => 4
  | .doneFail => 5

/-- Code of `dec_cause` (R27). -/
def DecCause.code : DecCause → BitVec 3
  | .none => 0
  | .noOpenFlag => 1
  | .badEscape => 2
  | .escAtEnd => 3
  | .noCloseFlag => 4
  | .shortFrame => 5
  | .overflow => 6

/-- Code of `rx_st` (R30). -/
def RxSt.code : RxSt → BitVec 3
  | .idle => 0
  | .receiving => 1
  | .done => 2
  | .timeout => 3
  | .overflow => 4

/-- TXQ_EMPTY: 1 iff |txq| = 0 (R35). -/
def State.txqEmpty (s : State) : Bool := s.blk.txq.length == 0

/-- TXQ_FULL: 1 iff |txq| = TXQ_DEPTH (R35). -/
def State.txqFull (s : State) : Bool := s.blk.txq.length == s.par.txqDepth

/-- The STATUS port, bit by bit from [15] down (R35). It has no storage of its own; bits [15:13] are 0 (R36). -/
def State.status (s : State) : Word :=
  0#3 ++ BitVec.ofBool s.txqFull ++ BitVec.ofBool s.txqEmpty ++ BitVec.ofBool s.blk.cmdErr ++ s.blk.rxSt.code ++
    s.blk.decCause.code ++ s.blk.decSt.code ++ BitVec.ofBool s.blk.encOpen

/-- The fields of a STATUS word as its reader takes them (R35). -/
def statusDecSt (w : Word) : BitVec 3 := w.extractLsb' 1 3
/-- STATUS.DEC_CAUSE, bits [6:4] (R35). -/
def statusDecCause (w : Word) : BitVec 3 := w.extractLsb' 4 3
/-- STATUS.RX_ST, bits [9:7] (R35). -/
def statusRxSt (w : Word) : BitVec 3 := w.extractLsb' 7 3

/-- The RESULT port (R23, 44_ports.md R194). -/
def State.resultPort (s : State) : Byte := s.blk.result

/-- TX_VALID: 1 iff |txq| > 0 (R70). -/
def State.txValid (s : State) : Bool := 0 < s.blk.txq.length

/-- TXD: the head byte of `txq`; with an empty queue the spec gives TXD no value, and it has none here (log 15). -/
def State.txd (s : State) : Option Byte := s.blk.txq.head?

/-- RX_READY: 1 iff `rx_st` = RECEIVING (R70). -/
def State.rxReady (s : State) : Bool := s.blk.rxSt == .receiving

end Sys2Proof.Machine
end

