-- ==== Sys2Proof/Machine/Client.lean ====
section
/-! DEFINITION. The reference client, the Exchange Controller (47_exchange_client.md R200 to R210), as a host agent that
sees the block through the command port and the STATUS and RESULT ports only. One turn of the client is one of: place
the next command on the port, read a port and decide, begin the next call. It waits while the port has not accepted the
command it placed (R204: "waits until the port accepts it"). -/

namespace Sys2Proof.Machine

open Sys2Proof.Config

/-- "issue X": place command X on the port and go to `st` (R204). -/
def clientIssue (i : Instr) (st : ClientSt) (s : State) : State :=
  { s with env.cmdPort := [encode i], env.client.st := st }

/-- `send_message` returns `r` after writing `k` frames (R204, R209, R211). -/
def clientReturn (k : Nat) (r : Reply) (s : State) : State :=
  { s with env.client.st := .idle, env.client.returned := s.env.client.returned ++ [{ writes := k, reply := r }] }

/-- The head of R204's loop when `k` attempts are spent: the next attempt sends the same `raw` again, or the budget is
exhausted and the call returns Empty (R208, R209). -/
def clientNextAttempt (raw : List Byte) (k : Nat) (s : State) : State :=
  if k < s.par.maxAttempts then
    { s with env.client.st := .sending raw (k + 1) (assembleWords (sendMsg raw)) }
  else clientReturn k .empty s

/-- The Decision of R207 once RXD has left RECEIVING, up to asking the payload length; before that, one more poll. -/
def clientPoll (raw : List Byte) (k : Nat) (s : State) : State :=
  if statusRxSt s.status = RxSt.receiving.code then s
  else if statusRxSt s.status = RxSt.timeout.code ∨ statusRxSt s.status = RxSt.overflow.code then
    clientNextAttempt raw k s
  else if statusDecSt s.status = DecSt.doneFail.code then clientNextAttempt raw k s
  else clientIssue .plLen (.lenAsked raw k) s

/-- The length is on RESULT: a payload of fewer than 2 bytes is a failed attempt (R207). -/
def clientLength (raw : List Byte) (k : Nat) (s : State) : State :=
  if s.resultPort.toNat < 2 then clientNextAttempt raw k s
  else clientIssue (.plRead 0x01#8) (.codeAsked raw k s.resultPort.toNat) s

/-- The response code is on RESULT: 0x08 is retried, any other code is final (R201, R207). -/
def clientCode (raw : List Byte) (k len : Nat) (s : State) : State :=
  if s.resultPort = CHECKSUM_ERROR then clientNextAttempt raw k s
  else clientIssue (.plRead 0x00#8) (.reading raw k len []) s

/-- A payload byte is on RESULT: read the next, or return the whole payload (R204, R210). -/
def clientRead (raw : List Byte) (k len : Nat) (got : List Byte) (s : State) : State :=
  if got.length + 1 < len then
    clientIssue (.plRead (BitVec.ofNat 8 (got.length + 1))) (.reading raw k len (got ++ [s.resultPort])) s
  else clientReturn k (.response (got ++ [s.resultPort])) s

/-- The next command of SEND_MSG, or RX_ARM when all are placed (R204 to R206). -/
def clientSend (raw : List Byte) (k : Nat) (todo : List Word) (s : State) : State :=
  match todo with
  | w :: ws => { s with env.cmdPort := [w], env.client.st := .sending raw k ws }
  | [] => clientIssue .rxArm (.awaiting raw k) s

/-- With no call in progress, begin the oldest waiting one (R200); `send_message([])` is refused (R203). -/
def clientBegin (s : State) : Result :=
  match s.env.client.calls with
  | [] => .next s
  | [] :: _ => .refused .emptyRawMessage
  | (c :: cs) :: rest => .next (clientNextAttempt (c :: cs) 0 { s with env.client.calls := rest })

/-- One turn of the client (R204). -/
def clientTurn (s : State) : Result :=
  match s.env.cmdPort with
  | _ :: _ => .next s
  | [] =>
    match s.env.client.st with
    | .idle => clientBegin s
    | .sending raw k todo => .next (clientSend raw k todo s)
    | .awaiting raw k => .next (clientPoll raw k s)
    | .lenAsked raw k => .next (clientLength raw k s)
    | .codeAsked raw k len => .next (clientCode raw k len s)
    | .reading raw k len got => .next (clientRead raw k len got s)

end Sys2Proof.Machine
end

