-- ==== Sys2Proof/Machine/Operands.lean ====
section
/-! DEFINITION. The operand forms (30_encoding.md R72): the data byte as an addend modulo 256, the data byte as a wire
byte, and the index into `plb`; and the one value written back from a count. -/

namespace Sys2Proof.Machine

/-- The data byte as an addend: `(acc + d) mod 256`, the carry discarded (40_checksum.md R103, 41_encoder.md R125). -/
def addByte (acc d : Byte) : Byte := acc + d

/-- The operand of PL_READ: an unsigned index, 0 to 255 (R72, 44_ports.md R192). -/
def indexOperand (i : Byte) : Nat := i.toNat

/-- `zext_8(dec_len)` (44_ports.md R191). "The value fits, because PLB_DEPTH ≤ 255"; where it would not, in a state no
run reaches, its low 8 bits (log 22). -/
def countByte (n : Nat) : Byte := BitVec.ofNat 8 n

end Sys2Proof.Machine
end

