-- ==== Sys2Proof/Machine/Cku.lean ====
section
/-! DEFINITION. The checksum accumulator's commands (40_checksum.md R102 to R104). None is ever rejected or held. -/

namespace Sys2Proof.Machine

/-- CK_CLEAR: `acc <- 0x00` (R102). -/
def execCkClear (s : State) : Result := complete { s.blk with acc := 0x00#8 } s

/-- CK_ADD d: `acc <- (acc + d) mod 256` (R103). -/
def execCkAdd (d : Byte) (s : State) : Result := complete { s.blk with acc := addByte s.blk.acc d } s

/-- CK_READ: `result <- acc` (R104). -/
def execCkRead (s : State) : Result := complete { s.blk with result := s.blk.acc } s

end Sys2Proof.Machine
end

