-- ==== Sys2Proof/Machine/Dec.lean ====
section
/-! DEFINITION. The decoder step (42_decoder.md R144) and the decoder's commands (R149 to R151). -/

namespace Sys2Proof.Machine

open Sys2Proof.Config

/-- DEC expects a new frame: IDLE, no cause, no payload (R148, R149). `plb` keeps its bytes, which nothing can read. -/
def Block.decCleared (b : Block) : Block := { b with decSt := .idle, decLen := 0, decCause := .none }

/-- `LATCH(c)`: the failure is kept in BAD until the frame ends (R144). -/
def Block.decLatch (b : Block) (c : DecCause) : Block := { b with decCause := c, decSt := .bad, decLen := 0 }

/-- `FAIL(c)`: the frame has ended and failed (R144). -/
def Block.decFail (b : Block) (c : DecCause) : Block := { b with decCause := c, decSt := .doneFail, decLen := 0 }

/-- `APPEND(v)` (R144, R146), for a buffer of `depth` bytes: DEC then stands in `st`, or in BAD when the buffer is full.
R144 tests `len = PLB_DEPTH`, R146 `dec_len < PLB_DEPTH`; they agree wherever `dec_len ≤ PLB_DEPTH` (log 10). -/
def Block.decAppend (depth : Nat) (b : Block) (v : Byte) (st : DecSt) : Block :=
  if b.decLen < depth then { b with plb := b.plb.write b.decLen v, decLen := b.decLen + 1, decSt := st }
  else b.decLatch .overflow

/-- The IDLE case of `dec_step`: `x` is frame[0] (R144). -/
def decFirst (x : Byte) (last : Bool) (b : Block) : Block :=
  if last then b.decFail .shortFrame
  else if x ≠ FLAG then b.decLatch .noOpenFlag
  else { b with decSt := .body }

/-- The BODY case of `dec_step` (R144). A literal 0x7E that is not last is data (R154). -/
def decBody (depth : Nat) (x : Byte) (last : Bool) (b : Block) : Block :=
  if last then
    if x = FLAG then { b with decSt := .doneOk } else b.decFail .noCloseFlag
  else if x = ESC then { b with decSt := .esc }
  else b.decAppend depth x .body

/-- The ESC case of `dec_step`: `x` is the selector (R144, R145). -/
def decEsc (depth : Nat) (x : Byte) (last : Bool) (b : Block) : Block :=
  if last then
    if x ≠ FLAG then b.decFail .noCloseFlag else b.decFail .escAtEnd
  else if x = ESC_FLAG then b.decAppend depth FLAG .body
  else if x = ESC_ESC then b.decAppend depth ESC .body
  else b.decLatch .badEscape

/-- The BAD case of `dec_step`: absorb to the end, the cause kept (R144, R145). A byte that is not the last changes
nothing, as R144, R150 and R240 say; 20_memory.md R59's last bullet says otherwise of every DEC command (log 24), and
60_exceptions.md R239 names the next DEC_BYTE as a way out of BAD (log 25). -/
def decBad (last : Bool) (b : Block) : Block :=
  if last then { b with decSt := .doneFail } else b

/-- `dec_step(x, last)` (R144), with the implicit restart of R148 from DONE_OK and DONE_FAIL. -/
def decStep (depth : Nat) (x : Byte) (last : Bool) (b : Block) : Block :=
  match b.decSt with
  | .idle => decFirst x last b
  | .body => decBody depth x last b
  | .esc => decEsc depth x last b
  | .bad => decBad last b
  | .doneOk => decFirst x last b.decCleared
  | .doneFail => decFirst x last b.decCleared

/-- DEC_CLEAR: abandon any frame in DEC (R149). A second one changes nothing, against R59's last bullet (log 24). -/
def execDecClear (s : State) : Result :=
  if s.blk.rxSt = .receiving then raiseCmdErr s.blk s else complete s.blk.decCleared s

/-- DEC_BYTE d: give DEC one frame byte that is not the frame's last (R150). -/
def execDecByte (d : Byte) (s : State) : Result :=
  if s.blk.rxSt = .receiving then raiseCmdErr s.blk s else complete (decStep s.par.plbDepth d false s.blk) s

/-- DEC_LAST d: give DEC the frame's final byte and finish the frame (R151). After a SHORT_FRAME it finds another one and
changes nothing, against R59's last bullet (log 24). -/
def execDecLast (d : Byte) (s : State) : Result :=
  if s.blk.rxSt = .receiving then raiseCmdErr s.blk s else complete (decStep s.par.plbDepth d true s.blk) s

end Sys2Proof.Machine
end

