-- ==== Sys2Proof/Machine/Reference.lean ====
section
/-! DEFINITION. The source's functions, over byte lists: checksum (40_checksum.md R100), stuff and encode
(41_encoder.md R120, R121), decode (42_decoder.md R140) and read_frame (43_frame_reader.md R170). ENC calls `stuff`;
the laws of the block are stated against the others. -/

namespace Sys2Proof.Machine

open Sys2Proof.Config

/-- `checksum(L)`: the sum of the bytes, each as unsigned 0 to 255, modulo 256 (R100). -/
def checksum (L : List Byte) : Byte := BitVec.ofNat 8 ((L.map BitVec.toNat).sum % 256)

/-- `stuff(b)` (R120). -/
def stuff (b : Byte) : List Byte :=
  if b = FLAG then [ESC, ESC_FLAG] else if b = ESC then [ESC, ESC_ESC] else [b]

/-- `encode(p)` (R121): one FLAG, the stuffed payload bytes in payload order, one FLAG. -/
def frameEncode (p : List Byte) : List Byte := [FLAG] ++ p.flatMap stuff ++ [FLAG]

/-- The interior scan of `decode` (R140), left to right: two positions on an escape pair, one otherwise. `none` is
Fail. -/
def unstuff : List Byte → Option (List Byte)
  | [] => some []
  | [b] => if b = ESC then none else some [b]
  | b :: c :: rest =>
    if b = ESC then
      if c = ESC_FLAG then (unstuff rest).map (FLAG :: ·)
      else if c = ESC_ESC then (unstuff rest).map (ESC :: ·)
      else none
    else (unstuff (c :: rest)).map (b :: ·)

/-- `decode(f)` (R140): `some out` is Ok(out), `none` is Fail, a value distinct from every payload (R142). -/
def frameDecode : List Byte → Option (List Byte)
  | [] => none
  | [_] => none
  | a :: b :: rest =>
    if a = FLAG ∧ (b :: rest).getLast? = some FLAG then unstuff (b :: rest).dropLast else none

/-- What `read_frame` leaves: the frame it returns and the bytes still in the transport, or TIMEOUT when the bytes end
before the second FLAG (R170). -/
def readFrameFrom (flags : Nat) (acc : List Byte) : List Byte → Option (List Byte × List Byte)
  | [] => none
  | r :: rest =>
    let flags' := if r = FLAG then flags + 1 else flags
    if flags' = 2 then some (acc ++ [r], rest) else readFrameFrom flags' (acc ++ [r]) rest

/-- `read_frame` on the bytes a transport delivers before it times out (R170). -/
def readFrame (cs : List Byte) : Option (List Byte × List Byte) := readFrameFrom 0 [] cs

end Sys2Proof.Machine
end

