-- ==== Sys2Proof/Machine/Enc.lean ====
section
/-! DEFINITION. The encoder's commands (41_encoder.md R123 to R127). The order of the checks is 60_exceptions.md R236:
the state condition first, then the hold, so a command that will be rejected is never held. -/

namespace Sys2Proof.Machine

open Sys2Proof.Config

/-- ENC_OPEN: emit the opening FLAG (R123). -/
def execEncOpen (s : State) : Result :=
  if s.blk.encOpen then raiseCmdErr s.blk s else emit [FLAG] { s.blk with encOpen := true } s

/-- ENC_BYTE d: emit one payload byte, stuffed (R124). -/
def execEncByte (d : Byte) (s : State) : Result :=
  if s.blk.encOpen then emit (stuff d) s.blk s else raiseCmdErr s.blk s

/-- ENC_BYTE_ACC d: emit one payload byte, stuffed, and add the unstuffed byte to the checksum (R125). -/
def execEncByteAcc (d : Byte) (s : State) : Result :=
  if s.blk.encOpen then emit (stuff d) { s.blk with acc := addByte s.blk.acc d } s else raiseCmdErr s.blk s

/-- ENC_CKSUM: emit the accumulator as one payload byte, stuffed (R126). -/
def execEncCksum (s : State) : Result :=
  if s.blk.encOpen then emit (stuff s.blk.acc) s.blk s else raiseCmdErr s.blk s

/-- ENC_CLOSE: emit the closing FLAG (R127). -/
def execEncClose (s : State) : Result :=
  if s.blk.encOpen then emit [FLAG] { s.blk with encOpen := false } s else raiseCmdErr s.blk s

end Sys2Proof.Machine
end

