-- ==== Sys2Proof/Machine/Payload.lean ====
section
/-! DEFINITION. NOP and the payload read-out (44_ports.md R190 to R192). None is ever held. -/

namespace Sys2Proof.Machine

/-- NOP: accepted, no state changes (R190). -/
def execNop (s : State) : Result := complete s.blk s

/-- PL_LEN: `result <- zext_8(dec_len)` (R191). -/
def execPlLen (s : State) : Result := complete { s.blk with result := countByte s.blk.decLen } s

/-- PL_READ i: payload byte i to `result`; outside a finished payload 0x00 and CMD_ERR (R192). -/
def execPlRead (i : Byte) (s : State) : Result :=
  if s.blk.decSt = .doneOk ∧ indexOperand i < s.blk.decLen then
    complete { s.blk with result := s.blk.plbByte (indexOperand i) } s
  else raiseCmdErr { s.blk with result := 0x00#8 } s

end Sys2Proof.Machine
end

