-- ==== Sys2Proof/Machine/Rxd.lean ====
section
/-! DEFINITION. The receive frame delimiter: RX_ARM (43_frame_reader.md R171) and what an RX byte and an RX timeout do
to the block (R172, R175). -/

namespace Sys2Proof.Machine

open Sys2Proof.Config

/-- RX_ARM: start receiving one frame (R171). -/
def execRxArm (s : State) : Result :=
  if s.blk.rxSt = .receiving then raiseCmdErr s.blk s
  else complete { s.blk.decCleared with rxSt := .receiving, flagCnt := 0, rawCnt := 0 } s

/-- `flag_cnt` after the byte `x` (R31, R172). -/
def flagCountAfter (x : Byte) (b : Block) : Nat := b.flagCnt + (if x = FLAG then 1 else 0)

/-- `rx_byte(x)` on the block, enabled only while RECEIVING (R172): the second FLAG ends the frame (R173) and beats the
length bound (R174; 60_exceptions.md R237). -/
def Block.rxByte (p : Params) (x : Byte) (b : Block) : Block :=
  let counted := { b with rawCnt := b.rawCnt + 1, flagCnt := flagCountAfter x b }
  if flagCountAfter x b = 2 then { decStep p.plbDepth x true counted with rxSt := .done }
  else if b.rawCnt + 1 = p.maxFrameBytes then { counted.decCleared with rxSt := .overflow }
  else decStep p.plbDepth x false counted

/-- `rx_timeout()` on the block, enabled only while RECEIVING (R175). -/
def Block.rxTimeout (b : Block) : Block := { b.decCleared with rxSt := .timeout }

end Sys2Proof.Machine
end

