-- ==== Sys2Proof/Machine/Dispatch.lean ====
section
/-! DEFINITION. The dispatch: the meaning of each command offered on the command port. -/

namespace Sys2Proof.Machine

def exec (i : Instr) (s : State) : Host.Outcome State Fault Refusal :=
  match i with
  | .nop => Sys2Proof.Machine.execNop s
  | .ckClear => Sys2Proof.Machine.execCkClear s
  | .ckAdd d => Sys2Proof.Machine.execCkAdd d s
  | .ckRead => Sys2Proof.Machine.execCkRead s
  | .encOpen => Sys2Proof.Machine.execEncOpen s
  | .encByte d => Sys2Proof.Machine.execEncByte d s
  | .encByteAcc d => Sys2Proof.Machine.execEncByteAcc d s
  | .encCksum => Sys2Proof.Machine.execEncCksum s
  | .encClose => Sys2Proof.Machine.execEncClose s
  | .decClear => Sys2Proof.Machine.execDecClear s
  | .decByte d => Sys2Proof.Machine.execDecByte d s
  | .decLast d => Sys2Proof.Machine.execDecLast d s
  | .plLen => Sys2Proof.Machine.execPlLen s
  | .plRead k => Sys2Proof.Machine.execPlRead k s
  | .rxArm => Sys2Proof.Machine.execRxArm s

end Sys2Proof.Machine
end

