-- ==== Sys2Proof/Machine/Port.lean ====
section
/-! DEFINITION. The command port: the hold rule (41_encoder.md R128, 70_reset_and_hazards.md R268), CMD_READY, and the
event of the host offering its next word. -/

namespace Sys2Proof.Machine

/-- `need(c, s)`: the bytes a command will push, 0 for every command that will be rejected (R128). -/
def need (i : Instr) (b : Block) : Nat :=
  match i with
  | .nop => 0
  | .ckClear => 0
  | .ckAdd _ => 0
  | .ckRead => 0
  | .encOpen => if b.encOpen then 0 else 1
  | .encByte d => if b.encOpen then (stuff d).length else 0
  | .encByteAcc d => if b.encOpen then (stuff d).length else 0
  | .encCksum => if b.encOpen then (stuff b.acc).length else 0
  | .encClose => if b.encOpen then 1 else 0
  | .decClear => 0
  | .decByte _ => 0
  | .decLast _ => 0
  | .plLen => 0
  | .plRead _ => 0
  | .rxArm => 0

/-- The port accepts command `i` now (R268). -/
def State.accepts (s : State) (i : Instr) : Bool := need i s.blk ≤ s.txFree

/-- CMD_READY (30_encoding.md R70): 0 exactly while the offered command is held. An illegal word is never held (R76),
and with no word offered nothing is held. -/
def State.cmdReady (s : State) : Bool :=
  match s.env.cmdPort with
  | [] => true
  | w :: _ =>
    match decode w with
    | .ok i => s.accepts i
    | .error _ => true

/-- The host offers its next word: the command runs, or the illegal word is accepted and raises CMD_ERR (R76, R231).
A host with no word to offer causes no event. -/
def commandEvent (s : State) : Result :=
  match s.env.cmdPort with
  | [] => .next s
  | w :: _ =>
    match decode w with
    | .ok i => exec i s
    | .error _ => raiseCmdErr s.blk s

end Sys2Proof.Machine
end

