-- ==== Sys2Proof/Machine/Events.lean ====
section
/-! DEFINITION. The events of the other agents on the whole machine (00_scope.md R10): TX pop, RX byte, RX timeout and
reset; and the event of each turn. A turn whose event is not enabled changes nothing. -/

namespace Sys2Proof.Machine

/-- `tx_pop()`, enabled only when |txq| > 0: the head byte goes to the transport (44_ports.md R195). -/
def txPopEvent (s : State) : State :=
  match s.blk.txq with
  | [] => s
  | x :: rest => { s with blk.txq := rest, env.txOut := s.env.txOut ++ [x] }

/-- The RX byte event, enabled only while RX_READY and while the transport holds a byte (43_frame_reader.md R172). While
RXD is not armed the transport keeps its byte (R176). -/
def rxByteEvent (s : State) : State :=
  match s.env.rxIn with
  | [] => s
  | x :: rest =>
    if s.rxReady then { s with blk := s.blk.rxByte s.par x, env.rxIn := rest } else s

/-- The RX timeout event, enabled only while RECEIVING and ignored in any other state (R175). -/
def rxTimeoutEvent (s : State) : State :=
  if s.rxReady then { s with blk := s.blk.rxTimeout } else s

/-- The reset event: every field of the block at its reset value (70_reset_and_hazards.md R260). The words the host
offers and the bytes the transport holds are not the block's, and stay (R262, R263). -/
def resetEvent (s : State) : State := { s with blk := Block.reset }

/-- What a turn does. -/
def event (t : Turn) (s : State) : Result :=
  match t with
  | .command => commandEvent s
  | .txPop => .next (txPopEvent s)
  | .rxByte => .next (rxByteEvent s)
  | .rxTimeout => .next (rxTimeoutEvent s)
  | .reset => .next (resetEvent s)
  | .client => clientTurn s

/-- The turn at the head is being taken: the turns after it remain. -/
def State.takeTurn (s : State) : State := { s with env.turns := s.env.turns.tail }

/-- The word of the host's question `nbits`, `w` (see `decodeTableWord`), offered as the next command. -/
def offerNext (s : State) (word : Word) : State :=
  { s with env.cmdPort := word :: s.env.cmdPort, env.turns := .command :: s.env.turns }

end Sys2Proof.Machine
end

