-- ==== Sys2Proof/Machine/Step.lean ====
section
/-! DEFINITION. One step of the machine: the event of the agent whose turn it is (00_scope.md R10, 20_memory.md R61). -/

namespace Sys2Proof.Machine

/-- One atomic event. With no agent about to move the state is stable (44_ports.md R193: "Between two events the value
is stable"). -/
def step (s : State) : Host.Outcome State Fault Refusal :=
  match s.env.turns with
  | [] => .next s
  | t :: _ => event t s.takeTurn

/-- `s` with the word placed on the command port as the host's next command, and the host's turn next, so that the very
next step runs it (log 3). -/
def State.withFetchWord (s : State) (nbits w : Nat) : State :=
  offerNext s (BitVec.ofNat 16 (w % 2 ^ nbits))

end Sys2Proof.Machine
end

