-- ==== Sys2Proof/Safety.lean ====
section
/-! DEFINITION. What claims are stated in: runs, finished and stuck states (70_reset_and_hazards.md R266), the safe
states (60_exceptions.md R248), and the invariant of 10_state.md R40. -/

namespace Sys2Proof.Machine

/-- `n` steps; stops at a fault or a refusal. -/
def run : Nat → State → Result
  | 0, s => .next s
  | n + 1, s =>
    match step s with
    | .next t => run n t
    | .fault r => .fault r
    | .refused r => .refused r

/-- A run that sets CMD_ERR "has broken the host protocol" (R248): a claim takes this as a premise, or proves it. -/
def State.protocolKept (s : State) : Bool := !s.blk.cmdErr

/-- The host has no more commands to offer and none is held: none on the port, none waiting in the client. -/
def State.hostDone (s : State) : Bool :=
  s.env.cmdPort.isEmpty && s.env.client.calls.isEmpty && s.env.client.st == .idle

/-- The end of a run: the four conditions of R266. -/
def State.finished (s : State) : Bool :=
  s.hostDone && s.blk.txq.isEmpty && !s.rxReady && !s.blk.encOpen

/-- The turn's event would be taken in this state (R10; 20_memory.md R61). Reset can come in every state, so a reset among
the turns to come can always move (log 26). -/
def State.enabled (s : State) : Turn → Bool
  | .command => !s.env.cmdPort.isEmpty && s.cmdReady
  | .txPop => s.txValid
  | .rxByte => s.rxReady && !s.env.rxIn.isEmpty
  | .rxTimeout => s.rxReady
  | .reset => true
  | .client =>
    s.env.cmdPort.isEmpty &&
      match s.env.client.st with
      | .idle => !s.env.client.calls.isEmpty
      | .sending _ _ _ => true
      | .awaiting _ _ => statusRxSt s.status != RxSt.receiving.code
      | .lenAsked _ _ => true
      | .codeAsked _ _ _ => true
      | .reading _ _ _ _ => true

/-- "A state where no agent can move but the run is not finished is stuck" (R266): none of the agents that are still to
move has an enabled event. A state that only a reset still to come can leave is not stuck here (log 26). -/
def State.stuck (s : State) : Bool := !s.finished && s.env.turns.all (fun t => !s.enabled t)

/-- DEC holds no failure (R40 item 1). -/
def DecSt.noFailure (d : DecSt) : Bool :=
  match d with
  | .idle => true
  | .body => true
  | .esc => true
  | .bad => false
  | .doneOk => true
  | .doneFail => false

/-- DEC is inside a frame or before its first byte (R40 item 4). -/
def DecSt.unfinished (d : DecSt) : Bool :=
  match d with
  | .idle => true
  | .body => true
  | .esc => true
  | .bad => true
  | .doneOk => false
  | .doneFail => false

/-- The states reset and the rules can reach (R40), with the ranges of R8 and R21. -/
structure Inv (s : State) : Prop where
  /-- The parameter ranges (R8). -/
  par : s.par.wf = true
  /-- R40 item 1. -/
  cause : s.blk.decCause = .none ↔ s.blk.decSt.noFailure = true
  /-- R40 item 2. -/
  len_zero : s.blk.decSt = .idle ∨ s.blk.decSt = .bad ∨ s.blk.decSt = .doneFail → s.blk.decLen = 0
  /-- R40 item 3. -/
  len_le : s.blk.decLen ≤ s.par.plbDepth
  /-- R40 item 3. -/
  txq_le : s.blk.txq.length ≤ s.par.txqDepth
  /-- R40 item 4. -/
  receiving : s.blk.rxSt = .receiving →
    s.blk.flagCnt ≤ 1 ∧ s.blk.rawCnt < s.par.maxFrameBytes ∧ s.blk.decSt.unfinished = true
  /-- R40 item 5. -/
  no_flag_yet : s.blk.rxSt = .receiving → s.blk.flagCnt = 0 → s.blk.decSt = .idle ∨ s.blk.decSt = .bad
  /-- R40 item 6. -/
  flags_le : s.blk.flagCnt ≤ 2
  /-- The range of `raw_cnt` (R21). -/
  raw_le : s.blk.rawCnt ≤ s.par.maxFrameBytes
  /-- The canonical form of `plb`. -/
  plb_wf : s.blk.plb.wf = true
  /-- `plb` is an array of PLB_DEPTH bytes (R29). -/
  plb_index : ∀ c ∈ s.blk.plb, c.1 < s.par.plbDepth
  /-- Every index below `dec_len` holds a byte DEC wrote (R28). -/
  plb_written : ∀ k, k < s.blk.decLen → (s.blk.plb.read? k).isSome = true

end Sys2Proof.Machine
end

