-- ==== Sys2Proof/Certificates/Slice0/Obligations.lean ====
section
/-! DEFINITION. The statements for the provers. Each docstring names the rule of spec/ it formalises. A statement about a
command gives the whole next state, so its frame (everything else unchanged, `plb` byte by byte among it) is part of it. -/

open Sys2Proof Sys2Proof.Machine

namespace Sys2Proof.Claims

/-- The state after an accepted command: the block is `b`, the port shows the host's next word, nothing else changes. -/
def accepted (s : State) (b : Block) : State :=
  { par := s.par, blk := b, env := { s.env with cmdPort := s.env.cmdPort.tail } }

/-- The state after a rejected command: CMD_ERR is set and the word has left the port. -/
def rejected (s : State) : State := accepted s { s.blk with cmdErr := true }

/-- The free bytes of the transmit queue, TXQ_DEPTH − |txq|. -/
def free (s : State) : Nat := s.par.txqDepth - s.blk.txq.length

/-- The state after an accepted command that pushed `L` and left the block otherwise as `b`. -/
def pushed (s : State) (L : List Byte) (b : Block) : State := accepted s { b with txq := s.blk.txq ++ L }

/-- TXQ_EMPTY reads 0 and TXQ_FULL is recomputed, for a queue of `n` bytes. -/
def queueStatus (t : State) (n : Nat) : Prop :=
  t.status.getLsbD 11 = false ∧ t.status.getLsbD 12 = decide (n = t.par.txqDepth)

/-- The working variables of R144's pseudocode. -/
structure DecVars where
  st : DecSt
  len : Nat
  cause : DecCause
  plb : Memory

/-- R144: `LATCH(c)`. -/
def DecVars.latch (v : DecVars) (c : DecCause) : DecVars := { v with cause := c, st := .bad, len := 0 }
/-- R144: `FAIL(c)`. -/
def DecVars.fail (v : DecVars) (c : DecCause) : DecVars := { v with cause := c, st := .doneFail, len := 0 }
/-- R144: `APPEND(x)`. -/
def DecVars.append (depth : Nat) (v : DecVars) (x : Byte) : DecVars :=
  if v.len = depth then v.latch .overflow else { v with plb := v.plb.write v.len x, len := v.len + 1 }
/-- R144: `if st ≠ BAD then st = BODY`. -/
def DecVars.toBody (v : DecVars) : DecVars := if v.st ≠ .bad then { v with st := .body } else v

/-- R144's pseudocode, line by line. -/
def decPseudo (depth : Nat) (x : Byte) (last : Bool) (b : Block) : DecVars :=
  let v : DecVars :=
    if b.decSt = .doneOk ∨ b.decSt = .doneFail then ⟨.idle, 0, .none, b.plb⟩
    else ⟨b.decSt, b.decLen, b.decCause, b.plb⟩
  match v.st with
  | .idle =>
    if last then v.fail .shortFrame else if x ≠ 0x7E#8 then v.latch .noOpenFlag else { v with st := .body }
  | .body =>
    if last then (if x = 0x7E#8 then { v with st := .doneOk } else v.fail .noCloseFlag)
    else if x = 0x7D#8 then { v with st := .esc } else v.append depth x
  | .esc =>
    if last then (if x ≠ 0x7E#8 then v.fail .noCloseFlag else v.fail .escAtEnd)
    else if x = 0x5E#8 then (v.append depth 0x7E#8).toBody
    else if x = 0x5D#8 then (v.append depth 0x7D#8).toBody
    else v.latch .badEscape
  | .bad => if last then { v with st := .doneFail } else v
  | .doneOk => v
  | .doneFail => v

/-- DEC holds the decode of the frame `f` (R152's three cases). -/
def holdsDecode (depth : Nat) (f : List Byte) (b : Block) : Prop :=
  (∀ out, frameDecode f = some out → out.length ≤ depth →
    b.decSt = .doneOk ∧ b.decCause = .none ∧ b.decLen = out.length ∧
      ∀ k, k < out.length → b.plb.read? k = out[k]?) ∧
  (∀ out, frameDecode f = some out → depth < out.length →
    b.decSt = .doneFail ∧ b.decCause = .overflow ∧ b.decLen = 0) ∧
  (frameDecode f = none → b.decSt = .doneFail ∧ b.decCause ≠ .none ∧ b.decLen = 0)

/-- The part of the block the receive side does not use. -/
def sameTransmitSide (b c : Block) : Prop :=
  b.acc = c.acc ∧ b.result = c.result ∧ b.encOpen = c.encOpen ∧ b.txq = c.txq ∧ b.cmdErr = c.cmdErr

/-- The part of the block DEC and RXD use. -/
def sameReceiveSide (b c : Block) : Prop :=
  b.decSt = c.decSt ∧ b.decCause = c.decCause ∧ b.decLen = c.decLen ∧ b.plb = c.plb ∧ b.rxSt = c.rxSt ∧
    b.flagCnt = c.flagCnt ∧ b.rawCnt = c.rawCnt

/-- R231's table: the command is rejected in this block. -/
def isRejected (i : Instr) (b : Block) : Prop :=
  match i with
  | .nop => False
  | .ckClear => False
  | .ckAdd _ => False
  | .ckRead => False
  | .encOpen => b.encOpen = true
  | .encByte _ => b.encOpen = false
  | .encByteAcc _ => b.encOpen = false
  | .encCksum => b.encOpen = false
  | .encClose => b.encOpen = false
  | .decClear => b.rxSt = .receiving
  | .decByte _ => b.rxSt = .receiving
  | .decLast _ => b.rxSt = .receiving
  | .plLen => False
  | .plRead k => b.decSt ≠ .doneOk ∨ b.decLen ≤ k.toNat
  | .rxArm => b.rxSt = .receiving

/-- RXD has just been armed (R171). -/
def justArmed (b : Block) : Prop :=
  b.rxSt = .receiving ∧ b.flagCnt = 0 ∧ b.rawCnt = 0 ∧ b.decSt = .idle ∧ b.decLen = 0 ∧ b.decCause = .none

/-- A turn that leaves the transmit side alone unless it is a command or a pop: no reset and no client. -/
def hostAndTransport (t : Turn) : Prop := t ≠ .reset ∧ t ≠ .client

/-- The client has taken its turn: `ts` remain, `port` is on the command port, and the client stands in `st`. -/
def clientAt (s : State) (ts : List Turn) (port : List Word) (st : ClientSt) : State :=
  { s with env.turns := ts, env.cmdPort := port, env.client.st := st }

/-- The client's call has returned `r` after `k` transmissions. -/
def clientBack (s : State) (ts : List Turn) (k : Nat) (r : Reply) : State :=
  { s with env.turns := ts, env.client.st := .idle,
           env.client.returned := s.env.client.returned ++ [{ writes := k, reply := r }] }

/-- The commands that write `acc` (R22). -/
def writesAcc : Instr → Bool
  | .nop => false
  | .ckClear => true
  | .ckAdd _ => true
  | .ckRead => false
  | .encOpen => false
  | .encByte _ => false
  | .encByteAcc _ => true
  | .encCksum => false
  | .encClose => false
  | .decClear => false
  | .decByte _ => false
  | .decLast _ => false
  | .plLen => false
  | .plRead _ => false
  | .rxArm => false

/-- The ENC commands. -/
def isEnc : Instr → Bool
  | .nop => false
  | .ckClear => false
  | .ckAdd _ => false
  | .ckRead => false
  | .encOpen => true
  | .encByte _ => true
  | .encByteAcc _ => true
  | .encCksum => true
  | .encClose => true
  | .decClear => false
  | .decByte _ => false
  | .decLast _ => false
  | .plLen => false
  | .plRead _ => false
  | .rxArm => false

/-- The attempt a call in progress is at, counted from 1 (R204). -/
def attemptOf : ClientSt → Option Nat
  | .idle => none
  | .sending _ k _ => some k
  | .awaiting _ k => some k
  | .lenAsked _ k => some k
  | .codeAsked _ k _ => some k
  | .reading _ k _ _ => some k

/-- The message and the attempt of a call that has sent its frame of this attempt whole: every state after Sending. -/
def frameSent : ClientSt → Option (List Byte × Nat)
  | .idle => none
  | .sending _ _ _ => none
  | .awaiting raw k => some (raw, k)
  | .lenAsked raw k => some (raw, k)
  | .codeAsked raw k _ => some (raw, k)
  | .reading raw k _ _ => some (raw, k)

/-- The bytes of `k` transmissions of the message `raw` (R205). -/
def transmissions (raw : List Byte) (k : Nat) : List Byte :=
  (List.replicate k (frameEncode (raw ++ [checksum raw]))).flatten

/-- The bytes the finished calls wrote: the first `returned` of the calls `cs`, in order. -/
def finishedFrames (cs : List (List Byte)) (returned : List Returned) : List Byte :=
  (cs.zip returned).flatMap fun c => transmissions c.1 c.2.writes

end Sys2Proof.Claims

open Sys2Proof.Claims

/-! ### Encoding -/

/-- Decode and encode agree on every well-formed command, with every operand (derived from 30_encoding.md R71, R75,
R82). -/
def Obligations.DecodeOfEncode : Prop := ∀ i : Instr, i.wf = true → decode (encode i) = .ok i

/-- Every word that decodes agrees with its command's assembled word on every bit the command reads: all 16 bits with an
operand, OP alone without one (R71, R73, R75). -/
def Obligations.DecodedWordReadWhole : Prop :=
  ∀ (w : Word) (i : Instr), decode w = .ok i →
    encode i = w &&& (if i.operand = none then 0xFF00#16 else 0xFFFF#16)

/-- R73: nine commands ignore CMD[7:0]. -/
def Obligations.NineCommandsIgnoreLowByte : Prop :=
  ∀ i ∈ ([.nop, .ckClear, .ckRead, .encOpen, .encCksum, .encClose, .decClear, .plLen, .rxArm] : List Instr),
    ∀ d : Byte, decode (i.opcode ++ d) = .ok i

/-- R76: the illegal OP values, and what an illegal word does when the host offers it. -/
def Obligations.IllegalWordOnlySetsCmdErr : Prop :=
  (∀ op d : Byte, decode (op ++ d) = .error (.illegalOpcode op) ↔
    (0x04 ≤ op.toNat ∧ op.toNat ≤ 0x0F) ∨ (0x15 ≤ op.toNat ∧ op.toNat ≤ 0x1F) ∨
      (0x25 ≤ op.toNat ∧ op.toNat ≤ 0x2F) ∨ 0x31 ≤ op.toNat) ∧
  (∀ w : Word, (∃ i, decode w = .ok i) ∨ decode w = .error (.illegalOpcode (opcodeField w))) ∧
  (∀ (s : State) (w : Word) (ws : List Word) (ts : List Turn), s.env.turns = .command :: ts →
    s.env.cmdPort = w :: ws → (∀ i, decode w ≠ .ok i) →
      s.cmdReady = true ∧
        step s = .next { s with blk.cmdErr := true, env.cmdPort := ws, env.turns := ts })

/-- Words written out from the bit patterns of R75. -/
def Obligations.WrittenWordsDecode : Prop :=
  decode 0b0000000000000000#16 = .ok .nop ∧ decode 0b0000001011111111#16 = .ok (.ckAdd 0xFF#8) ∧
  decode 0b0001001001111110#16 = .ok (.encByteAcc 0x7E#8) ∧ decode 0b0010000101011110#16 = .ok (.decByte 0x5E#8) ∧
  decode 0b0010010000000001#16 = .ok (.plRead 0x01#8) ∧ decode 0b0011000000000000#16 = .ok .rxArm

/-- A step runs the decoded command: with the host's turn next and a word of a command on the port, the step is `exec`
of that command in the state whose turn has been taken (00_scope.md R10; that turns are data is the model's, log 2). -/
def Obligations.StepRunsDecodedCommand : Prop :=
  ∀ (s : State) (w : Word) (ws : List Word) (ts : List Turn) (i : Instr), s.env.turns = .command :: ts →
    s.env.cmdPort = w :: ws → decode w = .ok i → step s = exec i { s with env.turns := ts }

/-! ### The checksum accumulator -/

/-- R102. -/
def Obligations.CkClearZeroesAcc : Prop :=
  ∀ (s : State) (i : Byte), decode (0x01#8 ++ i) = .ok .ckClear ∧ need .ckClear s.blk = 0 ∧
    exec .ckClear s = .next (accepted s { s.blk with acc := 0x00#8 }) ∧
    (accepted s { s.blk with acc := 0x00#8 }).status = s.status

/-- R103: the sum is that of the unsigned values, modulo 256. -/
def Obligations.CkAddSumsModulo256 : Prop :=
  ∀ (s : State) (d : Byte), decode (0x02#8 ++ d) = .ok (.ckAdd d) ∧ need (.ckAdd d) s.blk = 0 ∧
    ∃ a : Byte, a.toNat = (s.blk.acc.toNat + d.toNat) % 256 ∧
      exec (.ckAdd d) s = .next (accepted s { s.blk with acc := a }) ∧
      (accepted s { s.blk with acc := a }).status = s.status

/-- R104. -/
def Obligations.CkReadCopiesAcc : Prop :=
  ∀ (s : State) (i : Byte), decode (0x03#8 ++ i) = .ok .ckRead ∧ need .ckRead s.blk = 0 ∧
    exec .ckRead s = .next (accepted s { s.blk with result := s.blk.acc }) ∧
    (accepted s { s.blk with result := s.blk.acc }).status = s.status

/-- R101: the laws of the checksum, which the spec derives from R100. -/
def Obligations.ChecksumLaws : Prop :=
  (∀ A B : List Byte, A.Perm B → checksum A = checksum B) ∧
  (∀ A B : List Byte, (checksum (A ++ B)).toNat = ((checksum A).toNat + (checksum B).toNat) % 256) ∧
  (∀ b : Byte, checksum [b] = b) ∧
  (∀ L : List Byte, checksum (L.filter (· ≠ 0x00#8)) = checksum L) ∧
  checksum [0xFF#8, 0x01#8] = 0x00#8

/-- R105 (a law the spec derives): CK_SUM on the port, with a host turn for each of its commands, leaves the checksum in `acc` and `result`. -/
def Obligations.CkSumComputesChecksum : Prop :=
  ∀ (s : State) (L : List Byte) (ws : List Word) (ts : List Turn),
    s.env.cmdPort = assembleWords (ckSum L) ++ ws →
    s.env.turns = List.replicate (ckSum L).length .command ++ ts →
      run (ckSum L).length s =
        .next { s with blk.acc := checksum L, blk.result := checksum L, env.cmdPort := ws, env.turns := ts }

/-- R105, last sentence (a law the spec derives): any commands that do not write `acc` may stand between those of CK_SUM, and any events of the
transport between the commands; when the port has accepted all of them, `acc` and `result` hold the checksum. -/
def Obligations.CkSumInterleaved : Prop :=
  ∀ (n : Nat) (s t : State) (L : List Byte) (cs : List Instr), cs.filter writesAcc = .ckClear :: L.map .ckAdd →
    s.env.cmdPort = assembleWords (cs ++ [.ckRead]) → (∀ τ ∈ s.env.turns, hostAndTransport τ) →
    run n s = .next t → t.env.cmdPort = [] → t.blk.acc = checksum L ∧ t.blk.result = checksum L

/-- R22, R125: the only events that change `acc` are reset and the commands CK_CLEAR, CK_ADD and ENC_BYTE_ACC. R106's
words that no ENC command writes it are not followed on ENC_BYTE_ACC (log 19). -/
def Obligations.AccWriters : Prop :=
  ∀ s t : State, step s = .next t → t.blk.acc ≠ s.blk.acc →
    s.env.turns.head? = some .reset ∨
      (s.env.turns.head? = some .command ∧
        ∃ (w : Word) (ws : List Word) (i : Instr), s.env.cmdPort = w :: ws ∧ decode w = .ok i ∧ writesAcc i = true)

/-! ### The encoder -/

/-- R81, R122 (laws the spec derives): the stuffing map over all 256 byte values, and the laws of `encode`: its ends, its length, its interior,
and that it is injective but not onto the lists that begin and end with 0x7E. -/
def Obligations.EncodeLaws : Prop :=
  (stuff 0x7E#8 = [0x7D#8, 0x5E#8] ∧ stuff 0x7D#8 = [0x7D#8, 0x5D#8] ∧
    ∀ b : Byte, b ≠ 0x7E#8 → b ≠ 0x7D#8 → stuff b = [b]) ∧
  (∀ p, (frameEncode p).head? = some 0x7E#8 ∧ (frameEncode p).getLast? = some 0x7E#8) ∧
  (∀ p, (frameEncode p).length = p.length + 2 + p.count 0x7E#8 + p.count 0x7D#8 ∧
    (frameEncode p).length ≤ 2 * p.length + 2) ∧ (frameEncode []).length = 2 ∧
  (∀ p, ∃ m, frameEncode p = [0x7E#8] ++ m ++ [0x7E#8] ∧ 0x7E#8 ∉ m ∧
    ∀ k, m[k]? = some 0x7D#8 → m[k + 1]? = some 0x5E#8 ∨ m[k + 1]? = some 0x5D#8) ∧
  (∀ p q, frameEncode p = frameEncode q → p = q) ∧
  (∃ f : List Byte, f.head? = some 0x7E#8 ∧ f.getLast? = some 0x7E#8 ∧ ∀ p, frameEncode p ≠ f)

/-- R123. -/
def Obligations.EncOpenEmitsFlag : Prop :=
  ∀ (s : State) (i : Byte), decode (0x10#8 ++ i) = .ok .encOpen ∧
    (s.blk.encOpen = true → need .encOpen s.blk = 0 ∧ exec .encOpen s = .next (rejected s)) ∧
    (s.blk.encOpen = false → free s < 1 → exec .encOpen s = .next s) ∧
    (s.blk.encOpen = false → 1 ≤ free s → ∃ t, exec .encOpen s = .next t ∧
      t = pushed s [0x7E#8] { s.blk with encOpen := true } ∧
      t.status.getLsbD 0 = true ∧ queueStatus t (s.blk.txq.length + 1))

/-- R124. -/
def Obligations.EncByteEmitsStuffed : Prop :=
  ∀ (s : State) (d : Byte), decode (0x11#8 ++ d) = .ok (.encByte d) ∧
    (s.blk.encOpen = false → need (.encByte d) s.blk = 0 ∧ exec (.encByte d) s = .next (rejected s)) ∧
    (s.blk.encOpen = true → free s < (stuff d).length → exec (.encByte d) s = .next s) ∧
    (s.blk.encOpen = true → (stuff d).length ≤ free s → ∃ t, exec (.encByte d) s = .next t ∧
      t = pushed s (stuff d) s.blk ∧ queueStatus t (s.blk.txq.length + (stuff d).length))

/-- R125: as ENC_BYTE, and the unstuffed byte is added to `acc` in the accepting event. -/
def Obligations.EncByteAccEmitsAndSums : Prop :=
  ∀ (s : State) (d : Byte), decode (0x12#8 ++ d) = .ok (.encByteAcc d) ∧
    (s.blk.encOpen = false → need (.encByteAcc d) s.blk = 0 ∧ exec (.encByteAcc d) s = .next (rejected s)) ∧
    (s.blk.encOpen = true → free s < (stuff d).length → exec (.encByteAcc d) s = .next s) ∧
    (s.blk.encOpen = true → (stuff d).length ≤ free s → ∃ (t : State) (a : Byte),
      a.toNat = (s.blk.acc.toNat + d.toNat) % 256 ∧ exec (.encByteAcc d) s = .next t ∧
      t = pushed s (stuff d) { s.blk with acc := a } ∧ queueStatus t (s.blk.txq.length + (stuff d).length))

/-- R126: the accumulator is emitted stuffed, and keeps its value. -/
def Obligations.EncCksumEmitsAcc : Prop :=
  ∀ (s : State) (i : Byte), decode (0x13#8 ++ i) = .ok .encCksum ∧
    (s.blk.encOpen = false → need .encCksum s.blk = 0 ∧ exec .encCksum s = .next (rejected s)) ∧
    (s.blk.encOpen = true → free s < (stuff s.blk.acc).length → exec .encCksum s = .next s) ∧
    (s.blk.encOpen = true → (stuff s.blk.acc).length ≤ free s → ∃ t, exec .encCksum s = .next t ∧
      t = pushed s (stuff s.blk.acc) s.blk ∧ queueStatus t (s.blk.txq.length + (stuff s.blk.acc).length))

/-- R127. -/
def Obligations.EncCloseEmitsFlag : Prop :=
  ∀ (s : State) (i : Byte), decode (0x14#8 ++ i) = .ok .encClose ∧
    (s.blk.encOpen = false → need .encClose s.blk = 0 ∧ exec .encClose s = .next (rejected s)) ∧
    (s.blk.encOpen = true → free s < 1 → exec .encClose s = .next s) ∧
    (s.blk.encOpen = true → 1 ≤ free s → ∃ t, exec .encClose s = .next t ∧
      t = pushed s [0x7E#8] { s.blk with encOpen := false } ∧
      t.status.getLsbD 0 = false ∧ queueStatus t (s.blk.txq.length + 1))

/-- R129 (a law the spec derives) with room for the frame: ENC_FRAME runs through and leaves exactly `encode(p)` behind what was queued. -/
def Obligations.EncFrameRuns : Prop :=
  ∀ (s : State) (p : List Byte) (ws : List Word) (ts : List Turn), s.blk.encOpen = false →
    s.blk.txq.length + (frameEncode p).length ≤ s.par.txqDepth →
    s.env.cmdPort = assembleWords (encFrame p) ++ ws →
    s.env.turns = List.replicate (encFrame p).length .command ++ ts →
      run (encFrame p).length s =
        .next { s with blk.txq := s.blk.txq ++ frameEncode p, env.cmdPort := ws, env.turns := ts }

/-- R129 (a law the spec derives) under every interleaving of the transport's events, holds included: when the port has accepted ENC_FRAME, the
transport's bytes and the queue together are what they were followed by exactly `encode(p)`. -/
def Obligations.EncFrameStreamsEncode : Prop :=
  ∀ (n : Nat) (s t : State) (p : List Byte), s.blk.encOpen = false →
    s.env.cmdPort = assembleWords (encFrame p) → (∀ τ ∈ s.env.turns, hostAndTransport τ) →
    run n s = .next t → t.env.cmdPort = [] →
      t.env.txOut ++ t.blk.txq = s.env.txOut ++ s.blk.txq ++ frameEncode p ∧ t.blk.encOpen = false ∧
        t.blk.acc = s.blk.acc ∧ t.blk.cmdErr = s.blk.cmdErr

/-- R130 (a law the spec derives) under every interleaving of the transport's events: SEND_MSG pushes exactly `encode(r ++ [checksum(r)])` and
leaves `acc = checksum(r)`. -/
def Obligations.SendMsgStreamsMessage : Prop :=
  ∀ (n : Nat) (s t : State) (r : List Byte), s.blk.encOpen = false →
    s.env.cmdPort = assembleWords (sendMsg r) → (∀ τ ∈ s.env.turns, hostAndTransport τ) →
    run n s = .next t → t.env.cmdPort = [] →
      t.env.txOut ++ t.blk.txq = s.env.txOut ++ s.blk.txq ++ frameEncode (r ++ [checksum r]) ∧
        t.blk.encOpen = false ∧ t.blk.acc = checksum r ∧ t.blk.cmdErr = s.blk.cmdErr

/-- R131 (a law the spec derives): an ENC command leaves the receive side alone, an RX event leaves the transmit side alone, and the two sides
commute. -/
def Obligations.EncCommutesWithReceive : Prop :=
  ∀ (s : State) (i : Instr), isEnc i = true → ∃ t, exec i s = .next t ∧ sameReceiveSide t.blk s.blk ∧
    sameTransmitSide (rxByteEvent s).blk s.blk ∧ sameTransmitSide (rxTimeoutEvent s).blk s.blk ∧
    exec i (rxByteEvent s) = .next (rxByteEvent t) ∧ exec i (rxTimeoutEvent s) = .next (rxTimeoutEvent t)

/-! ### The command port -/

/-- R128, R268: the port accepts a command iff its need fits; a held command changes nothing, an accepted one leaves the
port. -/
def Obligations.HoldRule : Prop :=
  ∀ (s : State) (i : Instr),
    (need i s.blk ≤ free s → ∃ t, exec i s = .next t ∧ t.env.cmdPort = s.env.cmdPort.tail ∧ t.par = s.par ∧
      t.env.txOut = s.env.txOut ∧ t.env.rxIn = s.env.rxIn ∧ t.env.turns = s.env.turns ∧
      t.env.client = s.env.client ∧ ∃ L, t.blk.txq = s.blk.txq ++ L ∧ L.length = need i s.blk) ∧
    (free s < need i s.blk → exec i s = .next s) ∧
    (∀ (w : Word) (ws : List Word), s.env.cmdPort = w :: ws → decode w = .ok i →
      (s.cmdReady = true ↔ need i s.blk ≤ free s))

/-- R268: only a TX pop can lift a hold, or a reset, after which the word is judged afresh (R263; log 5). -/
def Obligations.OnlyPopLiftsHold : Prop :=
  ∀ s t : State, s.cmdReady = false → step s = .next t → t.cmdReady = true →
    s.env.turns.head? = some .txPop ∨ s.env.turns.head? = some .reset

/-- R128: no command needs more than two bytes, so every command can be accepted once the transport has popped enough:
with two bytes free, and after as many pops as bytes are queued, which hand over the queue in order and change nothing
else. R268's last sentence, that one pop always is enough, is not followed (log 11); turns are the model's (log 2). -/
def Obligations.PopsLiftEveryHold : Prop :=
  ∀ s : State, s.par.wf = true →
    (∀ i : Instr, need i s.blk ≤ 2 ∧ (s.blk.txq.length + 2 ≤ s.par.txqDepth → s.accepts i = true)) ∧
    (∀ (k : Nat) (ts : List Turn), k ≤ s.blk.txq.length → s.env.turns = List.replicate k .txPop ++ ts →
      ∃ t, run k s = .next t ∧
        t = { s with blk.txq := s.blk.txq.drop k, env.txOut := s.env.txOut ++ s.blk.txq.take k, env.turns := ts } ∧
        (s.blk.txq.length ≤ s.par.txqDepth → 2 ≤ k → t.cmdReady = true ∧ ∀ i, t.accepts i = true) ∧
        (k = s.blk.txq.length → t.cmdReady = true ∧ ∀ i, t.accepts i = true))

/-- R231: CMD_ERR is raised exactly in the cases of its table. A rejected command leaves the port, sets CMD_ERR and, but
for PL_READ's `result`, changes nothing; a command that is not rejected leaves CMD_ERR as it was; an illegal word is
rejected; and no other event raises CMD_ERR. -/
def Obligations.RejectedExactlyByTable : Prop :=
  (∀ (s : State) (i : Instr), ∃ t, exec i s = .next t ∧
    (¬ isRejected i s.blk → t.blk.cmdErr = s.blk.cmdErr) ∧
    (isRejected i s.blk → need i s.blk = 0) ∧
    (isRejected i s.blk → (∀ k, i ≠ .plRead k) → t = rejected s) ∧
    (isRejected i s.blk → ∀ k, i = .plRead k →
      t = accepted s { s.blk with cmdErr := true, result := 0x00#8 })) ∧
  (∀ (s : State) (w : Word) (ws : List Word), s.env.cmdPort = w :: ws → (∀ i, decode w ≠ .ok i) →
    commandEvent s = .next (rejected s)) ∧
  (∀ s t : State, step s = .next t → s.blk.cmdErr = false → t.blk.cmdErr = true →
    s.env.turns.head? = some .command ∧ ∃ (w : Word) (ws : List Word), s.env.cmdPort = w :: ws ∧
      ∀ i, decode w = .ok i → isRejected i s.blk)

/-- R33: CMD_ERR is sticky, only reset clears it. -/
def Obligations.CmdErrSticky : Prop :=
  ∀ s t : State, step s = .next t → s.blk.cmdErr = true → t.blk.cmdErr = false →
    s.env.turns.head? = some .reset

/-! ### The decoder -/

/-- R144: the decoder step is the pseudocode, for a payload that fits the buffer (an invariant, R40 item 3). -/
def Obligations.DecStepIsPseudocode : Prop :=
  ∀ (depth : Nat) (x : Byte) (last : Bool) (b : Block), b.decLen ≤ depth →
    decStep depth x last b =
      { b with decSt := (decPseudo depth x last b).st, decLen := (decPseudo depth x last b).len,
               decCause := (decPseudo depth x last b).cause, plb := (decPseudo depth x last b).plb }

/-- R149. -/
def Obligations.DecClearRestarts : Prop :=
  ∀ (s : State) (i : Byte), decode (0x20#8 ++ i) = .ok .decClear ∧ need .decClear s.blk = 0 ∧
    (s.blk.rxSt = .receiving → exec .decClear s = .next (rejected s)) ∧
    (s.blk.rxSt ≠ .receiving → ∃ t, exec .decClear s = .next t ∧
      t = accepted s { s.blk with decSt := .idle, decLen := 0, decCause := .none } ∧
      statusDecSt t.status = 0 ∧ statusDecCause t.status = 0)

/-- R150, R146: DEC_BYTE is one decoder step with `last` = 0, its corner cases, and APPEND at the bound PLB_DEPTH. -/
def Obligations.DecByteSteps : Prop :=
  ∀ (s : State) (d : Byte), decode (0x21#8 ++ d) = .ok (.decByte d) ∧ need (.decByte d) s.blk = 0 ∧
    (s.blk.rxSt = .receiving → exec (.decByte d) s = .next (rejected s)) ∧
    (s.blk.rxSt ≠ .receiving → ∃ b, exec (.decByte d) s = .next (accepted s b) ∧
      b = decStep s.par.plbDepth d false s.blk ∧
      (s.blk.decSt = .idle → d = 0x7E#8 → b = { s.blk with decSt := .body }) ∧
      (s.blk.decSt = .doneOk ∨ s.blk.decSt = .doneFail → d = 0x7E#8 →
        b = { s.blk with decSt := .body, decLen := 0, decCause := .none }) ∧
      (s.blk.decSt = .idle ∨ s.blk.decSt = .doneOk ∨ s.blk.decSt = .doneFail → d ≠ 0x7E#8 →
        b = { s.blk with decSt := .bad, decCause := .noOpenFlag, decLen := 0 }) ∧
      (s.blk.decSt = .body → d = 0x7D#8 → b = { s.blk with decSt := .esc }) ∧
      (s.blk.decSt = .body → d ≠ 0x7D#8 → s.blk.decLen < s.par.plbDepth →
        b = { s.blk with plb := s.blk.plb.write s.blk.decLen d, decLen := s.blk.decLen + 1 } ∧
        b.plbByte s.blk.decLen = d) ∧
      (s.blk.decSt = .esc → d = 0x5E#8 → s.blk.decLen < s.par.plbDepth →
        b = { s.blk with decSt := .body, plb := s.blk.plb.write s.blk.decLen 0x7E#8, decLen := s.blk.decLen + 1 } ∧
        b.plbByte s.blk.decLen = 0x7E#8) ∧
      (s.blk.decSt = .esc → d = 0x5D#8 → s.blk.decLen < s.par.plbDepth →
        b = { s.blk with decSt := .body, plb := s.blk.plb.write s.blk.decLen 0x7D#8, decLen := s.blk.decLen + 1 } ∧
        b.plbByte s.blk.decLen = 0x7D#8) ∧
      (s.blk.decSt = .body ∧ d ≠ 0x7D#8 ∨ s.blk.decSt = .esc ∧ (d = 0x5E#8 ∨ d = 0x5D#8) →
        s.blk.decLen = s.par.plbDepth → b = { s.blk with decSt := .bad, decCause := .overflow, decLen := 0 }) ∧
      (s.blk.decSt = .esc → d ≠ 0x5E#8 → d ≠ 0x5D#8 →
        b = { s.blk with decSt := .bad, decCause := .badEscape, decLen := 0 }) ∧
      (s.blk.decSt = .bad → b = s.blk))

/-- R151: DEC_LAST finishes the frame from every state of DEC. -/
def Obligations.DecLastFinishes : Prop :=
  ∀ (s : State) (d : Byte), decode (0x22#8 ++ d) = .ok (.decLast d) ∧ need (.decLast d) s.blk = 0 ∧
    (s.blk.rxSt = .receiving → exec (.decLast d) s = .next (rejected s)) ∧
    (s.blk.rxSt ≠ .receiving → ∃ b, exec (.decLast d) s = .next (accepted s b) ∧
      b = decStep s.par.plbDepth d true s.blk ∧ (b.decSt = .doneOk ∨ b.decSt = .doneFail) ∧
      (s.blk.decSt = .body → d = 0x7E#8 → b = { s.blk with decSt := .doneOk }) ∧
      (s.blk.decSt = .body ∧ d ≠ 0x7E#8 ∨ s.blk.decSt = .esc ∧ d ≠ 0x7E#8 →
        b = { s.blk with decSt := .doneFail, decCause := .noCloseFlag, decLen := 0 }) ∧
      (s.blk.decSt = .esc → d = 0x7E#8 →
        b = { s.blk with decSt := .doneFail, decCause := .escAtEnd, decLen := 0 }) ∧
      (s.blk.decSt = .idle ∨ s.blk.decSt = .doneOk ∨ s.blk.decSt = .doneFail →
        b = { s.blk with decSt := .doneFail, decCause := .shortFrame, decLen := 0 }) ∧
      (s.blk.decSt = .bad → b = { s.blk with decSt := .doneFail }))

/-- The frame of a decoder step, from a host command or an RX byte: the transmit side, and every byte of `plb` but the
one at `dec_len`, which changes only when the step is not the frame's last (20_memory.md R54, R144). -/
def Obligations.DecStepFrame : Prop :=
  ∀ (depth : Nat) (x : Byte) (last : Bool) (b : Block),
    sameTransmitSide (decStep depth x last b) b ∧ (decStep depth x last b).rxSt = b.rxSt ∧
    (decStep depth x last b).flagCnt = b.flagCnt ∧ (decStep depth x last b).rawCnt = b.rawCnt ∧
    (∀ k, k ≠ b.decLen → (decStep depth x last b).plbByte k = b.plbByte k) ∧
    (last = true → (decStep depth x last b).plb = b.plb)

/-- R152 (a law the spec derives): streaming equals decode. DEC_FRAME f on the port, with a host turn for each command,
ends with DEC holding the decode of f, with no command rejected and everything but DEC's own fields, the port and the
turns as it was. -/
def Obligations.DecFrameEqualsDecode : Prop :=
  ∀ (s : State) (f : List Byte) (ws : List Word) (ts : List Turn), f ≠ [] → s.blk.rxSt ≠ .receiving →
    s.env.cmdPort = assembleWords (decFrame f) ++ ws →
    s.env.turns = List.replicate (decFrame f).length .command ++ ts →
      ∃ t, run (decFrame f).length s = .next t ∧ holdsDecode s.par.plbDepth f t.blk ∧
        sameTransmitSide t.blk s.blk ∧ t.blk.rxSt = s.blk.rxSt ∧ t.blk.flagCnt = s.blk.flagCnt ∧
        t.blk.rawCnt = s.blk.rawCnt ∧ t.par = s.par ∧ t.env = { s.env with cmdPort := ws, turns := ts }

/-- R153 (a law the spec derives): the round trip, for every payload, of the functions and of the block. -/
def Obligations.RoundTripThroughDec : Prop :=
  (∀ p : List Byte, frameDecode (frameEncode p) = some p) ∧
  (∀ (s : State) (p : List Byte) (ws : List Word) (ts : List Turn), s.blk.rxSt ≠ .receiving →
    p.length ≤ s.par.plbDepth → s.env.cmdPort = assembleWords (decFrame (frameEncode p)) ++ ws →
    s.env.turns = List.replicate (decFrame (frameEncode p)).length .command ++ ts →
      ∃ t, run (decFrame (frameEncode p)).length s = .next t ∧ t.blk.decSt = .doneOk ∧
        t.blk.decLen = p.length ∧ ∀ k, k < p.length → t.blk.plb.read? k = p[k]?)

/-- R154 (derived from R140): an interior without 0x7D is its own payload, 0x7E among it, so decode is not injective. -/
def Obligations.DecodeIsLenient : Prop :=
  (∀ m : List Byte, 0x7D#8 ∉ m → frameDecode ([0x7E#8] ++ m ++ [0x7E#8]) = some m) ∧
  frameDecode [0x7E#8, 0x41#8, 0x7E#8, 0x42#8, 0x7E#8] = some [0x41#8, 0x7E#8, 0x42#8] ∧
  frameDecode [0x7E#8, 0x7E#8, 0x7E#8] = some [0x7E#8] ∧
  frameDecode [0x7E#8, 0x7D#8, 0x5E#8, 0x7E#8] = some [0x7E#8]

/-! ### The receive frame delimiter -/

/-- R171. -/
def Obligations.RxArmStartsReceive : Prop :=
  ∀ (s : State) (i : Byte), decode (0x30#8 ++ i) = .ok .rxArm ∧ need .rxArm s.blk = 0 ∧
    (s.blk.rxSt = .receiving → exec .rxArm s = .next (rejected s)) ∧
    (s.blk.rxSt ≠ .receiving → ∃ t, exec .rxArm s = .next t ∧
      t = accepted s { s.blk with rxSt := .receiving, flagCnt := 0, rawCnt := 0, decSt := .idle, decLen := 0,
                                  decCause := .none } ∧
      statusRxSt t.status = 1 ∧ statusDecSt t.status = 0 ∧ statusDecCause t.status = 0 ∧ t.rxReady = true)

/-- R172, R173, R174, R176: unarmed, RXD takes no byte and the transport keeps it; an RX byte while armed is counted; the second FLAG ends the frame and beats the length bound; the
byte that reaches the bound is consumed and DEC does not see it; any other byte is one decoder step. -/
def Obligations.RxByteCountsAndEnds : Prop :=
  (∀ (s : State) (ts : List Turn), s.blk.rxSt ≠ .receiving → s.env.turns = .rxByte :: ts →
    s.rxReady = false ∧ step s = .next { s with env.turns := ts }) ∧
  ∀ (s : State) (x : Byte) (rest : List Byte) (ts : List Turn), s.blk.rxSt = .receiving →
    s.env.rxIn = x :: rest → s.env.turns = .rxByte :: ts → ∃ b,
      step s = .next { s with blk := b, env.rxIn := rest, env.turns := ts } ∧
      b.rawCnt = s.blk.rawCnt + 1 ∧ b.flagCnt = s.blk.flagCnt + (if x = 0x7E#8 then 1 else 0) ∧
      (b.flagCnt = 2 → b.rxSt = .done ∧ (b.decSt = .doneOk ∨ b.decSt = .doneFail) ∧
        b = { decStep s.par.plbDepth x true s.blk with rxSt := .done, rawCnt := b.rawCnt, flagCnt := b.flagCnt }) ∧
      (b.flagCnt ≠ 2 → b.rawCnt = s.par.maxFrameBytes →
        b = { s.blk with rxSt := .overflow, decSt := .idle, decLen := 0, decCause := .none, rawCnt := b.rawCnt,
                         flagCnt := b.flagCnt }) ∧
      (b.flagCnt ≠ 2 → b.rawCnt ≠ s.par.maxFrameBytes →
        b = { decStep s.par.plbDepth x false s.blk with rawCnt := b.rawCnt, flagCnt := b.flagCnt })

/-- R175: an RX timeout ends a receive, and is ignored in any other state. -/
def Obligations.RxTimeoutAborts : Prop :=
  ∀ (s : State) (ts : List Turn), s.env.turns = .rxTimeout :: ts →
    (s.blk.rxSt = .receiving → ∃ t, step s = .next t ∧
      t = { s with blk.rxSt := .timeout, blk.decSt := .idle, blk.decLen := 0, blk.decCause := .none,
                   env.turns := ts } ∧
      statusRxSt t.status = 3 ∧ statusDecSt t.status = 0 ∧ statusDecCause t.status = 0) ∧
    (s.blk.rxSt ≠ .receiving → step s = .next { s with env.turns := ts })

/-- While RXD is receiving it owns DEC (92_eei_decisions.md D30): no command, pop or client turn changes what DEC and RXD
hold, and none ends the receive. -/
def Obligations.RxdOwnsDecoder : Prop :=
  ∀ (s t : State) (τ : Turn) (ts : List Turn), s.blk.rxSt = .receiving → s.env.turns = τ :: ts →
    (τ = .command ∨ τ = .txPop ∨ τ = .client) → step s = .next t →
      sameReceiveSide t.blk s.blk ∧ t.env.rxIn = s.env.rxIn

/-- R178 (a law the spec derives), first case: after RX_ARM, the bytes of the frame `read_frame` returns leave DEC as decode of that frame, the
bytes after it stay in the transport, and the frame has its flags where R178 says. -/
def Obligations.ReceiveEqualsDecode : Prop :=
  ∀ (s : State) (f rest : List Byte) (ts : List Turn), justArmed s.blk → readFrame s.env.rxIn = some (f, rest) →
    f.length ≤ s.par.maxFrameBytes → s.env.turns = List.replicate f.length .rxByte ++ ts →
      s.env.rxIn = f ++ rest ∧ 2 ≤ f.length ∧ f.count 0x7E#8 = 2 ∧ f.getLast? = some 0x7E#8 ∧
      ∃ t, run f.length s = .next t ∧ t.blk.rxSt = .done ∧ holdsDecode s.par.plbDepth f t.blk ∧
        t.blk.decCause ≠ .shortFrame ∧ t.par = s.par ∧
        sameTransmitSide t.blk s.blk ∧ t.env = { s.env with rxIn := rest, turns := ts }

/-- R178 (a law the spec derives), the other two cases: MAX_FRAME_BYTES bytes without a second FLAG end in OVERFLOW; a timeout that comes before
the second FLAG ends in TIMEOUT. DEC is then reset, and the bytes not taken stay in the transport. -/
def Obligations.ReceiveAborts : Prop :=
  ∀ (s : State) (cs rest : List Byte) (ts : List Turn), justArmed s.blk → s.env.rxIn = cs ++ rest →
    cs.count 0x7E#8 ≤ 1 →
    (cs.length = s.par.maxFrameBytes → 1 ≤ s.par.maxFrameBytes →
      s.env.turns = List.replicate cs.length .rxByte ++ ts →
      ∃ t, run cs.length s = .next t ∧ t.blk.rxSt = .overflow ∧ t.blk.decSt = .idle ∧ t.blk.decLen = 0 ∧
        t.blk.decCause = .none ∧ t.env = { s.env with rxIn := rest, turns := ts }) ∧
    (cs.length < s.par.maxFrameBytes → s.env.turns = List.replicate cs.length .rxByte ++ [.rxTimeout] ++ ts →
      ∃ t, run (cs.length + 1) s = .next t ∧ t.blk.rxSt = .timeout ∧ t.blk.decSt = .idle ∧ t.blk.decLen = 0 ∧
        t.blk.decCause = .none ∧ t.env = { s.env with rxIn := rest, turns := ts })

/-! ### NOP, payload read-out, ports -/

/-- R190. -/
def Obligations.NopChangesNothing : Prop :=
  ∀ (s : State) (i : Byte), decode (0x00#8 ++ i) = .ok .nop ∧ need .nop s.blk = 0 ∧
    exec .nop s = .next (accepted s s.blk) ∧ (accepted s s.blk).status = s.status

/-- R191: PL_LEN copies the payload length, which PLB_DEPTH ≤ 255 (R8) makes fit. -/
def Obligations.PlLenCopiesLength : Prop :=
  ∀ (s : State) (i : Byte), decode (0x23#8 ++ i) = .ok .plLen ∧ need .plLen s.blk = 0 ∧
    ∃ v : Byte, exec .plLen s = .next (accepted s { s.blk with result := v }) ∧
      (accepted s { s.blk with result := v }).status = s.status ∧
      (s.par.wf = true → s.blk.decLen ≤ s.par.plbDepth → v.toNat = s.blk.decLen) ∧
      (Inv s → s.blk.decSt = .idle ∨ s.blk.decSt = .bad ∨ s.blk.decSt = .doneFail → v = 0x00#8)

/-- R192: PL_READ reads a byte of a finished payload; anywhere else it is rejected with 0x00 in `result`. -/
def Obligations.PlReadReadsPayload : Prop :=
  ∀ (s : State) (k : Byte), decode (0x24#8 ++ k) = .ok (.plRead k) ∧ need (.plRead k) s.blk = 0 ∧
    (s.blk.decSt = .doneOk → k.toNat < s.blk.decLen → ∀ v, s.blk.plb.read? k.toNat = some v →
      exec (.plRead k) s = .next (accepted s { s.blk with result := v })) ∧
    (s.blk.decSt = .doneOk → k.toNat < s.blk.decLen →
      exec (.plRead k) s = .next (accepted s { s.blk with result := s.blk.plbByte k.toNat })) ∧
    (s.blk.decSt ≠ .doneOk ∨ s.blk.decLen ≤ k.toNat →
      exec (.plRead k) s = .next (accepted s { s.blk with result := 0x00#8, cmdErr := true }))

/-- In every state of the invariant a payload byte PL_READ returns is one DEC wrote: no unspecified byte of `plb` is ever
read (R29; 93 U3). -/
def Obligations.PlReadNeverUnspecified : Prop :=
  ∀ (s : State) (k : Byte), Inv s → s.blk.decSt = .doneOk → k.toNat < s.blk.decLen →
    ∃ v, s.blk.plb.read? k.toNat = some v ∧ exec (.plRead k) s = .next (accepted s { s.blk with result := v })

/-- R23: only CK_READ, PL_LEN, PL_READ and reset write `result`. -/
def Obligations.ResultWriters : Prop :=
  ∀ s t : State, step s = .next t → t.blk.result ≠ s.blk.result →
    s.env.turns.head? = some .reset ∨
      (s.env.turns.head? = some .command ∧ ∃ (w : Word) (ws : List Word) (i : Instr), s.env.cmdPort = w :: ws ∧
        decode w = .ok i ∧ (i = .ckRead ∨ i = .plLen ∨ ∃ k, i = .plRead k))

/-- R195: a TX pop hands the head byte to the transport, and TXQ_EMPTY and TXQ_FULL are recomputed; with an empty queue
it is not enabled. -/
def Obligations.TxPopTakesHead : Prop :=
  ∀ (s : State) (ts : List Turn), s.env.turns = .txPop :: ts →
    (∀ x q, s.blk.txq = x :: q → s.txValid = true ∧ s.txd = some x ∧ ∃ t, step s = .next t ∧
      t = { s with blk.txq := q, env.txOut := s.env.txOut ++ [x], env.turns := ts } ∧
      t.status.getLsbD 11 = decide (q.length = 0) ∧ t.status.getLsbD 12 = decide (q.length = s.par.txqDepth)) ∧
    (s.blk.txq = [] → s.txValid = false ∧ step s = .next { s with env.turns := ts })

/-- R53, R63: the block never drops, changes or reorders a byte it has queued: without a reset, what the transport has
taken followed by what is queued only grows at its end, and only by a command's output. -/
def Obligations.TxStreamOnlyGrows : Prop :=
  ∀ s t : State, step s = .next t → s.env.turns.head? ≠ some .reset →
    ∃ L, t.env.txOut ++ t.blk.txq = s.env.txOut ++ s.blk.txq ++ L ∧
      (L ≠ [] → s.env.turns.head? = some .command ∧ ∃ (w : Word) (ws : List Word) (i : Instr),
        s.env.cmdPort = w :: ws ∧ decode w = .ok i ∧ isEnc i = true)

/-- R35, R36: the STATUS word is the pseudocode's union of shifted fields, its reserved bits read 0, and the fields read
back are the codes of the state, which are never 6 or 7 (DEC_ST), 7 (DEC_CAUSE) or 5 to 7 (RX_ST). -/
def Obligations.StatusWordLayout : Prop :=
  ∀ s : State,
    s.status = (BitVec.ofBool s.blk.encOpen).setWidth 16 ||| s.blk.decSt.code.setWidth 16 <<< 1 |||
      s.blk.decCause.code.setWidth 16 <<< 4 ||| s.blk.rxSt.code.setWidth 16 <<< 7 |||
      (BitVec.ofBool s.blk.cmdErr).setWidth 16 <<< 10 |||
      (BitVec.ofBool (decide (s.blk.txq.length = 0))).setWidth 16 <<< 11 |||
      (BitVec.ofBool (decide (s.blk.txq.length = s.par.txqDepth))).setWidth 16 <<< 12 ∧
    s.status.extractLsb' 13 3 = 0 ∧ statusDecSt s.status = s.blk.decSt.code ∧
    statusDecCause s.status = s.blk.decCause.code ∧ statusRxSt s.status = s.blk.rxSt.code ∧
    (statusDecSt s.status).toNat ≤ 5 ∧ (statusDecCause s.status).toNat ≤ 6 ∧ (statusRxSt s.status).toNat ≤ 4 ∧
    State.reset.status = 0x0800#16

/-! ### Reset and the whole machine -/

/-- R260: reset sets every field of the block to its reset value and STATUS to 0x0800; the first state is such a state.
R261 to R263: the words the host offers, the bytes the transport has taken and those it holds stay. That the client's place
in its call stays too is the model's reading (log 8). -/
def Obligations.ResetEventResetsBlock : Prop :=
  (∀ (s : State) (ts : List Turn), s.env.turns = .reset :: ts → 1 ≤ s.par.txqDepth → ∃ t, step s = .next t ∧
    t.par = s.par ∧ t.env = { s.env with turns := ts } ∧ t.status = 0x0800#16 ∧
    t.blk.acc = 0x00#8 ∧ t.blk.result = 0x00#8 ∧ t.blk.encOpen = false ∧ t.blk.txq = [] ∧ t.blk.decSt = .idle ∧
    t.blk.decCause = .none ∧ t.blk.decLen = 0 ∧ t.blk.rxSt = .idle ∧ t.blk.flagCnt = 0 ∧ t.blk.rawCnt = 0 ∧
    t.blk.cmdErr = false) ∧
  State.reset.blk = Block.reset ∧ State.reset.status = 0x0800#16

/-- The machine right after reset, with the model's parameters (log 1), meets the invariant of R40. -/
def Obligations.ResetMeetsInvariant : Prop := Inv State.reset

/-- R40 (invariants the spec derives), with the model's form of `plb` (log 4): every step keeps them. -/
def Obligations.StepKeepsInvariant : Prop := ∀ s t : State, Inv s → step s = .next t → Inv t

/-- R230: no condition stops the block. A step never faults, and the only refusal is the client's of an empty
RawMessage (R203); that the model has no fault at all is log 6. -/
def Obligations.NothingStopsTheBlock : Prop :=
  ∀ s : State, (∃ t, step s = .next t) ∨
    (step s = .refused .emptyRawMessage ∧ s.env.turns.head? = some .client ∧ s.env.client.calls.head? = some [])

/-- R266: a stuck state stays stuck and the block in it never changes. The agents that can still move are those in the
list of turns (log 2), a reset among them (log 26). -/
def Obligations.StuckStaysStuck : Prop :=
  ∀ s t : State, s.stuck = true → step s = .next t → t.stuck = true ∧ t.blk = s.blk ∧ t.par = s.par

/-! ### The reference client -/

/-- R200, R203 to R206: the client begins the oldest waiting call only when none is in progress, refuses an empty
RawMessage, places the words of SEND_MSG one by one and then RX_ARM, and waits while a word it placed is not accepted.
What one turn of the client does is the model's choice (log 12). -/
def Obligations.ClientSendsAndArms : Prop :=
  ∀ (s : State) (ts : List Turn), s.env.turns = .client :: ts →
    (s.env.cmdPort ≠ [] → step s = .next { s with env.turns := ts }) ∧
    (s.env.cmdPort = [] → s.env.client.st = .idle → s.env.client.calls = [] → step s = .next { s with env.turns := ts }) ∧
    (∀ calls, s.env.cmdPort = [] → s.env.client.st = .idle → s.env.client.calls = [] :: calls →
      step s = .refused .emptyRawMessage) ∧
    (∀ raw calls, s.env.cmdPort = [] → s.env.client.st = .idle → s.env.client.calls = raw :: calls → raw ≠ [] →
      1 ≤ s.par.maxAttempts →
        step s = .next (clientAt { s with env.client.calls := calls } ts []
          (.sending raw 1 (assembleWords (sendMsg raw))))) ∧
    (∀ raw k w ws, s.env.cmdPort = [] → s.env.client.st = .sending raw k (w :: ws) →
      step s = .next (clientAt s ts [w] (.sending raw k ws))) ∧
    (∀ raw k, s.env.cmdPort = [] → s.env.client.st = .sending raw k [] →
      step s = .next (clientAt s ts [0x3000#16] (.awaiting raw k)))

/-- R204, R207, R208, R210: the client's decision. TIMEOUT, OVERFLOW, DONE_FAIL, a payload of fewer than 2 bytes and
code 0x08 spend the attempt: the same RawMessage is sent again, or the budget is exhausted and the call returns Empty.
Any other code is final: the payload is read out byte by byte and returned whole. The turns are the model's (log 12), and
so is it that RX_ST = IDLE, which only a reset in the wait can cause, goes on to PL_LEN as DONE does (log 23). -/
def Obligations.ClientDecides : Prop :=
  ∀ (s : State) (raw : List Byte) (k : Nat) (ts : List Turn), s.env.turns = .client :: ts → s.env.cmdPort = [] →
    (s.env.client.st = .awaiting raw k → s.blk.rxSt = .receiving → step s = .next { s with env.turns := ts }) ∧
    (s.env.client.st = .awaiting raw k ∧ (s.blk.rxSt = .timeout ∨ s.blk.rxSt = .overflow ∨
          (s.blk.rxSt ≠ .receiving ∧ s.blk.decSt = .doneFail)) ∨
        s.env.client.st = .lenAsked raw k ∧ s.blk.result.toNat < 2 ∨
        (∃ len, s.env.client.st = .codeAsked raw k len) ∧ s.blk.result = 0x08#8 →
      (k < s.par.maxAttempts →
        step s = .next (clientAt s ts [] (.sending raw (k + 1) (assembleWords (sendMsg raw))))) ∧
      (s.par.maxAttempts ≤ k → step s = .next (clientBack s ts k .empty))) ∧
    (s.env.client.st = .awaiting raw k → (s.blk.rxSt = .done ∨ s.blk.rxSt = .idle) → s.blk.decSt ≠ .doneFail →
      step s = .next (clientAt s ts [0x2300#16] (.lenAsked raw k))) ∧
    (s.env.client.st = .lenAsked raw k → 2 ≤ s.blk.result.toNat →
      step s = .next (clientAt s ts [0x2401#16] (.codeAsked raw k s.blk.result.toNat))) ∧
    (∀ len, s.env.client.st = .codeAsked raw k len → s.blk.result ≠ 0x08#8 →
      step s = .next (clientAt s ts [0x2400#16] (.reading raw k len []))) ∧
    (∀ len got, s.env.client.st = .reading raw k len got → got.length + 1 < len →
      step s = .next (clientAt s ts [0x24#8 ++ BitVec.ofNat 8 (got.length + 1)]
        (.reading raw k len (got ++ [s.blk.result])))) ∧
    (∀ len got, s.env.client.st = .reading raw k len got → len ≤ got.length + 1 →
      step s = .next (clientBack s ts k (.response (got ++ [s.blk.result]))))

/-- R208: the budget counts transmissions. From a client with no call in progress, a call in progress is always at an
attempt from 1 to MAX_ATTEMPTS, and a call that has returned is recorded with 1 to MAX_ATTEMPTS writes, with exactly
MAX_ATTEMPTS when it returned Empty. The counter and the record are the model's (log 12); ClientWritesItsFrames says that
they count the frames on the stream. -/
def Obligations.ClientKeepsBudget : Prop :=
  ∀ (n : Nat) (s t : State), s.env.client.st = .idle → s.env.client.returned = [] → 1 ≤ s.par.maxAttempts →
    run n s = .next t →
      (∀ k, attemptOf t.env.client.st = some k → 1 ≤ k ∧ k ≤ s.par.maxAttempts) ∧
      ∀ r ∈ t.env.client.returned, 1 ≤ r.writes ∧ r.writes ≤ s.par.maxAttempts ∧
        (r.reply = .empty → r.writes = s.par.maxAttempts)

/-- R213: a correct client never raises CMD_ERR: with the port the client's alone, no frame open, no receive in progress
and no reset, no run sets CMD_ERR, and between calls no frame is open and no receive is in progress. -/
def Obligations.ClientNeverMisusesPort : Prop :=
  ∀ (n : Nat) (s t : State), Inv s → s.env.client.st = .idle → s.env.cmdPort = [] → s.blk.encOpen = false →
    s.blk.rxSt ≠ .receiving → s.blk.cmdErr = false → (∀ τ ∈ s.env.turns, τ ≠ .reset) → run n s = .next t →
      t.blk.cmdErr = false ∧
      (t.env.client.st = .idle → t.env.cmdPort = [] ∧ t.blk.encOpen = false ∧ t.blk.rxSt ≠ .receiving)

/-- R205, R211: the writes are frames on the stream. With the port the client's alone, no frame open and no reset, the
bytes handed to the transport followed by the queue are what they were followed by exactly, for each call that has
returned, its recorded number of whole frames of its message, in order; and, once a call in progress has sent the frame of
its attempt, by one frame for each of its attempts so far. The record and the turns are the model's (log 12). -/
def Obligations.ClientWritesItsFrames : Prop :=
  ∀ (n : Nat) (s t : State), s.env.client.st = .idle → s.env.client.returned = [] → s.env.cmdPort = [] →
    s.blk.encOpen = false → (∀ τ ∈ s.env.turns, τ ≠ .reset) → run n s = .next t →
      (t.env.client.st = .idle → t.env.txOut ++ t.blk.txq =
        s.env.txOut ++ s.blk.txq ++ finishedFrames s.env.client.calls t.env.client.returned) ∧
      (∀ raw k, frameSent t.env.client.st = some (raw, k) →
        s.env.client.calls[t.env.client.returned.length]? = some raw ∧
        t.env.txOut ++ t.blk.txq = s.env.txOut ++ s.blk.txq ++
          finishedFrames s.env.client.calls t.env.client.returned ++ transmissions raw k)
end

