-- ==== Sys2Proof/Laws/Memory.lean ====
section
/-! SUPPORT. The bytes of `plb`: a read after a write, and the canonical form every write keeps. -/

namespace Sys2Proof.Machine

/-- A read after a write to the same index gives the byte written. -/
@[simp] theorem Memory.read_write_same (m : Memory) (k : Nat) (v : Byte) : (m.write k v).read? k = some v := by
  induction m with
  | nil => simp [Memory.write, Memory.read?]
  | cons c rest ih =>
    obtain ⟨i, w⟩ := c
    simp only [Memory.write]
    split
    · simp [Memory.read?]
    · split
      · simp [Memory.read?]
      · rename_i h₁ h₂
        simp [Memory.read?, Ne.symm h₂, ih]

/-- A write leaves every other index alone. -/
theorem Memory.read_write_ne (m : Memory) {k j : Nat} (v : Byte) (h : j ≠ k) :
    (m.write k v).read? j = m.read? j := by
  induction m with
  | nil => simp [Memory.write, Memory.read?, Ne.symm h]
  | cons c rest ih =>
    obtain ⟨i, w⟩ := c
    simp only [Memory.write]
    split
    · simp [Memory.read?, Ne.symm h]
    · split
      · rename_i h₁ h₂
        subst h₂
        simp [Memory.read?, Ne.symm h]
      · simp [Memory.read?, ih]

/-- The cells of a write: the one written, and cells that were there. -/
theorem Memory.mem_write {m : Memory} {k : Nat} {v : Byte} {c : Host.Cell} (h : c ∈ m.write k v) :
    c = (k, v) ∨ c ∈ m := by
  induction m with
  | nil => simpa [Memory.write] using h
  | cons d rest ih =>
    obtain ⟨i, w⟩ := d
    simp only [Memory.write] at h
    split at h
    · simpa using h
    · split at h
      · rcases List.mem_cons.mp h with h | h
        · exact .inl h
        · exact .inr (List.mem_cons_of_mem _ h)
      · rcases List.mem_cons.mp h with h | h
        · exact .inr (h ▸ List.mem_cons_self ..)
        · rcases ih h with h | h
          · exact .inl h
          · exact .inr (List.mem_cons_of_mem _ h)

/-- The canonical form of a list with a head: the tail is canonical and its indices lie above the head's. -/
theorem Memory.wf_cons_iff (c : Host.Cell) (m : Memory) :
    Memory.wf (c :: m) = true ↔ m.wf = true ∧ ∀ d ∈ m, c.1 < d.1 := by
  induction m generalizing c with
  | nil => simp [Memory.wf]
  | cons d rest ih =>
    simp only [Memory.wf, Bool.and_eq_true, decide_eq_true_eq, List.mem_cons, forall_eq_or_imp]
    constructor
    · rintro ⟨h, hw⟩
      exact ⟨hw, h, fun e he => Nat.lt_trans h ((ih d).mp hw |>.2 e he)⟩
    · rintro ⟨hw, h, -⟩
      exact ⟨h, hw⟩

/-- Every write keeps the canonical form. -/
theorem Memory.wf_write (m : Memory) (k : Nat) (v : Byte) (h : m.wf = true) : (m.write k v).wf = true := by
  induction m with
  | nil => rfl
  | cons c rest ih =>
    obtain ⟨i, w⟩ := c
    have ⟨hr, hi⟩ := (Memory.wf_cons_iff _ _).mp h
    simp only [Memory.write]
    split
    · rename_i hk
      exact (Memory.wf_cons_iff _ _).mpr ⟨h, by
        intro d hd
        rcases List.mem_cons.mp hd with rfl | hd
        · exact hk
        · exact Nat.lt_trans hk (hi d hd)⟩
    · split
      · rename_i hk
        subst hk
        exact (Memory.wf_cons_iff _ _).mpr ⟨hr, hi⟩
      · rename_i h₁ h₂
        refine (Memory.wf_cons_iff _ _).mpr ⟨ih hr, fun d hd => ?_⟩
        rcases Memory.mem_write hd with rfl | hd
        · exact Nat.lt_of_le_of_ne (Nat.le_of_not_lt h₁) (Ne.symm h₂)
        · exact hi d hd

/-- The memory of the reset state is canonical. -/
theorem Memory.wf_nil : Memory.wf [] = true := rfl

end Sys2Proof.Machine
end

