-- ==== Sys2Proof/Laws/State.lean ====
section
/-! SUPPORT. One lemma per field per update: what the named updates of a block and of the machine leave in each field. -/

namespace Sys2Proof.Machine

@[simp] theorem Block.txPush_acc (b : Block) (L : List Byte) : (b.txPush L).acc = b.acc := rfl
@[simp] theorem Block.txPush_result (b : Block) (L : List Byte) : (b.txPush L).result = b.result := rfl
@[simp] theorem Block.txPush_encOpen (b : Block) (L : List Byte) : (b.txPush L).encOpen = b.encOpen := rfl
@[simp] theorem Block.txPush_txq (b : Block) (L : List Byte) : (b.txPush L).txq = b.txq ++ L := rfl
@[simp] theorem Block.txPush_decSt (b : Block) (L : List Byte) : (b.txPush L).decSt = b.decSt := rfl
@[simp] theorem Block.txPush_decCause (b : Block) (L : List Byte) : (b.txPush L).decCause = b.decCause := rfl
@[simp] theorem Block.txPush_decLen (b : Block) (L : List Byte) : (b.txPush L).decLen = b.decLen := rfl
@[simp] theorem Block.txPush_plb (b : Block) (L : List Byte) : (b.txPush L).plb = b.plb := rfl
@[simp] theorem Block.txPush_rxSt (b : Block) (L : List Byte) : (b.txPush L).rxSt = b.rxSt := rfl
@[simp] theorem Block.txPush_flagCnt (b : Block) (L : List Byte) : (b.txPush L).flagCnt = b.flagCnt := rfl
@[simp] theorem Block.txPush_rawCnt (b : Block) (L : List Byte) : (b.txPush L).rawCnt = b.rawCnt := rfl
@[simp] theorem Block.txPush_cmdErr (b : Block) (L : List Byte) : (b.txPush L).cmdErr = b.cmdErr := rfl

@[simp] theorem Block.decCleared_acc (b : Block) : (b.decCleared).acc = b.acc := rfl
@[simp] theorem Block.decCleared_result (b : Block) : (b.decCleared).result = b.result := rfl
@[simp] theorem Block.decCleared_encOpen (b : Block) : (b.decCleared).encOpen = b.encOpen := rfl
@[simp] theorem Block.decCleared_txq (b : Block) : (b.decCleared).txq = b.txq := rfl
@[simp] theorem Block.decCleared_decSt (b : Block) : (b.decCleared).decSt = .idle := rfl
@[simp] theorem Block.decCleared_decCause (b : Block) : (b.decCleared).decCause = .none := rfl
@[simp] theorem Block.decCleared_decLen (b : Block) : (b.decCleared).decLen = 0 := rfl
@[simp] theorem Block.decCleared_plb (b : Block) : (b.decCleared).plb = b.plb := rfl
@[simp] theorem Block.decCleared_rxSt (b : Block) : (b.decCleared).rxSt = b.rxSt := rfl
@[simp] theorem Block.decCleared_flagCnt (b : Block) : (b.decCleared).flagCnt = b.flagCnt := rfl
@[simp] theorem Block.decCleared_rawCnt (b : Block) : (b.decCleared).rawCnt = b.rawCnt := rfl
@[simp] theorem Block.decCleared_cmdErr (b : Block) : (b.decCleared).cmdErr = b.cmdErr := rfl

@[simp] theorem Block.decLatch_acc (b : Block) (c : DecCause) : (b.decLatch c).acc = b.acc := rfl
@[simp] theorem Block.decLatch_result (b : Block) (c : DecCause) : (b.decLatch c).result = b.result := rfl
@[simp] theorem Block.decLatch_encOpen (b : Block) (c : DecCause) : (b.decLatch c).encOpen = b.encOpen := rfl
@[simp] theorem Block.decLatch_txq (b : Block) (c : DecCause) : (b.decLatch c).txq = b.txq := rfl
@[simp] theorem Block.decLatch_decSt (b : Block) (c : DecCause) : (b.decLatch c).decSt = .bad := rfl
@[simp] theorem Block.decLatch_decCause (b : Block) (c : DecCause) : (b.decLatch c).decCause = c := rfl
@[simp] theorem Block.decLatch_decLen (b : Block) (c : DecCause) : (b.decLatch c).decLen = 0 := rfl
@[simp] theorem Block.decLatch_plb (b : Block) (c : DecCause) : (b.decLatch c).plb = b.plb := rfl
@[simp] theorem Block.decLatch_rxSt (b : Block) (c : DecCause) : (b.decLatch c).rxSt = b.rxSt := rfl
@[simp] theorem Block.decLatch_flagCnt (b : Block) (c : DecCause) : (b.decLatch c).flagCnt = b.flagCnt := rfl
@[simp] theorem Block.decLatch_rawCnt (b : Block) (c : DecCause) : (b.decLatch c).rawCnt = b.rawCnt := rfl
@[simp] theorem Block.decLatch_cmdErr (b : Block) (c : DecCause) : (b.decLatch c).cmdErr = b.cmdErr := rfl

@[simp] theorem Block.decFail_acc (b : Block) (c : DecCause) : (b.decFail c).acc = b.acc := rfl
@[simp] theorem Block.decFail_result (b : Block) (c : DecCause) : (b.decFail c).result = b.result := rfl
@[simp] theorem Block.decFail_encOpen (b : Block) (c : DecCause) : (b.decFail c).encOpen = b.encOpen := rfl
@[simp] theorem Block.decFail_txq (b : Block) (c : DecCause) : (b.decFail c).txq = b.txq := rfl
@[simp] theorem Block.decFail_decSt (b : Block) (c : DecCause) : (b.decFail c).decSt = .doneFail := rfl
@[simp] theorem Block.decFail_decCause (b : Block) (c : DecCause) : (b.decFail c).decCause = c := rfl
@[simp] theorem Block.decFail_decLen (b : Block) (c : DecCause) : (b.decFail c).decLen = 0 := rfl
@[simp] theorem Block.decFail_plb (b : Block) (c : DecCause) : (b.decFail c).plb = b.plb := rfl
@[simp] theorem Block.decFail_rxSt (b : Block) (c : DecCause) : (b.decFail c).rxSt = b.rxSt := rfl
@[simp] theorem Block.decFail_flagCnt (b : Block) (c : DecCause) : (b.decFail c).flagCnt = b.flagCnt := rfl
@[simp] theorem Block.decFail_rawCnt (b : Block) (c : DecCause) : (b.decFail c).rawCnt = b.rawCnt := rfl
@[simp] theorem Block.decFail_cmdErr (b : Block) (c : DecCause) : (b.decFail c).cmdErr = b.cmdErr := rfl

@[simp] theorem Block.rxTimeout_acc (b : Block) : (b.rxTimeout).acc = b.acc := rfl
@[simp] theorem Block.rxTimeout_result (b : Block) : (b.rxTimeout).result = b.result := rfl
@[simp] theorem Block.rxTimeout_encOpen (b : Block) : (b.rxTimeout).encOpen = b.encOpen := rfl
@[simp] theorem Block.rxTimeout_txq (b : Block) : (b.rxTimeout).txq = b.txq := rfl
@[simp] theorem Block.rxTimeout_decSt (b : Block) : (b.rxTimeout).decSt = .idle := rfl
@[simp] theorem Block.rxTimeout_decCause (b : Block) : (b.rxTimeout).decCause = .none := rfl
@[simp] theorem Block.rxTimeout_decLen (b : Block) : (b.rxTimeout).decLen = 0 := rfl
@[simp] theorem Block.rxTimeout_plb (b : Block) : (b.rxTimeout).plb = b.plb := rfl
@[simp] theorem Block.rxTimeout_rxSt (b : Block) : (b.rxTimeout).rxSt = .timeout := rfl
@[simp] theorem Block.rxTimeout_flagCnt (b : Block) : (b.rxTimeout).flagCnt = b.flagCnt := rfl
@[simp] theorem Block.rxTimeout_rawCnt (b : Block) : (b.rxTimeout).rawCnt = b.rawCnt := rfl
@[simp] theorem Block.rxTimeout_cmdErr (b : Block) : (b.rxTimeout).cmdErr = b.cmdErr := rfl

@[simp] theorem State.leavePort_par (s : State) : (s.leavePort).par = s.par := rfl
@[simp] theorem State.leavePort_blk (s : State) : (s.leavePort).blk = s.blk := rfl
@[simp] theorem State.leavePort_cmdPort (s : State) : (s.leavePort).env.cmdPort = s.env.cmdPort.tail := rfl
@[simp] theorem State.leavePort_txOut (s : State) : (s.leavePort).env.txOut = s.env.txOut := rfl
@[simp] theorem State.leavePort_rxIn (s : State) : (s.leavePort).env.rxIn = s.env.rxIn := rfl
@[simp] theorem State.leavePort_turns (s : State) : (s.leavePort).env.turns = s.env.turns := rfl
@[simp] theorem State.leavePort_client (s : State) : (s.leavePort).env.client = s.env.client := rfl

@[simp] theorem State.takeTurn_par (s : State) : (s.takeTurn).par = s.par := rfl
@[simp] theorem State.takeTurn_blk (s : State) : (s.takeTurn).blk = s.blk := rfl
@[simp] theorem State.takeTurn_cmdPort (s : State) : (s.takeTurn).env.cmdPort = s.env.cmdPort := rfl
@[simp] theorem State.takeTurn_txOut (s : State) : (s.takeTurn).env.txOut = s.env.txOut := rfl
@[simp] theorem State.takeTurn_rxIn (s : State) : (s.takeTurn).env.rxIn = s.env.rxIn := rfl
@[simp] theorem State.takeTurn_turns (s : State) : (s.takeTurn).env.turns = s.env.turns.tail := rfl
@[simp] theorem State.takeTurn_client (s : State) : (s.takeTurn).env.client = s.env.client := rfl

@[simp] theorem resetEvent_par (s : State) : (resetEvent s).par = s.par := rfl
@[simp] theorem resetEvent_blk (s : State) : (resetEvent s).blk = Block.reset := rfl
@[simp] theorem resetEvent_cmdPort (s : State) : (resetEvent s).env.cmdPort = s.env.cmdPort := rfl
@[simp] theorem resetEvent_txOut (s : State) : (resetEvent s).env.txOut = s.env.txOut := rfl
@[simp] theorem resetEvent_rxIn (s : State) : (resetEvent s).env.rxIn = s.env.rxIn := rfl
@[simp] theorem resetEvent_turns (s : State) : (resetEvent s).env.turns = s.env.turns := rfl
@[simp] theorem resetEvent_client (s : State) : (resetEvent s).env.client = s.env.client := rfl

@[simp] theorem offerNext_par (s : State) (w : Word) : (offerNext s w).par = s.par := rfl
@[simp] theorem offerNext_blk (s : State) (w : Word) : (offerNext s w).blk = s.blk := rfl
@[simp] theorem offerNext_cmdPort (s : State) (w : Word) : (offerNext s w).env.cmdPort = w :: s.env.cmdPort := rfl
@[simp] theorem offerNext_txOut (s : State) (w : Word) : (offerNext s w).env.txOut = s.env.txOut := rfl
@[simp] theorem offerNext_rxIn (s : State) (w : Word) : (offerNext s w).env.rxIn = s.env.rxIn := rfl
@[simp] theorem offerNext_turns (s : State) (w : Word) : (offerNext s w).env.turns = .command :: s.env.turns := rfl
@[simp] theorem offerNext_client (s : State) (w : Word) : (offerNext s w).env.client = s.env.client := rfl

@[simp] theorem clientIssue_par (i : Instr) (c : ClientSt) (s : State) : (clientIssue i c s).par = s.par := rfl
@[simp] theorem clientIssue_blk (i : Instr) (c : ClientSt) (s : State) : (clientIssue i c s).blk = s.blk := rfl
@[simp] theorem clientIssue_cmdPort (i : Instr) (c : ClientSt) (s : State) : (clientIssue i c s).env.cmdPort = [encode i] := rfl
@[simp] theorem clientIssue_txOut (i : Instr) (c : ClientSt) (s : State) : (clientIssue i c s).env.txOut = s.env.txOut := rfl
@[simp] theorem clientIssue_rxIn (i : Instr) (c : ClientSt) (s : State) : (clientIssue i c s).env.rxIn = s.env.rxIn := rfl
@[simp] theorem clientIssue_turns (i : Instr) (c : ClientSt) (s : State) : (clientIssue i c s).env.turns = s.env.turns := rfl
@[simp] theorem clientIssue_client (i : Instr) (c : ClientSt) (s : State) : (clientIssue i c s).env.client = { s.env.client with st := c } := rfl

@[simp] theorem clientReturn_par (k : Nat) (r : Reply) (s : State) : (clientReturn k r s).par = s.par := rfl
@[simp] theorem clientReturn_blk (k : Nat) (r : Reply) (s : State) : (clientReturn k r s).blk = s.blk := rfl
@[simp] theorem clientReturn_cmdPort (k : Nat) (r : Reply) (s : State) : (clientReturn k r s).env.cmdPort = s.env.cmdPort := rfl
@[simp] theorem clientReturn_txOut (k : Nat) (r : Reply) (s : State) : (clientReturn k r s).env.txOut = s.env.txOut := rfl
@[simp] theorem clientReturn_rxIn (k : Nat) (r : Reply) (s : State) : (clientReturn k r s).env.rxIn = s.env.rxIn := rfl
@[simp] theorem clientReturn_turns (k : Nat) (r : Reply) (s : State) : (clientReturn k r s).env.turns = s.env.turns := rfl
@[simp] theorem clientReturn_client (k : Nat) (r : Reply) (s : State) : (clientReturn k r s).env.client = { s.env.client with st := .idle, returned := s.env.client.returned ++ [{ writes := k, reply := r }] } := rfl

end Sys2Proof.Machine
end

