-- ==== Sys2Proof/Laws/Dec.lean ====
section
/-! SUPPORT. What one decoder step can do (42_decoder.md R144), said once: an inversion lemma, the fields it never
touches, and that it does not see the counters of RXD. -/

namespace Sys2Proof.Machine

open Sys2Proof.Config

/-- APPEND stores at `dec_len` and goes to `st`, or latches OVERFLOW. -/
theorem Block.decAppend_cases (depth : Nat) (b : Block) (v : Byte) (st : DecSt) :
    (b.decLen < depth ∧
      b.decAppend depth v st = { b with plb := b.plb.write b.decLen v, decLen := b.decLen + 1, decSt := st }) ∨
    (depth ≤ b.decLen ∧ b.decAppend depth v st = b.decLatch .overflow) := by
  rcases Nat.lt_or_ge b.decLen depth with h | h
  · exact .inl ⟨h, by simp [Block.decAppend, h]⟩
  · exact .inr ⟨h, by simp [Block.decAppend, Nat.not_lt.mpr h]⟩

/-- Everything a step that is not the frame's last can do: latch a failure, open a frame (after a finished one with a
restart), enter an escape, append, or absorb. -/
theorem decStep_false_cases (depth : Nat) (x : Byte) (b : Block) :
    (∃ c, c ≠ .none ∧ decStep depth x false b = b.decLatch c) ∨
    (b.decSt = .idle ∧ x = FLAG ∧ decStep depth x false b = { b with decSt := .body }) ∨
    ((b.decSt = .doneOk ∨ b.decSt = .doneFail) ∧ x = FLAG ∧
      decStep depth x false b = { b with decSt := .body, decLen := 0, decCause := .none }) ∨
    (b.decSt = .body ∧ x = ESC ∧ decStep depth x false b = { b with decSt := .esc }) ∨
    ((b.decSt = .body ∨ b.decSt = .esc) ∧ b.decLen < depth ∧ ∃ v, decStep depth x false b =
      { b with plb := b.plb.write b.decLen v, decLen := b.decLen + 1, decSt := .body }) ∨
    (b.decSt = .bad ∧ decStep depth x false b = b) := by
  have append (v : Byte) (h : decStep depth x false b = b.decAppend depth v .body) :
      (∃ c, c ≠ .none ∧ decStep depth x false b = b.decLatch c) ∨
      (b.decLen < depth ∧ ∃ v, decStep depth x false b =
        { b with plb := b.plb.write b.decLen v, decLen := b.decLen + 1, decSt := .body }) := by
    rcases b.decAppend_cases depth v .body with ⟨hl, e⟩ | ⟨-, e⟩
    · exact .inr ⟨hl, v, h.trans e⟩
    · exact .inl ⟨.overflow, by decide, h.trans e⟩
  cases hst : b.decSt with
  | idle =>
    by_cases hx : x = FLAG
    · exact .inr (.inl ⟨rfl, hx, by simp [decStep, hst, decFirst, hx]⟩)
    · exact .inl ⟨.noOpenFlag, by decide, by simp [decStep, hst, decFirst, hx]⟩
  | body =>
    by_cases hx : x = ESC
    · exact .inr (.inr (.inr (.inl ⟨rfl, hx, by simp [decStep, hst, decBody, hx]⟩)))
    · rcases append x (by simp [decStep, hst, decBody, hx]) with h | ⟨h, v, e⟩
      · exact .inl h
      · exact .inr (.inr (.inr (.inr (.inl ⟨.inl rfl, h, v, e⟩))))
  | esc =>
    by_cases hx : x = ESC_FLAG ∨ x = ESC_ESC
    · obtain ⟨w, hw⟩ : ∃ w, decStep depth x false b = b.decAppend depth w .body := by
        rcases hx with hx | hx
        · exact ⟨FLAG, by simp [decStep, hst, decEsc, hx]⟩
        · exact ⟨ESC, by simp only [decStep, hst, decEsc, hx]; rfl⟩
      rcases append w hw with h | ⟨h, v, e⟩
      · exact .inl h
      · exact .inr (.inr (.inr (.inr (.inl ⟨.inr rfl, h, v, e⟩))))
    · obtain ⟨h₁, h₂⟩ := not_or.mp hx
      exact .inl ⟨.badEscape, by decide, by simp [decStep, hst, decEsc, h₁, h₂]⟩
  | bad => exact .inr (.inr (.inr (.inr (.inr ⟨rfl, by simp [decStep, hst, decBad]⟩))))
  | doneOk =>
    by_cases hx : x = FLAG
    · exact .inr (.inr (.inl ⟨.inl rfl, hx, by simp [decStep, hst, decFirst, hx, Block.decCleared]⟩))
    · exact .inl ⟨.noOpenFlag, by decide, by simp [decStep, hst, decFirst, hx, Block.decLatch, Block.decCleared]⟩
  | doneFail =>
    by_cases hx : x = FLAG
    · exact .inr (.inr (.inl ⟨.inr rfl, hx, by simp [decStep, hst, decFirst, hx, Block.decCleared]⟩))
    · exact .inl ⟨.noOpenFlag, by decide, by simp [decStep, hst, decFirst, hx, Block.decLatch, Block.decCleared]⟩

/-- Everything the last step of a frame can do. -/
theorem decStep_true_cases (depth : Nat) (x : Byte) (b : Block) :
    (∃ c, c ≠ .none ∧ decStep depth x true b = b.decFail c) ∨
    (b.decSt = .body ∧ x = FLAG ∧ decStep depth x true b = { b with decSt := .doneOk }) ∨
    (b.decSt = .bad ∧ decStep depth x true b = { b with decSt := .doneFail }) := by
  unfold decStep
  cases hst : b.decSt with
  | idle => exact .inl ⟨.shortFrame, by decide, by simp [decFirst]⟩
  | body =>
    by_cases hx : x = FLAG
    · exact .inr (.inl ⟨rfl, hx, by simp [decBody, hx]⟩)
    · exact .inl ⟨.noCloseFlag, by decide, by simp [decBody, hx]⟩
  | esc =>
    by_cases hx : x = FLAG
    · exact .inl ⟨.escAtEnd, by decide, by simp [decEsc, hx]⟩
    · exact .inl ⟨.noCloseFlag, by decide, by simp [decEsc, hx]⟩
  | bad => exact .inr (.inr ⟨rfl, by simp [decBad]⟩)
  | doneOk => exact .inl ⟨.shortFrame, by decide, by simp [decFirst, Block.decFail, Block.decCleared]⟩
  | doneFail => exact .inl ⟨.shortFrame, by decide, by simp [decFirst, Block.decFail, Block.decCleared]⟩

/-- A decoder step writes only DEC's own four fields. -/
theorem decStep_eq (depth : Nat) (x : Byte) (last : Bool) (b : Block) :
    decStep depth x last b =
      { b with decSt := (decStep depth x last b).decSt, decCause := (decStep depth x last b).decCause,
               decLen := (decStep depth x last b).decLen, plb := (decStep depth x last b).plb } := by
  cases last with
  | true =>
    rcases decStep_true_cases depth x b with ⟨c, -, e⟩ | ⟨-, -, e⟩ | ⟨-, e⟩ <;> first | (rw [e]; rfl) | rw [e]
  | false =>
    rcases decStep_false_cases depth x b with
      ⟨c, -, e⟩ | ⟨-, -, e⟩ | ⟨-, -, e⟩ | ⟨-, -, e⟩ | ⟨-, -, v, e⟩ | ⟨-, e⟩ <;> first | (rw [e]; rfl) | rw [e]

/-- After the last byte of a frame DEC is in DONE_OK or DONE_FAIL (R151). -/
theorem decStep_true_done (depth : Nat) (x : Byte) (b : Block) :
    (decStep depth x true b).decSt = .doneOk ∨ (decStep depth x true b).decSt = .doneFail := by
  rcases decStep_true_cases depth x b with ⟨c, -, e⟩ | ⟨-, -, e⟩ | ⟨-, e⟩ <;> simp [e]

/-- A step that is not the frame's last never finishes a frame. -/
theorem decStep_false_unfinished (depth : Nat) (x : Byte) (b : Block) :
    (decStep depth x false b).decSt.unfinished = true := by
  rcases decStep_false_cases depth x b with
    ⟨c, -, e⟩ | ⟨-, -, e⟩ | ⟨-, -, e⟩ | ⟨-, -, e⟩ | ⟨-, -, v, e⟩ | ⟨h, e⟩ <;> rw [e] <;> simp [DecSt.unfinished, *]

/-- A decoder step sees none of the fields that are not DEC's: it commutes with any change of them. -/
theorem decStep_other_fields (depth : Nat) (x : Byte) (last : Bool) (b : Block) (a r : Byte) (o e : Bool)
    (q : List Byte) (rx : RxSt) (fc rc : Nat) :
    decStep depth x last { b with acc := a, result := r, encOpen := o, cmdErr := e, txq := q, rxSt := rx,
                                  flagCnt := fc, rawCnt := rc } =
      { decStep depth x last b with acc := a, result := r, encOpen := o, cmdErr := e, txq := q, rxSt := rx,
                                    flagCnt := fc, rawCnt := rc } := by
  simp only [decStep]
  cases hst : b.decSt <;>
    simp only [decFirst, decBody, decEsc, decBad, Block.decAppend, Block.decFail, Block.decLatch, Block.decCleared] <;>
    repeat' split
  all_goals first | rfl | simp [hst]

end Sys2Proof.Machine
end

