-- ==== Sys2Proof/Laws/Decode.lean ====
section
/-! SUPPORT. The two fields of a command word (30_encoding.md R71), and decoding by OP alone. -/

namespace Sys2Proof

/-- The number a word of two fields stands for. -/
theorem toNat_word (op d : Byte) : (op ++ d : Word).toNat = op.toNat * 256 + d.toNat := by
  have h : (op ++ d : BitVec (8 + 8)).toNat = op.toNat <<< 8 ||| d.toNat := BitVec.toNat_append op d
  rw [← Nat.shiftLeft_add_eq_or_of_lt d.isLt, Nat.shiftLeft_eq] at h
  exact h

theorem toNat_opcodeField (w : Word) : (opcodeField w).toNat = w.toNat / 256 := by
  have := w.isLt
  simp only [opcodeField, BitVec.extractLsb'_toNat, Nat.shiftRight_eq_div_pow]
  omega

theorem toNat_operandField (w : Word) : (operandField w).toNat = w.toNat % 256 := by
  simp [operandField, BitVec.extractLsb'_toNat]

@[simp] theorem opcodeField_append (op d : Byte) : opcodeField (op ++ d) = op := by
  apply BitVec.eq_of_toNat_eq
  rw [toNat_opcodeField, toNat_word]
  have := d.isLt
  omega

@[simp] theorem operandField_append (op d : Byte) : operandField (op ++ d) = d := by
  apply BitVec.eq_of_toNat_eq
  rw [toNat_operandField, toNat_word]
  have := d.isLt
  omega

/-- A word is its two fields. -/
theorem word_ext {v w : Word} (h : opcodeField v = opcodeField w) (h' : operandField v = operandField w) : v = w := by
  apply BitVec.eq_of_toNat_eq
  have h := congrArg BitVec.toNat h
  have h' := congrArg BitVec.toNat h'
  rw [toNat_opcodeField, toNat_opcodeField] at h
  rw [toNat_operandField, toNat_operandField] at h'
  omega

theorem word_eq_fields (w : Word) : w = opcodeField w ++ operandField w :=
  word_ext (opcodeField_append ..).symm (operandField_append ..).symm

/-- The mask of every row of R75 keeps OP. -/
theorem word_and_mask (w : Word) : w &&& 0xFF00#16 = opcodeField w ++ 0x00#8 := by
  apply word_ext
  · rw [opcodeField_append]
    simp only [opcodeField, BitVec.extractLsb'_and]
    have : BitVec.extractLsb' 8 8 0xFF00#16 = BitVec.allOnes 8 := by decide
    rw [this, BitVec.and_allOnes]
  · rw [operandField_append]
    simp only [operandField, BitVec.extractLsb'_and]
    have : BitVec.extractLsb' 0 8 0xFF00#16 = 0#8 := by decide
    rw [this, BitVec.and_zero]

theorem masked_eq_iff (w p : Word) (hp : operandField p = 0x00#8) :
    w &&& 0xFF00#16 = p ↔ opcodeField w = opcodeField p := by
  rw [word_and_mask]
  constructor
  · intro h
    rw [← h, opcodeField_append]
  · intro h
    rw [h]
    exact word_ext (opcodeField_append ..) (by rw [operandField_append, hp])

/-- Every row of R75 has the mask 0xFF00 and a pattern whose low byte is 0. -/
theorem opcodeTable_masks :
    opcodeTable.all (fun r => r.mask == 0xFF00#16 && operandField r.pattern == 0x00#8) = true := by decide

/-- Decoding looks at OP alone to find the row, and at D alone for the operand. -/
theorem decode_eq (w : Word) :
    decode w =
      match opcodeTable.find? (fun r => opcodeField w == opcodeField r.pattern) with
      | some r => .ok (r.build (operandField w))
      | none => .error (.illegalOpcode (opcodeField w)) := by
  have h : ∀ L : List Row, L.all (fun r => r.mask == 0xFF00#16 && operandField r.pattern == 0x00#8) = true →
      L.find? (fun r => w &&& r.mask == r.pattern) = L.find? (fun r => opcodeField w == opcodeField r.pattern) := by
    intro L
    induction L with
    | nil => intro; rfl
    | cons r L ih =>
      intro hL
      simp only [List.all_cons, Bool.and_eq_true, beq_iff_eq] at hL
      have hr : (w &&& r.mask == r.pattern) = (opcodeField w == opcodeField r.pattern) := by
        rw [Bool.eq_iff_iff, beq_iff_eq, beq_iff_eq, hL.1.1]
        exact masked_eq_iff w r.pattern hL.1.2
      simp only [List.find?_cons, hr, ih (by simpa using hL.2)]
  simp only [decode, h opcodeTable opcodeTable_masks]
  all_goals cases opcodeTable.find? (fun r => opcodeField w == opcodeField r.pattern) <;> rfl

/-- The command of a word whose OP picks the row. -/
theorem decode_append {op d : Byte} {i : Instr}
    (h : (opcodeTable.find? (fun r => op == opcodeField r.pattern)).map (fun r => r.build d) = some i) :
    decode (op ++ d) = .ok i := by
  obtain ⟨r, hr, hi⟩ := Option.map_eq_some_iff.mp h
  rw [decode_eq, opcodeField_append, operandField_append, hr]
  exact congrArg Except.ok hi

end Sys2Proof
end

