-- ==== Sys2Proof/Laws/Ops.lean ====
section
/-! SUPPORT. What each shared operation can do, said once. -/

namespace Sys2Proof.Machine

/-- An accepted command: the block is `b`, the word has left the port. -/
theorem complete_eq (b : Block) (s : State) : complete b s = .next { s.leavePort with blk := b } := rfl

/-- A rejected command: CMD_ERR on top of what is written in `b`, the word has left the port. -/
theorem raiseCmdErr_eq (b : Block) (s : State) :
    raiseCmdErr b s = .next { s.leavePort with blk := { b with cmdErr := true } } := rfl

/-- A held command changes nothing. -/
theorem hold_eq (s : State) : hold s = .next s := rfl

/-- `emit` without room holds. -/
theorem emit_of_lt {L : List Byte} {b : Block} {s : State} (h : s.txFree < L.length) : emit L b s = .next s := by
  simp [emit, h, hold]

/-- `emit` with room pushes all of `L`. -/
theorem emit_of_le {L : List Byte} {b : Block} {s : State} (h : L.length ≤ s.txFree) :
    emit L b s = .next { s.leavePort with blk := b.txPush L } := by
  simp [emit, Nat.not_lt.mpr h, complete]

/-- `emit` always answers a next state: the one of a hold, or the one with `L` pushed. -/
theorem emit_cases (L : List Byte) (b : Block) (s : State) :
    (s.txFree < L.length ∧ emit L b s = .next s) ∨
      (L.length ≤ s.txFree ∧ emit L b s = .next { s.leavePort with blk := b.txPush L }) := by
  rcases Nat.lt_or_ge s.txFree L.length with h | h
  · exact .inl ⟨h, emit_of_lt h⟩
  · exact .inr ⟨h, emit_of_le h⟩

/-- A stuffed byte is one or two bytes long. -/
theorem stuff_length (b : Byte) : (stuff b).length = 1 ∨ (stuff b).length = 2 := by
  unfold stuff
  split
  · exact .inr rfl
  · split
    · exact .inr rfl
    · exact .inl rfl

end Sys2Proof.Machine
end

