-- ==== Sys2Proof/Laws/PerInstr.lean ====
section
/-! SUPPORT. For every command: its assembled word has its OP in bits [15:8] and its operand, or 0x00, in bits [7:0]
(30_encoding.md R71, R82). -/

namespace Sys2Proof.Laws.WordFields

/-- The fields of the assembled word. -/
def Statement (i : Instr) : Prop :=
  opcodeField (encode i) = i.opcode ∧ operandField (encode i) = i.operand.getD 0x00#8 ∧
    encode i &&& 0xFF00#16 = i.opcode ++ 0x00#8

/-- The statement for any command, from the two field lemmas. -/
theorem of_fields (i : Instr) : Statement i := by
  refine ⟨opcodeField_append .., operandField_append .., ?_⟩
  rw [word_and_mask]
  exact congrArg (· ++ 0x00#8) (opcodeField_append ..)

theorem nop : Statement .nop := of_fields _
theorem ckClear : Statement .ckClear := of_fields _
theorem ckAdd (d : Byte) : Statement (.ckAdd d) := of_fields _
theorem ckRead : Statement .ckRead := of_fields _
theorem encOpen : Statement .encOpen := of_fields _
theorem encByte (d : Byte) : Statement (.encByte d) := of_fields _
theorem encByteAcc (d : Byte) : Statement (.encByteAcc d) := of_fields _
theorem encCksum : Statement .encCksum := of_fields _
theorem encClose : Statement .encClose := of_fields _
theorem decClear : Statement .decClear := of_fields _
theorem decByte (d : Byte) : Statement (.decByte d) := of_fields _
theorem decLast (d : Byte) : Statement (.decLast d) := of_fields _
theorem plLen : Statement .plLen := of_fields _
theorem plRead (i : Byte) : Statement (.plRead i) := of_fields _
theorem rxArm : Statement .rxArm := of_fields _

end Sys2Proof.Laws.WordFields
end

