-- ==== Sys2Proof/Laws/Step.lean ====
section
/-! SUPPORT. What a step can do, event by event, and how runs compose. -/

namespace Sys2Proof.Machine

/-- A step with no turn left changes nothing. -/
theorem step_of_nil {s : State} (h : s.env.turns = []) : step s = .next s := by
  simp [step, h]

/-- A step with a turn left is that turn's event. -/
theorem step_of_cons {s : State} {t : Turn} {ts : List Turn} (h : s.env.turns = t :: ts) :
    step s = event t s.takeTurn := by
  simp [step, h]

/-- Everything a command can do: it is held and nothing changes, or it leaves the port and the block changes; it always
answers a next state (60_exceptions.md R230). -/
theorem exec_cases (i : Instr) (s : State) :
    exec i s = .next s ∨ ∃ b, exec i s = .next { s.leavePort with blk := b } := by
  cases i <;>
    simp only [exec, execNop, execCkClear, execCkAdd, execCkRead, execEncOpen, execEncByte, execEncByteAcc,
      execEncCksum, execEncClose, execDecClear, execDecByte, execDecLast, execPlLen, execPlRead, execRxArm, complete,
      raiseCmdErr, emit, hold]
  all_goals first
    | exact .inr ⟨_, rfl⟩
    | (repeat' split) <;> first | exact .inl rfl | exact .inr ⟨_, rfl⟩

/-- No command stops the block. -/
theorem exec_next (i : Instr) (s : State) : ∃ t, exec i s = .next t := by
  rcases exec_cases i s with h | ⟨b, h⟩
  · exact ⟨_, h⟩
  · exact ⟨_, h⟩

/-- A host turn with nothing on the port. -/
theorem commandEvent_nil {s : State} (h : s.env.cmdPort = []) : commandEvent s = .next s := by
  simp [commandEvent, h]

/-- A host turn with a command on the port. -/
theorem commandEvent_ok {s : State} {w : Word} {ws : List Word} {i : Instr} (h : s.env.cmdPort = w :: ws)
    (hd : decode w = .ok i) : commandEvent s = exec i s := by
  simp [commandEvent, h, hd]

/-- A host turn with an illegal word on the port. -/
theorem commandEvent_error {s : State} {w : Word} {ws : List Word} {e : DecodeError} (h : s.env.cmdPort = w :: ws)
    (hd : decode w = .error e) : commandEvent s = raiseCmdErr s.blk s := by
  simp [commandEvent, h, hd]

/-- Everything a TX pop can do. -/
theorem txPopEvent_cases (s : State) :
    (s.blk.txq = [] ∧ txPopEvent s = s) ∨
    (∃ x q, s.blk.txq = x :: q ∧ txPopEvent s = { s with blk.txq := q, env.txOut := s.env.txOut ++ [x] }) := by
  unfold txPopEvent
  split
  · exact .inl ⟨by assumption, rfl⟩
  · exact .inr ⟨_, _, by assumption, rfl⟩

/-- Everything an RX byte can do. -/
theorem rxByteEvent_cases (s : State) :
    ((s.env.rxIn = [] ∨ s.blk.rxSt ≠ .receiving) ∧ rxByteEvent s = s) ∨
    (∃ x rest, s.blk.rxSt = .receiving ∧ s.env.rxIn = x :: rest ∧
      rxByteEvent s = { s with blk := s.blk.rxByte s.par x, env.rxIn := rest }) := by
  unfold rxByteEvent
  split
  · exact .inl ⟨.inl (by assumption), rfl⟩
  · by_cases h : s.blk.rxSt = .receiving
    · exact .inr ⟨_, _, h, by assumption, by simp [State.rxReady, h]⟩
    · exact .inl ⟨.inr h, by simp [State.rxReady, h]⟩

/-- Everything an RX timeout can do. -/
theorem rxTimeoutEvent_cases (s : State) :
    (s.blk.rxSt ≠ .receiving ∧ rxTimeoutEvent s = s) ∨
    (s.blk.rxSt = .receiving ∧ rxTimeoutEvent s = { s with blk := s.blk.rxTimeout }) := by
  by_cases h : s.blk.rxSt = .receiving
  · exact .inr ⟨h, by simp [rxTimeoutEvent, State.rxReady, h]⟩
  · exact .inl ⟨h, by simp [rxTimeoutEvent, State.rxReady, h]⟩

/-- Everything an RX byte does to an armed block (43_frame_reader.md R172): it ends the frame, reaches the bound, or is
one more byte of the frame. -/
theorem Block.rxByte_cases (p : Params) (x : Byte) (b : Block) :
    (flagCountAfter x b = 2 ∧ b.rxByte p x =
      { decStep p.plbDepth x true b with rxSt := .done, rawCnt := b.rawCnt + 1, flagCnt := flagCountAfter x b }) ∨
    (flagCountAfter x b ≠ 2 ∧ b.rawCnt + 1 = p.maxFrameBytes ∧ b.rxByte p x =
      { b.decCleared with rxSt := .overflow, rawCnt := b.rawCnt + 1, flagCnt := flagCountAfter x b }) ∨
    (flagCountAfter x b ≠ 2 ∧ b.rawCnt + 1 ≠ p.maxFrameBytes ∧ b.rxByte p x =
      { decStep p.plbDepth x false b with rawCnt := b.rawCnt + 1, flagCnt := flagCountAfter x b }) := by
  have key (last : Bool) :
      decStep p.plbDepth x last { b with rawCnt := b.rawCnt + 1, flagCnt := flagCountAfter x b } =
        { decStep p.plbDepth x last b with rawCnt := b.rawCnt + 1, flagCnt := flagCountAfter x b } := by
    have h := decStep_other_fields p.plbDepth x last b b.acc b.result b.encOpen b.cmdErr b.txq b.rxSt
      (flagCountAfter x b) (b.rawCnt + 1)
    have h' := decStep_eq p.plbDepth x last b
    rw [h, h']
  by_cases h₁ : flagCountAfter x b = 2
  · exact .inl ⟨h₁, by rw [Block.rxByte]; dsimp only; rw [if_pos h₁, key true]⟩
  · by_cases h₂ : b.rawCnt + 1 = p.maxFrameBytes
    · exact .inr (.inl ⟨h₁, h₂, by rw [Block.rxByte]; dsimp only; rw [if_neg h₁, if_pos h₂]; rfl⟩)
    · exact .inr (.inr ⟨h₁, h₂, by rw [Block.rxByte]; dsimp only; rw [if_neg h₁, if_neg h₂, key false]⟩)

/-- A client turn never touches the block, the transport or the parameters. -/
theorem clientTurn_frame {s t : State} (h : clientTurn s = .next t) :
    t.par = s.par ∧ t.blk = s.blk ∧ t.env.txOut = s.env.txOut ∧ t.env.rxIn = s.env.rxIn ∧
      t.env.turns = s.env.turns := by
  have next (raw k) (u : State) : (clientNextAttempt raw k u).par = u.par ∧ (clientNextAttempt raw k u).blk = u.blk ∧
      (clientNextAttempt raw k u).env.txOut = u.env.txOut ∧ (clientNextAttempt raw k u).env.rxIn = u.env.rxIn ∧
      (clientNextAttempt raw k u).env.turns = u.env.turns := by
    unfold clientNextAttempt; split <;> simp
  unfold clientTurn at h
  split at h
  · cases h; simp
  · split at h
    · unfold clientBegin at h
      split at h
      · cases h; simp
      · cases h
      · cases h; simpa using next _ _ _
    · cases h; unfold clientSend; split <;> simp
    · cases h; unfold clientPoll; repeat' split
      all_goals first | exact next _ _ _ | simp
    · cases h; unfold clientLength; split
      · exact next _ _ _
      · simp
    · cases h; unfold clientCode; split
      · exact next _ _ _
      · simp
    · cases h; unfold clientRead; split <;> simp

/-- Everything the client's head of the loop can do: start attempt `k + 1`, or return Empty. -/
theorem clientNextAttempt_cases (raw : List Byte) (k : Nat) (s : State) :
    (k < s.par.maxAttempts ∧ clientNextAttempt raw k s =
      { s with env.client.st := .sending raw (k + 1) (assembleWords (sendMsg raw)) }) ∨
    (s.par.maxAttempts ≤ k ∧ clientNextAttempt raw k s = clientReturn k .empty s) := by
  unfold clientNextAttempt
  split
  · exact .inl ⟨by assumption, rfl⟩
  · exact .inr ⟨by omega, rfl⟩

/-- The codes of `rx_st` and `dec_st` in STATUS tell the states apart. -/
theorem RxSt.code_inj {a b : RxSt} : a.code = b.code ↔ a = b := by cases a <;> cases b <;> decide
theorem DecSt.code_inj {a b : DecSt} : a.code = b.code ↔ a = b := by cases a <;> cases b <;> decide

@[simp] theorem statusRxSt_status (s : State) : statusRxSt s.status = s.blk.rxSt.code := by
  unfold State.status
  generalize s.txqFull = f; generalize s.txqEmpty = e; generalize s.blk.cmdErr = c; generalize s.blk.encOpen = o
  cases s.blk.decSt <;> cases s.blk.decCause <;> cases s.blk.rxSt <;> revert f e c o <;> decide
@[simp] theorem statusDecSt_status (s : State) : statusDecSt s.status = s.blk.decSt.code := by
  unfold State.status
  generalize s.txqFull = f; generalize s.txqEmpty = e; generalize s.blk.cmdErr = c; generalize s.blk.encOpen = o
  cases s.blk.decSt <;> cases s.blk.decCause <;> cases s.blk.rxSt <;> revert f e c o <;> decide

/-- Everything one turn of the client can do. It waits or has nothing to do; with an empty port it begins the oldest call,
places a word of SEND_MSG or RX_ARM, ends a failed attempt, asks for the length, the code or the next payload byte, or
returns the payload. -/
theorem clientTurn_cases {s t : State} (h : clientTurn s = .next t) :
    (t = s ∧ (s.env.cmdPort ≠ [] ∨ s.env.client.st = .idle ∧ s.env.client.calls = [] ∨
      ∃ raw k, s.env.client.st = .awaiting raw k ∧ s.blk.rxSt = .receiving)) ∨
    (s.env.cmdPort = [] ∧
      ((∃ raw calls, s.env.client.st = .idle ∧ s.env.client.calls = raw :: calls ∧ raw ≠ [] ∧
          t = clientNextAttempt raw 0 { s with env.client.calls := calls }) ∨
        (∃ raw k todo, s.env.client.st = .sending raw k todo ∧ t = clientSend raw k todo s) ∨
        (∃ raw k, (s.env.client.st = .awaiting raw k ∧ s.blk.rxSt ≠ .receiving ∧
              (s.blk.rxSt = .timeout ∨ s.blk.rxSt = .overflow ∨ s.blk.decSt = .doneFail) ∨
            s.env.client.st = .lenAsked raw k ∧ s.blk.result.toNat < 2 ∨
            (∃ len, s.env.client.st = .codeAsked raw k len) ∧ s.blk.result = Config.CHECKSUM_ERROR) ∧
          t = clientNextAttempt raw k s) ∨
        (∃ raw k, s.env.client.st = .awaiting raw k ∧ (s.blk.rxSt = .done ∨ s.blk.rxSt = .idle) ∧
          s.blk.decSt ≠ .doneFail ∧ t = clientIssue .plLen (.lenAsked raw k) s) ∨
        (∃ raw k, s.env.client.st = .lenAsked raw k ∧ 2 ≤ s.blk.result.toNat ∧
          t = clientIssue (.plRead 0x01#8) (.codeAsked raw k s.blk.result.toNat) s) ∨
        (∃ raw k len, s.env.client.st = .codeAsked raw k len ∧ s.blk.result ≠ Config.CHECKSUM_ERROR ∧
          t = clientIssue (.plRead 0x00#8) (.reading raw k len []) s) ∨
        (∃ raw k len got, s.env.client.st = .reading raw k len got ∧ got.length + 1 < len ∧
          t = clientIssue (.plRead (BitVec.ofNat 8 (got.length + 1))) (.reading raw k len (got ++ [s.blk.result])) s) ∨
        (∃ raw k len got, s.env.client.st = .reading raw k len got ∧ len ≤ got.length + 1 ∧
          t = clientReturn k (.response (got ++ [s.blk.result])) s))) := by
  unfold clientTurn at h
  split at h
  case h_1 w ws hp => cases h; exact .inl ⟨rfl, .inl (by simp [hp])⟩
  case h_2 hp =>
    split at h
    case h_1 hst =>
      unfold clientBegin at h
      split at h
      case h_1 hc => cases h; exact .inl ⟨rfl, .inr (.inl ⟨hst, hc⟩)⟩
      case h_2 => cases h
      case h_3 c cs rest hc => cases h; exact .inr ⟨hp, .inl ⟨_, _, hst, hc, by simp, rfl⟩⟩
    case h_2 raw k todo hst => cases h; exact .inr ⟨hp, .inr (.inl ⟨raw, k, todo, hst, rfl⟩)⟩
    case h_3 raw k hst =>
      cases h
      unfold clientPoll
      simp only [statusRxSt_status, statusDecSt_status, RxSt.code_inj, DecSt.code_inj]
      split
      case isTrue hr => exact .inl ⟨rfl, .inr (.inr ⟨raw, k, hst, hr⟩)⟩
      case isFalse hr =>
        split
        case isTrue hx =>
          exact .inr ⟨hp, .inr (.inr (.inl ⟨raw, k, .inl ⟨hst, hr, hx.imp_right .inl⟩, rfl⟩))⟩
        case isFalse hx =>
          split
          case isTrue hd => exact .inr ⟨hp, .inr (.inr (.inl ⟨raw, k, .inl ⟨hst, hr, .inr (.inr hd)⟩, rfl⟩))⟩
          case isFalse hd =>
            refine .inr ⟨hp, .inr (.inr (.inr (.inl ⟨raw, k, hst, ?_, hd, rfl⟩)))⟩
            cases hv : s.blk.rxSt <;> simp_all
    case h_4 raw k hst =>
      cases h
      unfold clientLength State.resultPort
      split
      case isTrue hl => exact .inr ⟨hp, .inr (.inr (.inl ⟨raw, k, .inr (.inl ⟨hst, hl⟩), rfl⟩))⟩
      case isFalse hl => exact .inr ⟨hp, .inr (.inr (.inr (.inr (.inl ⟨raw, k, hst, by omega, rfl⟩))))⟩
    case h_5 raw k len hst =>
      cases h
      unfold clientCode State.resultPort
      split
      case isTrue hl => exact .inr ⟨hp, .inr (.inr (.inl ⟨raw, k, .inr (.inr ⟨⟨len, hst⟩, hl⟩), rfl⟩))⟩
      case isFalse hl => exact .inr ⟨hp, .inr (.inr (.inr (.inr (.inr (.inl ⟨raw, k, len, hst, hl, rfl⟩)))))⟩
    case h_6 raw k len got hst =>
      cases h
      unfold clientRead State.resultPort
      split
      case isTrue hl => exact .inr ⟨hp, .inr (.inr (.inr (.inr (.inr (.inr (.inl ⟨raw, k, len, got, hst, hl, rfl⟩))))))⟩
      case isFalse hl =>
        exact .inr ⟨hp, .inr (.inr (.inr (.inr (.inr (.inr (.inr ⟨raw, k, len, got, hst, by omega, rfl⟩))))))⟩

/-- A run of one step more. -/
theorem run_succ {n : Nat} {s t : State} (h : step s = .next t) : run (n + 1) s = run n t := by
  simp [run, h]

/-- The first step of a run that gets through. -/
theorem run_succ_cases {n : Nat} {s t : State} (h : run (n + 1) s = .next t) :
    ∃ u, step s = .next u ∧ run n u = .next t := by
  unfold run at h
  split at h
  · exact ⟨_, by assumption, h⟩
  · cases h
  · cases h

/-- Runs compose. -/
theorem run_add {m n : Nat} {s t : State} (h : run m s = .next t) : run (m + n) s = run n t := by
  induction m generalizing s with
  | zero => cases h; simp
  | succ m ih =>
    obtain ⟨u, hu, hr⟩ := run_succ_cases h
    rw [Nat.succ_add, run_succ hu, ih hr]

/-- An invariant of every step is one of every run. -/
theorem run_induction {P : State → Prop} (hs : ∀ s t, P s → step s = .next t → P t) {n : Nat} {s t : State}
    (h : P s) (hr : run n s = .next t) : P t := by
  induction n generalizing s with
  | zero => cases hr; exact h
  | succ n ih =>
    obtain ⟨u, hu, hr⟩ := run_succ_cases hr
    exact ih (hs s u h hu) hr

end Sys2Proof.Machine
end

