-- ==== Sys2Proof/Tests/Slice0.lean ====
section
/-! SUPPORT. The model's own tests. Expected values come from spec/95_test_vectors.md (named by their id L…), from the
bit patterns of 30_encoding.md R75, or from the rule a comment names. After them, for every statement with hypotheses, a
witness that meets them, at the boundary values of its clauses. -/

open Sys2Proof Sys2Proof.Machine Sys2Proof.Claims

namespace Sys2Proof.Tests

/-! ### Small states -/

/-- The reset state with the block `b`. -/
def withBlk (b : Block) : State := { State.reset with blk := b }

/-- A block with `q` queued and a frame open or not. -/
def encBlk (isOpen : Bool) (q : List Byte) : Block := { Block.reset with encOpen := isOpen, txq := q }

/-- A block whose DEC stands in `d` with cause `c` and the payload `p`. -/
def decBlk (d : DecSt) (c : DecCause) (p : List Byte) : Block :=
  { Block.reset with decSt := d, decCause := c, decLen := p.length, plb := p.mapIdx (fun k x => (k, x)) }

/-- A block whose RXD is receiving after `n` bytes with `f` flags among them. -/
def rxBlk (d : DecSt) (p : List Byte) (f n : Nat) : Block :=
  { decBlk d .none p with rxSt := .receiving, flagCnt := f, rawCnt := n }

/-- `s` with small buffers. -/
def sized (q p m : Nat) (s : State) : State :=
  { s with par := { txqDepth := q, plbDepth := p, maxFrameBytes := m, maxAttempts := 3, tByte := 1 } }

/-- `s` with the words `ws` on the port and the turns `ts` to come. -/
def offering (ws : List Word) (ts : List Turn) (s : State) : State :=
  { s with env.cmdPort := ws, env.turns := ts }

/-- `s` with the bytes `xs` in the transport and the turns `ts` to come. -/
def arriving (xs : List Byte) (ts : List Turn) (s : State) : State :=
  { s with env.rxIn := xs, env.turns := ts }

/-- `s` with the client in `c`, its calls `cs` waiting, and the turns `ts` to come. -/
def clienting (c : ClientSt) (cs : List (List Byte)) (ts : List Turn) (s : State) : State :=
  { s with env.client.st := c, env.client.calls := cs, env.turns := ts }

/-- What a field is after a result, where it is a next state. -/
def after {α : Type} (f : State → α) : Result → Option α
  | .next t => some (f t)
  | .fault _ => none
  | .refused _ => none

/-- The DEC fields after a result, with STATUS. -/
def decAfter : Result → Option (DecSt × DecCause × Nat × Word) :=
  after fun t => (t.blk.decSt, t.blk.decCause, t.blk.decLen, t.status)

/-- The queue and STATUS after a result. -/
def txAfter : Result → Option (List Byte × Word) := after fun t => (t.blk.txq, t.status)

/-! ### Well-formedness: an ill-formed term for each check -/

theorem test_params_ok : Params.vectors.wf = true := by decide
theorem test_params_txq_one : ({ Params.vectors with txqDepth := 1 } : Params).wf = false := by decide
theorem test_params_plb_zero : ({ Params.vectors with plbDepth := 0 } : Params).wf = false := by decide
theorem test_params_plb_256 : ({ Params.vectors with plbDepth := 256 } : Params).wf = false := by decide
theorem test_params_frame_one : ({ Params.vectors with maxFrameBytes := 1 } : Params).wf = false := by decide
theorem test_params_no_attempt : ({ Params.vectors with maxAttempts := 0 } : Params).wf = false := by decide
theorem test_params_no_duration : ({ Params.vectors with tByte := 0 } : Params).wf = false := by decide
theorem test_memory_unsorted : Memory.wf [(1, 0x41#8), (0, 0x42#8)] = false := by decide
theorem test_memory_repeated : Memory.wf [(1, 0x41#8), (1, 0x42#8)] = false := by decide
/-- R72: no byte is an ill-formed operand; a line of text can be (R82: 0 to 255). -/
theorem test_operand_256 : parseOperand "256".toList = none := by decide
theorem test_operand_255 : parseOperand "255".toList = some 0xFF#8 ∧ parseOperand "0xff".toList = some 0xFF#8 := by decide

/-! ### Decoding: one word per command, written out from R75's bit patterns -/

theorem test_word_nop : decode 0b00000000_10100101#16 = .ok .nop := by decide
theorem test_word_ck_clear : decode 0b00000001_11111111#16 = .ok .ckClear := by decide
theorem test_word_ck_add : decode 0b00000010_11111110#16 = .ok (.ckAdd 254#8) := by decide
theorem test_word_ck_read : decode 0b00000011_00000000#16 = .ok .ckRead := by decide
theorem test_word_enc_open : decode 0b00010000_00000000#16 = .ok .encOpen := by decide
theorem test_word_enc_byte : decode 0b00010001_00000101#16 = .ok (.encByte 5#8) := by decide
theorem test_word_enc_byte_acc : decode 0b00010010_01111110#16 = .ok (.encByteAcc 0x7E#8) := by decide
theorem test_word_enc_cksum : decode 0b00010011_00000000#16 = .ok .encCksum := by decide
theorem test_word_enc_close : decode 0b00010100_00000000#16 = .ok .encClose := by decide
theorem test_word_dec_clear : decode 0b00100000_00000000#16 = .ok .decClear := by decide
theorem test_word_dec_byte : decode 0b00100001_10000001#16 = .ok (.decByte 0x81#8) := by decide
theorem test_word_dec_last : decode 0b00100010_01111110#16 = .ok (.decLast 0x7E#8) := by decide
theorem test_word_pl_len : decode 0b00100011_00000000#16 = .ok .plLen := by decide
theorem test_word_pl_read : decode 0b00100100_00000001#16 = .ok (.plRead 1#8) := by decide
theorem test_word_rx_arm : decode 0b00110000_00000000#16 = .ok .rxArm := by decide
/-- R76, at the ends of its ranges. -/
theorem test_word_illegal : ∀ op ∈ [0x04#8, 0x0F#8, 0x15#8, 0x1F#8, 0x25#8, 0x2F#8, 0x31#8, 0xFF#8],
    decode (op ++ 0x00#8) = .error (.illegalOpcode op) := by decide
/-- A word shorter than the table's 16 bits has zeros above, and 16 bits are read whole. -/
theorem test_table_word : decodeTableWord 16 0x127E = some (.encByteAcc 0x7E#8) ∧ decodeTableWord 16 0x0400 = none ∧
    decodeTableWord 8 0x127E = some .nop := by decide
/-- 30_encoding.md R82: `ENC_BYTE_ACC 0x7E` is the word 0x127E; L2.1.1 gives CK_SUM's words. -/
theorem test_assemble_line : (assembleText "ENC_BYTE_ACC 0x7E ; a comment".toList).toOption = some [0x127E#16] := by
  decide
theorem test_assemble_ck_sum : (assembleText "CK_SUM 1, 2, 3, 4".toList).toOption =
    some [0x0100#16, 0x0201#16, 0x0202#16, 0x0203#16, 0x0204#16, 0x0300#16] := by decide
theorem test_assemble_empty_dec_frame : assembleDecFrame [] = .error .emptyDecFrame := by decide

/-! ### The source's functions (L1.1 to L1.8, and L2.3's decode column) -/

theorem test_checksum : checksum [] = 0x00#8 ∧ checksum [0x01#8, 0x02#8, 0x03#8, 0x04#8] = 0x0A#8 ∧
    checksum [0xFF#8, 0x01#8, 0x02#8, 0x03#8, 0x04#8] = 0x09#8 := by decide
theorem test_encode : frameEncode [0x7E#8, 0x7D#8, 0x02#8, 0x03#8, 0x04#8, 0x04#8] =
    [0x7E#8, 0x7D#8, 0x5E#8, 0x7D#8, 0x5D#8, 0x02#8, 0x03#8, 0x04#8, 0x04#8, 0x7E#8] := by decide
theorem test_encode_selectors : frameEncode [0x5E#8, 0x5D#8] = [0x7E#8, 0x5E#8, 0x5D#8, 0x7E#8] := by decide
theorem test_decode : frameDecode [0x7E#8, 0x7D#8, 0x5E#8, 0x7D#8, 0x5D#8, 0x02#8, 0x03#8, 0x04#8, 0x04#8, 0x7E#8] =
    some [0x7E#8, 0x7D#8, 0x02#8, 0x03#8, 0x04#8, 0x04#8] ∧ frameDecode [0x7E#8, 0x7E#8] = some [] := by decide
theorem test_decode_fails : frameDecode [0x7E#8, 0x01#8, 0x02#8] = none ∧ frameDecode [0x7E#8, 0x7D#8, 0x7E#8] = none ∧
    frameDecode [0x7E#8, 0x7D#8, 0x41#8, 0x7E#8] = none ∧ frameDecode [0x7E#8, 0x7D#8, 0x7E#8, 0x7E#8] = none ∧
    frameDecode [0x01#8, 0x7E#8] = none := by decide

/-! ### One step per command -/

/-- L2.1.5: FF + FF = FE, nothing in STATUS. -/
theorem test_ck_add : after (fun t => (t.blk.acc, t.status))
    (step ((withBlk { Block.reset with acc := 0xFF#8 }).withFetchWord 16 0x02FF)) = some (0xFE#8, 0x0800#16) := by decide
/-- L2.1.8. -/
theorem test_ck_clear : after (fun t => t.blk.acc)
    (step ((withBlk { Block.reset with acc := 0x5A#8 }).withFetchWord 16 0x01FF)) = some 0x00#8 := by decide
/-- L2.1.9. -/
theorem test_ck_read : after (fun t => (t.resultPort, t.blk.acc))
    (step ((withBlk { Block.reset with acc := 0x0A#8 }).withFetchWord 16 0x0300)) = some (0x0A#8, 0x0A#8) := by decide
/-- L2.2.1. -/
theorem test_enc_open : txAfter (step (State.reset.withFetchWord 16 0x1000)) = some ([0x7E#8], 0x0001#16) := by decide
/-- L2.2.13. -/
theorem test_enc_open_twice : txAfter (exec .encOpen (withBlk (encBlk true [0x7E#8]))) =
    some ([0x7E#8], 0x0401#16) := by decide
/-- L2.2.11. -/
theorem test_enc_byte_closed : txAfter (step (State.reset.withFetchWord 16 0x1105)) = some ([], 0x0C00#16) := by decide
/-- L2.6.2 and L2.6.3: held with one free byte, accepted with two. -/
theorem test_enc_byte_hold :
    txAfter (exec (.encByte 0x7E#8) (sized 2 64 256 (withBlk (encBlk true [0x01#8])))) = some ([0x01#8], 0x0001#16) ∧
    txAfter (exec (.encByte 0x7E#8) (sized 2 64 256 (withBlk (encBlk true [])))) =
      some ([0x7D#8, 0x5E#8], 0x1001#16) := by decide
/-- L2.2.8: the unstuffed byte is added. -/
theorem test_enc_byte_acc : after (fun t => (t.blk.txq, t.blk.acc))
    (exec (.encByteAcc 0x7E#8) (withBlk (encBlk true [0x7E#8]))) =
      some ([0x7E#8, 0x7D#8, 0x5E#8], 0x7E#8) := by decide
/-- L2.2.12: a rejected command adds nothing. -/
theorem test_enc_byte_acc_closed : after (fun t => (t.blk.acc, t.blk.cmdErr))
    (exec (.encByteAcc 0x05#8) (withBlk { Block.reset with acc := 0x05#8 })) = some (0x05#8, true) := by decide
/-- L2.2.10: the checksum byte is stuffed, and `acc` keeps it. -/
theorem test_enc_cksum : after (fun t => (t.blk.txq, t.blk.acc))
    (exec .encCksum (withBlk { encBlk true [0x7E#8] with acc := 0x7D#8 })) =
      some ([0x7E#8, 0x7D#8, 0x5D#8], 0x7D#8) := by decide
/-- L2.2.2. -/
theorem test_enc_close : txAfter (exec .encClose (withBlk (encBlk true [0x7E#8]))) =
    some ([0x7E#8, 0x7E#8], 0x0000#16) := by decide
/-- L2.3.28. -/
theorem test_dec_clear : decAfter (exec .decClear (withBlk (decBlk .bad .badEscape []))) =
    some (.idle, .none, 0, 0x0800#16) := by decide
/-- L2.3.24. -/
theorem test_dec_byte_bad_escape : decAfter (exec (.decByte 0x41#8) (withBlk (decBlk .esc .none []))) =
    some (.bad, .badEscape, 0, 0x0826#16) := by decide
/-- L2.3.19's third payload byte, PLB_DEPTH = 2: OVERFLOW, kept in BAD until the frame ends. -/
theorem test_dec_byte_overflow :
    decAfter (exec (.decByte 0x03#8) (sized 64 2 256 (withBlk (decBlk .body .none [0x01#8, 0x02#8])))) =
      some (.bad, .overflow, 0, 0x0866#16) := by decide
/-- L2.3.8. -/
theorem test_dec_last_esc : decAfter (exec (.decLast 0x7E#8) (withBlk (decBlk .esc .none []))) =
    some (.doneFail, .escAtEnd, 0, 0x083A#16) := by decide
/-- L2.3.27: from DONE_OK an implicit restart, then a frame of one byte. -/
theorem test_dec_last_short : decAfter (exec (.decLast 0x7E#8) (withBlk (decBlk .doneOk .none [0xF0#8, 0x08#8]))) =
    some (.doneFail, .shortFrame, 0, 0x085A#16) := by decide
/-- L2.5.6. -/
theorem test_pl_len : after State.resultPort
    (exec .plLen (withBlk (decBlk .doneOk .none [0x7E#8, 0x7D#8, 0x02#8, 0x03#8, 0x04#8, 0x04#8]))) =
      some 0x06#8 := by decide
/-- L2.5.1. -/
theorem test_pl_read : after State.resultPort
    (exec (.plRead 0x01#8) (withBlk (decBlk .doneOk .none [0xF0#8, 0x08#8, 0xF8#8]))) = some 0x08#8 := by decide
/-- L2.5.3. -/
theorem test_pl_read_beyond : after (fun t => (t.resultPort, t.status))
    (exec (.plRead 0x03#8) (withBlk (decBlk .doneOk .none [0xF0#8, 0x08#8, 0xF8#8]))) =
      some (0x00#8, 0x0C08#16) := by decide
/-- P4: STATUS after RX_ARM. -/
theorem test_rx_arm : after State.status (step (State.reset.withFetchWord 16 0x3000)) = some 0x0880#16 := by decide
/-- L2.4.18. -/
theorem test_rx_arm_twice : after State.status (exec .rxArm (withBlk (rxBlk .idle [] 0 0))) = some 0x0C80#16 := by decide
/-- L2.5.8. -/
theorem test_nop : after (fun t => t.blk) (step (State.reset.withFetchWord 16 0x00A5)) = some Block.reset := by decide
/-- L2.5.9. -/
theorem test_illegal : after (fun t => t.blk) (step (State.reset.withFetchWord 16 0xFF00)) =
    some { Block.reset with cmdErr := true } := by decide

/-- R59's last bullet, as far as R144 and R149 let it hold (log 24): every ENC and DEC command changes the block somewhere. -/
theorem test_enc_dec_change_state :
    (∀ i ∈ [Instr.encOpen], after (fun t => t.blk) (exec i State.reset) ≠ some Block.reset) ∧
    (∀ i ∈ [Instr.encByte 0x00#8, .encByteAcc 0x00#8, .encCksum, .encClose],
      after (fun t => t.blk) (exec i (withBlk (encBlk true []))) ≠ some (encBlk true [])) ∧
    (∀ i ∈ [Instr.decClear, .decByte 0x00#8, .decLast 0x00#8],
      after (fun t => t.blk) (exec i (withBlk (decBlk .body .none []))) ≠ some (decBlk .body .none [])) := by decide
/-- And every one of them but DEC_CLEAR changes the block again when it is repeated: each pair is a state after the
command, from which the command is given a second time. -/
theorem test_enc_dec_not_idempotent :
    ∀ c ∈ [(Instr.encOpen, encBlk true [0x7E#8]), (.encByte 0x00#8, encBlk true [0x00#8]),
        (.encByteAcc 0x00#8, encBlk true [0x00#8]), (.encCksum, encBlk true [0x00#8]), (.encClose, encBlk false [0x7E#8]),
        (.decByte 0x00#8, decBlk .body .none [0x00#8]), (.decLast 0x7E#8, decBlk .doneOk .none [])],
      after (fun t => t.blk) (exec c.1 (withBlk c.2)) ≠ some c.2 := by decide
/-- L2.3.25's first command: DEC_BYTE in BAD neither restarts DEC nor touches its cause (log 24, log 25). -/
theorem test_dec_byte_bad_absorbs : decAfter (exec (.decByte 0x41#8) (withBlk (decBlk .bad .badEscape []))) =
    some (.bad, .badEscape, 0, 0x0826#16) := by decide

/-! ### One step per event -/

/-- L2.4.3's second byte. -/
theorem test_rx_byte_done : decAfter (step (arriving [0x7E#8] [.rxByte] (withBlk (rxBlk .body [] 1 1)))) =
    some (.doneOk, .none, 0, 0x0908#16) := by decide
/-- L2.4.9's last byte: end of frame beats the length bound. -/
theorem test_rx_byte_end_beats_bound :
    decAfter (step (arriving [0x7E#8] [.rxByte] (sized 64 64 4 (withBlk (rxBlk .body [0x01#8, 0x02#8] 1 3))))) =
      some (.doneOk, .none, 2, 0x0908#16) := by decide
/-- L2.4.11's last byte. -/
theorem test_rx_byte_overflow :
    after State.status (step (arriving [0x7E#8] [.rxByte] (sized 64 64 4 (withBlk
      { rxBlk .bad [] 0 3 with decCause := .noOpenFlag })))) = some 0x0A00#16 := by decide
/-- L2.4.7's timeout. -/
theorem test_rx_timeout : after State.status (step (arriving [] [.rxTimeout] (withBlk (rxBlk .body [] 1 1)))) =
    some 0x0980#16 := by decide
/-- L2.6.3's pop. -/
theorem test_tx_pop : after (fun t => (t.blk.txq, t.env.txOut))
    (step (offering [] [.txPop] (withBlk (encBlk true [0x7E#8, 0x01#8])))) = some ([0x01#8], [0x7E#8]) := by decide
/-- L2.7.1. -/
theorem test_reset : after (fun t => (t.status, t.blk.txq)) (step (offering [] [.reset] (withBlk
    { rxBlk .body [] 1 1 with encOpen := true, txq := [0x7E#8, 0x01#8], cmdErr := true }))) =
      some (0x0800#16, []) := by decide
/-- STATUS before that reset (L2.7.1). -/
theorem test_status_before_reset : (withBlk
    { rxBlk .body [] 1 1 with encOpen := true, txq := [0x7E#8, 0x01#8], cmdErr := true }).status = 0x0483#16 := by decide
/-- L2.8.7: code 0x08 at the last attempt returns Empty after 3 writes. -/
theorem test_client_budget : after (fun t => t.env.client.returned)
    (step (clienting (.codeAsked [0x01#8] 3 3) [] [.client] (withBlk
      { decBlk .doneOk .none [0xF0#8, 0x08#8, 0xF8#8] with result := 0x08#8, rxSt := .done }))) =
      some [{ writes := 3, reply := .empty }] := by decide
/-- L2.8.2: another code is final, and its payload is read out. -/
theorem test_client_final : after (fun t => (t.env.cmdPort, t.env.client.st))
    (step (clienting (.codeAsked [0x01#8] 1 3) [] [.client] (withBlk
      { decBlk .doneOk .none [0xF0#8, 0x03#8, 0xF3#8] with result := 0x03#8, rxSt := .done }))) =
      some ([0x2400#16], .reading [0x01#8] 1 3 []) := by decide

/-! ### Witnesses: encoding and the accumulator -/

theorem witness_DecodeOfEncode : (Instr.ckAdd 0x00#8).wf = true ∧ (Instr.plRead 0xFF#8).wf = true ∧
    Instr.nop.wf = true := by decide
theorem witness_DecodedWordReadWhole : decode 0x24FF#16 = .ok (.plRead 0xFF#8) ∧ decode 0x00FF#16 = .ok .nop := by decide
theorem witness_NineCommandsIgnoreLowByte :
    Instr.nop ∈ ([.nop, .ckClear, .ckRead, .encOpen, .encCksum, .encClose, .decClear, .plLen, .rxArm] : List Instr) ∧
    Instr.rxArm ∈ ([.nop, .ckClear, .ckRead, .encOpen, .encCksum, .encClose, .decClear, .plLen, .rxArm] : List Instr) := by
  decide
/-- An illegal word on the port; the legal neighbours of R76's ranges decode (its own ends: test_word_illegal). -/
theorem witness_IllegalWordOnlySetsCmdErr :
    (offering [0x04FF#16] [.command] State.reset).env.turns = .command :: [] ∧
    (offering [0x04FF#16] [.command] State.reset).env.cmdPort = 0x04FF#16 :: [] ∧
    (∀ i, decode 0x04FF#16 ≠ .ok i) ∧
    ∀ op ∈ [0x03#8, 0x10#8, 0x14#8, 0x20#8, 0x24#8, 0x30#8], (decode (op ++ 0x00#8)).toOption.isSome = true := by
  refine ⟨rfl, rfl, fun i h => ?_, by decide⟩
  have e : decode 0x04FF#16 = .error (.illegalOpcode 0x04#8) := by decide
  rw [e] at h
  cases h
theorem witness_StepRunsDecodedCommand :
    (offering [0x0201#16] [.command, .txPop] State.reset).env.turns = .command :: [.txPop] ∧
    (offering [0x0201#16] [.command, .txPop] State.reset).env.cmdPort = 0x0201#16 :: [] ∧
    decode 0x0201#16 = .ok (.ckAdd 0x01#8) := by decide
theorem witness_ChecksumLaws : [0x01#8, 0x02#8].Perm [0x02#8, 0x01#8] := List.Perm.swap _ _ _

/-- CK_SUM FF, 01 offered, with a turn for each command. -/
def ckSumOffered : State :=
  offering (assembleWords (ckSum [0xFF#8, 0x01#8])) (List.replicate 4 .command) State.reset
theorem witness_CkSumComputesChecksum :
    ckSumOffered.env.cmdPort = assembleWords (ckSum [0xFF#8, 0x01#8]) ++ [] ∧
    ckSumOffered.env.turns = List.replicate (ckSum [0xFF#8, 0x01#8]).length .command ++ [] := by decide

/-- CK_SUM 01 with a NOP and an encoder command among its commands, and a pop between them. -/
def ckSumMixed : State :=
  offering (assembleWords [.ckClear, .nop, .encOpen, .ckAdd 0x01#8, .ckRead])
    [.command, .command, .command, .txPop, .command, .command] State.reset
theorem witness_CkSumInterleaved :
    [Instr.ckClear, .nop, .encOpen, .ckAdd 0x01#8].filter writesAcc = .ckClear :: [0x01#8].map .ckAdd ∧
    ckSumMixed.env.cmdPort = assembleWords ([.ckClear, .nop, .encOpen, .ckAdd 0x01#8] ++ [.ckRead]) ∧
    (∀ τ ∈ ckSumMixed.env.turns, hostAndTransport τ) ∧
    ∃ t, run 6 ckSumMixed = .next t ∧ t.env.cmdPort = [] :=
  ⟨by decide, by decide, by simp [ckSumMixed, offering, hostAndTransport], _, rfl, rfl⟩
theorem witness_AccWriters :
    ∃ t, step (offering [0x0201#16] [.command] State.reset) = .next t ∧
      t.blk.acc ≠ (offering [0x0201#16] [.command] State.reset).blk.acc := ⟨_, rfl, by decide⟩

/-! ### Witnesses: the encoder -/

/-- EncodeLaws: a byte that is neither FLAG nor ESC, and an escape inside an encoding. -/
theorem witness_EncodeLaws : 0x00#8 ≠ 0x7E#8 ∧ 0x00#8 ≠ 0x7D#8 ∧ frameEncode [] = frameEncode [] ∧
    [0x7D#8, 0x5E#8][0]? = some 0x7D#8 := by decide

/-- A TXQ_DEPTH of 2 with `n` bytes queued, the frame open or not. -/
def nearlyFull (isOpen : Bool) (n : Nat) : State :=
  sized 2 64 256 (withBlk { encBlk isOpen (List.replicate n 0x01#8) with acc := 0x7E#8 })

theorem witness_EncOpenEmitsFlag : (nearlyFull true 2).blk.encOpen = true ∧
    ((nearlyFull false 2).blk.encOpen = false ∧ free (nearlyFull false 2) < 1) ∧
    ((nearlyFull false 1).blk.encOpen = false ∧ 1 ≤ free (nearlyFull false 1)) := by decide
theorem witness_EncByteEmitsStuffed : (nearlyFull false 2).blk.encOpen = false ∧
    ((nearlyFull true 1).blk.encOpen = true ∧ free (nearlyFull true 1) < (stuff 0x7E#8).length) ∧
    ((nearlyFull true 0).blk.encOpen = true ∧ (stuff 0x7E#8).length ≤ free (nearlyFull true 0)) ∧
    (stuff 0x05#8).length ≤ free (nearlyFull true 1) := by decide
theorem witness_EncByteAccEmitsAndSums : (nearlyFull false 0).blk.encOpen = false ∧
    ((nearlyFull true 1).blk.encOpen = true ∧ free (nearlyFull true 1) < (stuff 0x7D#8).length) ∧
    ((nearlyFull true 0).blk.encOpen = true ∧ (stuff 0x7D#8).length ≤ free (nearlyFull true 0)) := by decide
theorem witness_EncCksumEmitsAcc : (nearlyFull false 0).blk.encOpen = false ∧
    ((nearlyFull true 1).blk.encOpen = true ∧ free (nearlyFull true 1) < (stuff (nearlyFull true 1).blk.acc).length) ∧
    ((nearlyFull true 0).blk.encOpen = true ∧ (stuff (nearlyFull true 0).blk.acc).length ≤ free (nearlyFull true 0)) := by
  decide
theorem witness_EncCloseEmitsFlag : (nearlyFull false 2).blk.encOpen = false ∧
    ((nearlyFull true 2).blk.encOpen = true ∧ free (nearlyFull true 2) < 1) ∧
    ((nearlyFull true 1).blk.encOpen = true ∧ 1 ≤ free (nearlyFull true 1)) := by decide

/-- ENC_FRAME 7E offered to a queue its four bytes fill exactly. -/
def encFrameOffered : State :=
  sized 4 64 256 (offering (assembleWords (encFrame [0x7E#8])) (List.replicate 3 .command) State.reset)
theorem witness_EncFrameRuns : encFrameOffered.blk.encOpen = false ∧
    encFrameOffered.blk.txq.length + (frameEncode [0x7E#8]).length = encFrameOffered.par.txqDepth ∧
    encFrameOffered.env.cmdPort = assembleWords (encFrame [0x7E#8]) ++ [] ∧
    encFrameOffered.env.turns = List.replicate (encFrame [0x7E#8]).length .command ++ [] := by decide

/-- ENC_FRAME 01 through a queue of two bytes: its last command is held once. -/
def encFrameHeld : State :=
  sized 2 64 256 (offering (assembleWords (encFrame [0x01#8])) [.command, .command, .command, .txPop, .command] State.reset)
theorem witness_EncFrameStreamsEncode : encFrameHeld.blk.encOpen = false ∧
    encFrameHeld.env.cmdPort = assembleWords (encFrame [0x01#8]) ∧
    (∀ τ ∈ encFrameHeld.env.turns, hostAndTransport τ) ∧ ∃ t, run 5 encFrameHeld = .next t ∧ t.env.cmdPort = [] :=
  ⟨by decide, by decide, by simp [encFrameHeld, sized, offering, hostAndTransport], _, rfl, rfl⟩

/-- SEND_MSG 7E offered, with pops among the host's turns. -/
def sendMsgOffered : State :=
  offering (assembleWords (sendMsg [0x7E#8])) [.command, .command, .txPop, .command, .command, .txPop, .command] State.reset
theorem witness_SendMsgStreamsMessage : sendMsgOffered.blk.encOpen = false ∧
    sendMsgOffered.env.cmdPort = assembleWords (sendMsg [0x7E#8]) ∧
    (∀ τ ∈ sendMsgOffered.env.turns, hostAndTransport τ) ∧ ∃ t, run 7 sendMsgOffered = .next t ∧ t.env.cmdPort = [] :=
  ⟨by decide, by decide, by simp [sendMsgOffered, offering, hostAndTransport], _, rfl, rfl⟩
theorem witness_EncCommutesWithReceive : isEnc .encOpen = true ∧ isEnc (.encByte 0x7E#8) = true ∧
    isEnc (.encByteAcc 0x7E#8) = true ∧ isEnc .encCksum = true ∧ isEnc .encClose = true := by decide

/-! ### Witnesses: the command port -/

theorem witness_HoldRule : need (.encByte 0x7E#8) (nearlyFull true 0).blk = free (nearlyFull true 0) ∧
    free (nearlyFull true 1) < need (.encByte 0x7E#8) (nearlyFull true 1).blk ∧
    (offering [0x117E#16] [] (nearlyFull true 1)).env.cmdPort = 0x117E#16 :: [] ∧
    decode 0x117E#16 = .ok (.encByte 0x7E#8) := by decide
/-- L2.6.4: ENC_CLOSE is held by a full queue, until one pop. -/
theorem witness_OnlyPopLiftsHold : (offering [0x1400#16] [.txPop] (nearlyFull true 2)).cmdReady = false ∧
    ∃ t, step (offering [0x1400#16] [.txPop] (nearlyFull true 2)) = .next t ∧ t.cmdReady = true :=
  ⟨by decide, _, rfl, by decide⟩
/-- Two bytes free, and a full queue with as many pops to come as it has bytes (k = 2 = |txq|, where the clauses meet). -/
theorem witness_PopsLiftEveryHold : (nearlyFull true 0).par.wf = true ∧
    (nearlyFull true 0).blk.txq.length + 2 = (nearlyFull true 0).par.txqDepth ∧
    (offering [0x117E#16] [.txPop, .txPop] (nearlyFull true 2)).par.wf = true ∧
    2 = (offering [0x117E#16] [.txPop, .txPop] (nearlyFull true 2)).blk.txq.length ∧
    (offering [0x117E#16] [.txPop, .txPop] (nearlyFull true 2)).blk.txq.length =
      (offering [0x117E#16] [.txPop, .txPop] (nearlyFull true 2)).par.txqDepth ∧
    (offering [0x117E#16] [.txPop, .txPop] (nearlyFull true 2)).env.turns = List.replicate 2 .txPop ++ [] := by decide
/-- A command of each kind of R231's table: by the frame state, by the receive state, by the index (at its bound). -/
theorem witness_RejectedExactlyByTable : isRejected .encOpen (encBlk true []) ∧ isRejected .encClose (encBlk false []) ∧
    isRejected .rxArm (rxBlk .idle [] 0 0) ∧ (∀ k, Instr.rxArm ≠ .plRead k) ∧
    isRejected (.plRead 0x01#8) (decBlk .doneOk .none [0x41#8]) ∧
    ¬ isRejected (.plRead 0x00#8) (decBlk .doneOk .none [0x41#8]) :=
  ⟨rfl, rfl, rfl, fun _ h => (nomatch h), .inr (by decide), by simp [isRejected, decBlk]⟩
/-- An illegal word on the port, and a step that raises CMD_ERR. -/
theorem witness_RejectedExactlyByTable_illegal : (offering [0xFF00#16] [.command] State.reset).env.cmdPort = 0xFF00#16 :: [] ∧
    decode 0xFF00#16 = .error (.illegalOpcode 0xFF#8) ∧
    (offering [0xFF00#16] [.command] State.reset).blk.cmdErr = false ∧
    ∃ t, step (offering [0xFF00#16] [.command] State.reset) = .next t ∧ t.blk.cmdErr = true :=
  ⟨rfl, by decide, rfl, _, rfl, by decide⟩
theorem witness_CmdErrSticky : ∃ t, step (offering [] [.reset] (withBlk { Block.reset with cmdErr := true })) = .next t ∧
    (withBlk { Block.reset with cmdErr := true }).blk.cmdErr = true ∧ t.blk.cmdErr = false := ⟨_, rfl, rfl, rfl⟩

/-! ### Witnesses: the decoder -/

theorem witness_DecStepIsPseudocode : (decBlk .body .none [0x01#8, 0x02#8]).decLen ≤ 2 := by decide
theorem witness_DecClearRestarts : (withBlk (rxBlk .bad [] 0 0)).blk.rxSt = .receiving ∧
    (withBlk (decBlk .bad .badEscape [])).blk.rxSt ≠ .receiving := by decide
/-- Each clause's state of DEC, with a payload one below PLB_DEPTH = 2 and at it. -/
theorem witness_DecByteSteps : (withBlk (rxBlk .idle [] 0 0)).blk.rxSt = .receiving ∧
    (∀ d ∈ [DecSt.idle, .body, .esc, .bad, .doneOk, .doneFail], (decBlk d .none []).rxSt ≠ .receiving ∧
      (decBlk d .none []).decSt = d) ∧
    (sized 2 2 9 (withBlk (decBlk .body .none [0x01#8]))).blk.decLen + 1 = (sized 2 2 9 State.reset).par.plbDepth ∧
    (sized 2 2 9 (withBlk (decBlk .esc .none [0x01#8, 0x02#8]))).blk.decLen = (sized 2 2 9 State.reset).par.plbDepth ∧
    0x5C#8 ≠ 0x5E#8 ∧ 0x5C#8 ≠ 0x5D#8 ∧ 0x7E#8 ≠ 0x7D#8 ∧ 0x7D#8 ≠ 0x7E#8 := by decide
theorem witness_DecLastFinishes : (withBlk (rxBlk .idle [] 0 0)).blk.rxSt = .receiving ∧
    (∀ d ∈ [DecSt.idle, .body, .esc, .bad, .doneOk, .doneFail], (decBlk d .none []).rxSt ≠ .receiving ∧
      (decBlk d .none []).decSt = d) ∧ 0x7D#8 ≠ 0x7E#8 := by decide
theorem witness_DecStepFrame : 1 ≠ (decBlk .body .none [0x01#8, 0x02#8]).decLen ∧
    3 ≠ (decBlk .body .none [0x01#8, 0x02#8]).decLen ∧ true = true := by decide

/-- DEC_FRAME f offered, with a turn for each command. -/
def decFrameOffered (f : List Byte) (n : Nat) : State :=
  offering (assembleWords (decFrame f)) (List.replicate n .command) State.reset
/-- A frame that decodes into the buffer, one that does not fit it (PLB_DEPTH = 1, at and above), and one that fails. -/
theorem witness_DecFrameEqualsDecode : [0x7E#8] ≠ [] ∧ State.reset.blk.rxSt ≠ .receiving ∧
    (decFrameOffered [0x7E#8] 2).env.cmdPort = assembleWords (decFrame [0x7E#8]) ++ [] ∧
    (decFrameOffered [0x7E#8] 2).env.turns = List.replicate (decFrame [0x7E#8]).length .command ++ [] ∧
    frameDecode [0x7E#8, 0x01#8, 0x7E#8] = some [0x01#8] ∧ [0x01#8].length ≤ 1 ∧
    frameDecode [0x7E#8, 0x01#8, 0x02#8, 0x7E#8] = some [0x01#8, 0x02#8] ∧ 1 < [0x01#8, 0x02#8].length ∧
    frameDecode [0x7E#8] = none := by decide
theorem witness_RoundTripThroughDec : (sized 2 1 9 (decFrameOffered (frameEncode [0x7E#8]) 5)).blk.rxSt ≠ .receiving ∧
    [0x7E#8].length ≤ (sized 2 1 9 (decFrameOffered (frameEncode [0x7E#8]) 5)).par.plbDepth ∧
    (sized 2 1 9 (decFrameOffered (frameEncode [0x7E#8]) 5)).env.cmdPort =
      assembleWords (decFrame (frameEncode [0x7E#8])) ++ [] ∧
    (sized 2 1 9 (decFrameOffered (frameEncode [0x7E#8]) 5)).env.turns =
      List.replicate (decFrame (frameEncode [0x7E#8])).length .command ++ [] := by decide
theorem witness_DecodeIsLenient : 0x7D#8 ∉ [0x7E#8] := by decide

/-! ### Witnesses: the receive side -/

theorem witness_RxArmStartsReceive : (withBlk (rxBlk .bad [] 0 3)).blk.rxSt = .receiving ∧
    (withBlk { Block.reset with rxSt := .timeout }).blk.rxSt ≠ .receiving := by decide

/-- A byte waits for an unarmed RXD; for an armed one: the second FLAG (at MAX_FRAME_BYTES = 4 too, where the clauses
meet), the byte at the bound, and the byte before it. -/
theorem witness_RxByteCountsAndEnds :
    (arriving [0x7E#8] [.rxByte] State.reset).blk.rxSt ≠ .receiving ∧
    (∀ n ∈ [2, 3], (rxBlk .body [] 1 n).rxSt = .receiving ∧ (rxBlk .body [] 1 n).flagCnt + 1 = 2) ∧
    ((rxBlk .body [] 1 3).rawCnt + 1 = (sized 2 2 4 State.reset).par.maxFrameBytes ∧ 0x41#8 ≠ 0x7E#8) ∧
    ((rxBlk .idle [] 0 3).rawCnt + 1 = (sized 2 2 4 State.reset).par.maxFrameBytes ∧ (rxBlk .idle [] 0 3).flagCnt + 1 ≠ 2) ∧
    ((rxBlk .body [] 1 2).rawCnt + 1 ≠ (sized 2 2 4 State.reset).par.maxFrameBytes) ∧
    (arriving [0x7E#8] [.rxByte] (withBlk (rxBlk .body [] 1 3))).env.rxIn = 0x7E#8 :: [] ∧
    (arriving [0x7E#8] [.rxByte] (withBlk (rxBlk .body [] 1 3))).env.turns = .rxByte :: [] := by decide
theorem witness_RxTimeoutAborts : (arriving [] [.rxTimeout] State.reset).env.turns = .rxTimeout :: [] ∧
    (withBlk (rxBlk .body [] 1 1)).blk.rxSt = .receiving ∧ State.reset.blk.rxSt ≠ .receiving := by decide
theorem witness_RxdOwnsDecoder : ∃ t, (withBlk (rxBlk .body [] 1 1)).blk.rxSt = .receiving ∧
    (offering [0x2000#16] [.command] (withBlk (rxBlk .body [] 1 1))).env.turns = .command :: [] ∧
    step (offering [0x2000#16] [.command] (withBlk (rxBlk .body [] 1 1))) = .next t := ⟨_, rfl, rfl, rfl⟩

/-- A frame of exactly MAX_FRAME_BYTES = 4 waits, with a byte of the next after it. -/
def frameWaiting : State :=
  sized 64 64 4 (arriving [0x7E#8, 0x01#8, 0x02#8, 0x7E#8, 0x05#8] (List.replicate 4 .rxByte) (withBlk (rxBlk .idle [] 0 0)))
theorem witness_ReceiveEqualsDecode : justArmed frameWaiting.blk ∧
    readFrame frameWaiting.env.rxIn = some ([0x7E#8, 0x01#8, 0x02#8, 0x7E#8], [0x05#8]) ∧
    [0x7E#8, 0x01#8, 0x02#8, 0x7E#8].length = frameWaiting.par.maxFrameBytes ∧
    frameWaiting.env.turns = List.replicate [0x7E#8, 0x01#8, 0x02#8, 0x7E#8].length .rxByte ++ [] :=
  ⟨⟨rfl, rfl, rfl, rfl, rfl, rfl⟩, by decide, by decide, by decide⟩

/-- L2.4.11's bytes, and one byte fewer with a timeout after them (MAX_FRAME_BYTES = 4). -/
def noSecondFlag (xs : List Byte) (ts : List Turn) : State :=
  sized 64 64 4 (arriving xs ts (withBlk (rxBlk .idle [] 0 0)))
theorem witness_ReceiveAborts : justArmed (noSecondFlag [] []).blk ∧
    ([0x01#8, 0x02#8, 0x03#8, 0x7E#8].count 0x7E#8 ≤ 1 ∧
      [0x01#8, 0x02#8, 0x03#8, 0x7E#8].length = (noSecondFlag [] []).par.maxFrameBytes ∧
      1 ≤ (noSecondFlag [] []).par.maxFrameBytes ∧
      (noSecondFlag [0x01#8, 0x02#8, 0x03#8, 0x7E#8] (List.replicate 4 .rxByte)).env.rxIn =
        [0x01#8, 0x02#8, 0x03#8, 0x7E#8] ++ []) ∧
    ([0x7E#8, 0x02#8, 0x03#8].count 0x7E#8 ≤ 1 ∧
      [0x7E#8, 0x02#8, 0x03#8].length + 1 = (noSecondFlag [] []).par.maxFrameBytes ∧
      (noSecondFlag [0x7E#8, 0x02#8, 0x03#8] (List.replicate 3 .rxByte ++ [.rxTimeout])).env.turns =
        List.replicate [0x7E#8, 0x02#8, 0x03#8].length .rxByte ++ [.rxTimeout] ++ []) :=
  ⟨⟨rfl, rfl, rfl, rfl, rfl, rfl⟩, by decide, by decide⟩

/-! ### Witnesses: payload read-out and ports -/

/-- DEC_LEN = PLB_DEPTH = 255, the largest. -/
theorem witness_PlLenCopiesLength :
    (sized 64 255 256 (withBlk { Block.reset with decLen := 255 })).par.wf = true ∧
    (sized 64 255 256 (withBlk { Block.reset with decLen := 255 })).blk.decLen = 255 := by decide
/-- The last index of a finished payload, and the first beyond it. -/
theorem witness_PlReadReadsPayload : (decBlk .doneOk .none [0x41#8, 0x42#8]).decSt = .doneOk ∧
    (0x01#8).toNat < (decBlk .doneOk .none [0x41#8, 0x42#8]).decLen ∧
    (decBlk .doneOk .none [0x41#8, 0x42#8]).plb.read? (0x01#8).toNat = some 0x42#8 ∧
    (decBlk .doneOk .none [0x41#8, 0x42#8]).decLen ≤ (0x02#8).toNat ∧
    (decBlk .body .none [0x41#8, 0x42#8]).decSt ≠ .doneOk := by decide

/-- A finished payload of one byte, in the invariant; the client's turn is next. -/
def payloadRead : State := clienting .idle [[0x01#8]] [.client] (withBlk (decBlk .doneOk .none [0x41#8]))
theorem witness_inv : Inv payloadRead where
  par := by decide
  cause := by decide
  len_zero := by decide
  len_le := by decide
  txq_le := by decide
  receiving := by decide
  no_flag_yet := by decide
  flags_le := by decide
  raw_le := by decide
  plb_wf := by decide
  plb_index := by decide
  plb_written := by
    intro k hk
    have : k = 0 := by
      have : k < 1 := hk
      omega
    subst this
    rfl
/-- R191's last corner case: the invariant with DEC failed and no payload. -/
theorem witness_PlLenCopiesLength_failed : Inv (withBlk (decBlk .doneFail .shortFrame [])) ∧
    (withBlk (decBlk .doneFail .shortFrame [])).blk.decSt = .doneFail := by
  refine ⟨⟨?_, ?_, ?_, ?_, ?_, ?_, ?_, ?_, ?_, ?_, ?_, ?_⟩, rfl⟩ <;> decide
theorem witness_PlReadNeverUnspecified : Inv payloadRead ∧ payloadRead.blk.decSt = .doneOk ∧
    (0x00#8).toNat < payloadRead.blk.decLen := ⟨witness_inv, by decide, by decide⟩
theorem witness_ResultWriters : ∃ t,
    step (offering [0x2300#16] [.command] (withBlk (decBlk .doneOk .none [0x41#8]))) = .next t ∧
      t.blk.result ≠ (withBlk (decBlk .doneOk .none [0x41#8])).blk.result := ⟨_, rfl, by decide⟩
theorem witness_TxPopTakesHead : (offering [] [.txPop] (nearlyFull true 1)).env.turns = .txPop :: [] ∧
    (offering [] [.txPop] (nearlyFull true 1)).blk.txq = 0x01#8 :: [] ∧
    (offering [] [.txPop] (nearlyFull true 0)).blk.txq = [] := by decide
theorem witness_TxStreamOnlyGrows : ∃ t, step (offering [0x1000#16] [.command] State.reset) = .next t ∧
    (offering [0x1000#16] [.command] State.reset).env.turns.head? ≠ some .reset ∧
    t.env.txOut ++ t.blk.txq = [] ++ [0x7E#8] := ⟨_, rfl, by decide, by decide⟩

/-! ### Witnesses: the whole machine -/

theorem witness_ResetEventResetsBlock : (offering [] [.reset] (nearlyFull true 2)).env.turns = .reset :: [] ∧
    1 ≤ (offering [] [.reset] (nearlyFull true 2)).par.txqDepth := by decide
theorem witness_StepKeepsInvariant : Inv payloadRead ∧ ∃ t, step payloadRead = .next t := ⟨witness_inv, _, rfl⟩
/-- The one refusal (R203). -/
theorem witness_NothingStopsTheBlock : step (clienting .idle [[]] [.client] State.reset) = .refused .emptyRawMessage ∧
    (clienting .idle [[]] [.client] State.reset).env.turns.head? = some .client ∧
    (clienting .idle [[]] [.client] State.reset).env.client.calls.head? = some [] := ⟨rfl, rfl, rfl⟩
/-- A frame left open, its next command held, and no pop to come: stuck. -/
theorem witness_StuckStaysStuck : (offering [0x1400#16] [.command] (nearlyFull true 2)).stuck = true ∧
    ∃ t, step (offering [0x1400#16] [.command] (nearlyFull true 2)) = .next t := ⟨by decide, _, rfl⟩

/-- R239's last row, with the reset still to come and without it (log 26). -/
theorem test_stuck_receive : (offering [] [] (withBlk (rxBlk .body [] 1 1))).stuck = true ∧
    (offering [] [.reset] (withBlk (rxBlk .body [] 1 1))).stuck = false := by decide

/-! ### Witnesses: the reference client -/

theorem witness_ClientSendsAndArms :
    (clienting .idle [] [.client] State.reset).env.turns = .client :: [] ∧
    (offering [0x3000#16] [.client] State.reset).env.cmdPort ≠ [] ∧
    ((clienting .idle [] [.client] State.reset).env.cmdPort = [] ∧
      (clienting .idle [] [.client] State.reset).env.client.st = .idle ∧
      (clienting .idle [] [.client] State.reset).env.client.calls = []) ∧
    (clienting .idle [[], [0x01#8]] [.client] State.reset).env.client.calls = [] :: [[0x01#8]] ∧
    ((clienting .idle [[0x01#8]] [.client] State.reset).env.client.calls = [0x01#8] :: [] ∧ [0x01#8] ≠ [] ∧
      1 ≤ State.reset.par.maxAttempts) ∧
    (clienting (.sending [0x01#8] 1 [0x1400#16]) [] [.client] State.reset).env.client.st =
      .sending [0x01#8] 1 (0x1400#16 :: []) ∧
    (clienting (.sending [0x01#8] 1 []) [] [.client] State.reset).env.client.st = .sending [0x01#8] 1 [] := by decide

/-- The client in `c` with `r` on RESULT and RXD in `x`. -/
def deciding (c : ClientSt) (r : Byte) (x : RxSt) (d : DecSt) : State :=
  clienting c [] [.client] (withBlk { decBlk d .none [0xF0#8, 0x03#8] with result := r, rxSt := x })
/-- Each clause's state, RESULT at 1 and 2 for the length, at 0x08 and 0x07 for the code, the last and the next-to-last
byte of a payload, and the attempts at MAX_ATTEMPTS = 3 and below. -/
theorem witness_ClientDecides :
    (∀ s ∈ [deciding (.awaiting [0x01#8] 1) 0 .receiving .body, deciding (.awaiting [0x01#8] 2) 0 .timeout .idle,
        deciding (.awaiting [0x01#8] 3) 0 .overflow .idle, deciding (.awaiting [0x01#8] 3) 0 .done .doneFail,
        deciding (.awaiting [0x01#8] 3) 0 .done .doneOk, deciding (.lenAsked [0x01#8] 2) 1 .done .doneOk,
        deciding (.lenAsked [0x01#8] 3) 2 .done .doneOk, deciding (.codeAsked [0x01#8] 3 2) 0x08 .done .doneOk,
        deciding (.codeAsked [0x01#8] 3 2) 0x07 .done .doneOk, deciding (.reading [0x01#8] 3 2 []) 0 .done .doneOk,
        deciding (.reading [0x01#8] 3 2 [0xF0#8]) 0 .done .doneOk],
      s.env.turns = .client :: [] ∧ s.env.cmdPort = []) ∧
    (deciding (.awaiting [0x01#8] 1) 0 .receiving .body).blk.rxSt = .receiving ∧
    (deciding (.awaiting [0x01#8] 2) 0 .timeout .idle).blk.rxSt = .timeout ∧
    (deciding (.awaiting [0x01#8] 3) 0 .overflow .idle).blk.rxSt = .overflow ∧
    ((deciding (.awaiting [0x01#8] 3) 0 .done .doneFail).blk.rxSt ≠ .receiving ∧
      (deciding (.awaiting [0x01#8] 3) 0 .done .doneFail).blk.decSt = .doneFail) ∧
    ((deciding (.awaiting [0x01#8] 3) 0 .done .doneOk).blk.rxSt = .done ∧
      (deciding (.awaiting [0x01#8] 3) 0 .done .doneOk).blk.decSt ≠ .doneFail) ∧
    (deciding (.lenAsked [0x01#8] 2) 1 .done .doneOk).blk.result.toNat < 2 ∧
    2 ≤ (deciding (.lenAsked [0x01#8] 3) 2 .done .doneOk).blk.result.toNat ∧
    (deciding (.codeAsked [0x01#8] 3 2) 0x08 .done .doneOk).blk.result = 0x08#8 ∧
    (deciding (.codeAsked [0x01#8] 3 2) 0x07 .done .doneOk).blk.result ≠ 0x08#8 ∧
    2 < State.reset.par.maxAttempts ∧ State.reset.par.maxAttempts ≤ 3 ∧
    ([] : List Byte).length + 1 < 2 ∧ 2 ≤ [0xF0#8].length + 1 := by decide

/-- A call whose one allowed attempt times out: the client's moves, each command's acceptance, and the timeout. -/
def oneAttempt : State :=
  { clienting .idle [[0x01#8]]
      ([.client] ++ [.client, .command] ++ [.client, .command] ++ [.client, .command] ++ [.client, .command] ++
        [.client, .command] ++ [.client, .command] ++ [.rxTimeout, .client]) State.reset with
    par := { Params.vectors with maxAttempts := 1 } }
/-- A call in progress after one turn, at the last attempt; and the call returned. -/
theorem witness_ClientKeepsBudget : oneAttempt.env.client.st = .idle ∧ oneAttempt.env.client.returned = [] ∧
    1 ≤ oneAttempt.par.maxAttempts ∧
    (∃ t, run 1 oneAttempt = .next t ∧ attemptOf t.env.client.st = some 1) ∧
    ∃ t, run 15 oneAttempt = .next t ∧ ({ writes := 1, reply := .empty } : Returned) ∈ t.env.client.returned :=
  ⟨rfl, rfl, by decide, ⟨_, rfl, rfl⟩, _, rfl, by decide⟩
theorem witness_ClientNeverMisusesPort : Inv payloadRead ∧ payloadRead.env.client.st = .idle ∧
    payloadRead.env.cmdPort = [] ∧ payloadRead.blk.encOpen = false ∧ payloadRead.blk.rxSt ≠ .receiving ∧
    payloadRead.blk.cmdErr = false ∧ (∀ τ ∈ payloadRead.env.turns, τ ≠ .reset) ∧
    ∃ t, run 1 payloadRead = .next t :=
  ⟨witness_inv, rfl, rfl, rfl, by decide, rfl, by decide, _, rfl⟩

/-- The frame sent and the reply awaited after 12 turns; the call returned after 15. -/
theorem witness_ClientWritesItsFrames : oneAttempt.env.client.st = .idle ∧ oneAttempt.env.client.returned = [] ∧
    oneAttempt.env.cmdPort = [] ∧ oneAttempt.blk.encOpen = false ∧ (∀ τ ∈ oneAttempt.env.turns, τ ≠ .reset) ∧
    (∃ t, run 12 oneAttempt = .next t ∧ frameSent t.env.client.st = some ([0x01#8], 1)) ∧
    ∃ t, run 15 oneAttempt = .next t ∧ t.env.client.st = .idle :=
  ⟨rfl, rfl, rfl, rfl, by decide, ⟨_, rfl, rfl⟩, _, rfl, rfl⟩

end Sys2Proof.Tests
end

section
/-! A host turn with a word on the port (00_scope.md R10, 30_encoding.md R71): the rule of one step, stated over the
state in which the turn has been taken. -/

namespace Sys2Proof.Proofs

open Sys2Proof Sys2Proof.Machine Sys2Proof.Claims

/-- Taking the turn at the head leaves the turns after it, and nothing else changes. -/
theorem takeTurn_of_cons {s : State} {t : Turn} {ts : List Turn} (h : s.env.turns = t :: ts) :
    s.takeTurn = { s with env.turns := ts } := by
  rw [State.takeTurn, h, List.tail_cons]

/-- A step with a turn left is that turn's event, in the state whose remaining turns are written out. -/
theorem step_eq_event {s : State} {t : Turn} {ts : List Turn} (h : s.env.turns = t :: ts) :
    step s = event t { s with env.turns := ts } := by
  rw [step_of_cons h, takeTurn_of_cons h]

/-- Settles O6: the step is the event of the host's turn, and taking the turn leaves the word on the port, so that event
runs the command the word decodes to. -/
theorem stepRunsDecodedCommand : Obligations.StepRunsDecodedCommand := by
  intro s w ws ts i hturns hport hdecode
  calc step s
      _ = event .command { s with env.turns := ts } := step_eq_event hturns
      _ = exec i { s with env.turns := ts } := commandEvent_ok hport hdecode

end Sys2Proof.Proofs
end

section
/-! What one step can do to the block, said once: the effect of each command with its guard (30_encoding.md R75,
60_exceptions.md R231, 70_reset_and_hazards.md R268), and the effect of each agent's turn (00_scope.md R10). -/

namespace Sys2Proof.Proofs

open Sys2Proof Sys2Proof.Machine Sys2Proof.Claims Sys2Proof.Config

/-- The block after a command offered to the block `b`: the command is held, rejected, or takes its own effect. -/
inductive CommandStep (p : Params) (b : Block) : Instr → Block → Prop
  | held {i : Instr} (full : p.txqDepth - b.txq.length < need i b) : CommandStep p b i b
  | rejected {i : Instr} (rejects : isRejected i b) (noRead : ∀ k, i ≠ .plRead k) :
      CommandStep p b i { b with cmdErr := true }
  | nop : CommandStep p b .nop b
  | ckClear : CommandStep p b .ckClear { b with acc := 0x00#8 }
  | ckAdd (d : Byte) : CommandStep p b (.ckAdd d) { b with acc := addByte b.acc d }
  | ckRead : CommandStep p b .ckRead { b with result := b.acc }
  | encOpen (closed : b.encOpen = false) (room : [FLAG].length ≤ p.txqDepth - b.txq.length) :
      CommandStep p b .encOpen (Block.txPush { b with encOpen := true } [FLAG])
  | encByte (d : Byte) (opened : b.encOpen = true) (room : (stuff d).length ≤ p.txqDepth - b.txq.length) :
      CommandStep p b (.encByte d) (b.txPush (stuff d))
  | encByteAcc (d : Byte) (opened : b.encOpen = true) (room : (stuff d).length ≤ p.txqDepth - b.txq.length) :
      CommandStep p b (.encByteAcc d) (Block.txPush { b with acc := addByte b.acc d } (stuff d))
  | encCksum (opened : b.encOpen = true) (room : (stuff b.acc).length ≤ p.txqDepth - b.txq.length) :
      CommandStep p b .encCksum (b.txPush (stuff b.acc))
  | encClose (opened : b.encOpen = true) (room : [FLAG].length ≤ p.txqDepth - b.txq.length) :
      CommandStep p b .encClose (Block.txPush { b with encOpen := false } [FLAG])
  | decClear (unarmed : b.rxSt ≠ .receiving) : CommandStep p b .decClear b.decCleared
  | decByte (d : Byte) (unarmed : b.rxSt ≠ .receiving) :
      CommandStep p b (.decByte d) (decStep p.plbDepth d false b)
  | decLast (d : Byte) (unarmed : b.rxSt ≠ .receiving) :
      CommandStep p b (.decLast d) (decStep p.plbDepth d true b)
  | plLen : CommandStep p b .plLen { b with result := countByte b.decLen }
  | plRead (k : Byte) (done : b.decSt = .doneOk) (inside : indexOperand k < b.decLen) :
      CommandStep p b (.plRead k) { b with result := b.plbByte (indexOperand k) }
  | plReadRejected (k : Byte) (rejects : isRejected (.plRead k) b) :
      CommandStep p b (.plRead k) { b with result := 0x00#8, cmdErr := true }
  | rxArm (unarmed : b.rxSt ≠ .receiving) :
      CommandStep p b .rxArm { b.decCleared with rxSt := .receiving, flagCnt := 0, rawCnt := 0 }

/-- The result `r` is a next state with the same parameters, whose block the command `i` can give. -/
def Answers (i : Instr) (s : State) (r : Result) : Prop :=
  ∃ t, r = .next t ∧ t.par = s.par ∧ CommandStep s.par s.blk i t.blk

theorem answers_complete {i : Instr} {s : State} {b : Block} (h : CommandStep s.par s.blk i b) :
    Answers i s (complete b s) := ⟨_, rfl, rfl, h⟩

theorem answers_raiseCmdErr {i : Instr} {s : State} (h : isRejected i s.blk) (hk : ∀ k, i ≠ .plRead k) :
    Answers i s (raiseCmdErr s.blk s) := answers_complete (.rejected h hk)

/-- A command that emits `L` is held without room for it, and pushes it with room. -/
theorem answers_emit {i : Instr} {s : State} {L : List Byte} {b : Block} (hneed : need i s.blk = L.length)
    (h : L.length ≤ s.txFree → CommandStep s.par s.blk i (b.txPush L)) : Answers i s (emit L b s) := by
  rcases emit_cases L b s with ⟨hlt, e⟩ | ⟨hle, e⟩
  · exact ⟨_, e, rfl, .held (hneed ▸ hlt)⟩
  · exact ⟨_, e, rfl, h hle⟩

/-- A command that asks for an unarmed RXD is rejected while RXD receives (R149 to R151, R171). -/
theorem answers_unlessReceiving {i : Instr} {s : State} {b : Block}
    (hrej : isRejected i s.blk ↔ s.blk.rxSt = .receiving) (hk : ∀ k, i ≠ .plRead k)
    (h : s.blk.rxSt ≠ .receiving → CommandStep s.par s.blk i b) :
    Answers i s (if s.blk.rxSt = .receiving then raiseCmdErr s.blk s else complete b s) := by
  split
  case isTrue hrx => exact answers_raiseCmdErr (hrej.mpr hrx) hk
  case isFalse hrx => exact answers_complete (h hrx)

/-- A command that asks for an open frame is rejected outside one, and otherwise emits `L` (R124 to R127). -/
theorem answers_ifOpen {i : Instr} {s : State} {L : List Byte} {b : Block}
    (hrej : isRejected i s.blk ↔ s.blk.encOpen = false) (hk : ∀ k, i ≠ .plRead k)
    (hneed : s.blk.encOpen = true → need i s.blk = L.length)
    (h : s.blk.encOpen = true → L.length ≤ s.txFree → CommandStep s.par s.blk i (b.txPush L)) :
    Answers i s (if s.blk.encOpen then emit L b s else raiseCmdErr s.blk s) := by
  split
  case isTrue ho => exact answers_emit (hneed ho) (h ho)
  case isFalse ho => exact answers_raiseCmdErr (hrej.mpr (Bool.eq_false_of_not_eq_true ho)) hk

theorem answers_execEncOpen (s : State) : Answers .encOpen s (execEncOpen s) := by
  unfold execEncOpen
  split
  case isTrue ho => exact answers_raiseCmdErr ho nofun
  case isFalse ho => exact answers_emit (by simp [need, ho]) (.encOpen (Bool.eq_false_of_not_eq_true ho))

theorem answers_execPlRead (k : Byte) (s : State) : Answers (.plRead k) s (execPlRead k s) := by
  unfold execPlRead
  split
  case isTrue h => exact answers_complete (.plRead k h.1 h.2)
  case isFalse h =>
    have hrej : isRejected (.plRead k) s.blk := by simpa [isRejected, indexOperand, imp_iff_not_or] using h
    exact answers_complete (.plReadRejected k hrej)

/-- Every command answers a next state, and its block is one of those `CommandStep` lists. -/
theorem exec_answers (i : Instr) (s : State) : Answers i s (exec i s) := by
  cases i with
  | nop => exact answers_complete .nop
  | ckClear => exact answers_complete .ckClear
  | ckAdd d => exact answers_complete (.ckAdd d)
  | ckRead => exact answers_complete .ckRead
  | encOpen => exact answers_execEncOpen s
  | encByte d => exact answers_ifOpen .rfl nofun (fun ho => by simp [need, ho]) (.encByte d)
  | encByteAcc d => exact answers_ifOpen .rfl nofun (fun ho => by simp [need, ho]) (.encByteAcc d)
  | encCksum => exact answers_ifOpen .rfl nofun (fun ho => by simp [need, ho]) .encCksum
  | encClose => exact answers_ifOpen .rfl nofun (fun ho => by simp [need, ho]) .encClose
  | decClear => exact answers_unlessReceiving .rfl nofun .decClear
  | decByte d => exact answers_unlessReceiving .rfl nofun (.decByte d)
  | decLast d => exact answers_unlessReceiving .rfl nofun (.decLast d)
  | plLen => exact answers_complete .plLen
  | plRead k => exact answers_execPlRead k s
  | rxArm => exact answers_unlessReceiving .rfl nofun .rxArm

/-- The block after a step from `s`, by the agent whose turn it is. -/
inductive BlockStep (s : State) : Block → Prop
  | stable : BlockStep s s.blk
  | command {w : Word} {ws : List Word} {i : Instr} {b : Block} (turn : s.env.turns.head? = some .command)
      (port : s.env.cmdPort = w :: ws) (decodes : decode w = .ok i) (effect : CommandStep s.par s.blk i b) :
      BlockStep s b
  | illegal {w : Word} {ws : List Word} {e : DecodeError} (turn : s.env.turns.head? = some .command)
      (port : s.env.cmdPort = w :: ws) (fails : decode w = .error e) : BlockStep s { s.blk with cmdErr := true }
  | txPop {x : Byte} {q : List Byte} (turn : s.env.turns.head? = some .txPop) (queue : s.blk.txq = x :: q) :
      BlockStep s { s.blk with txq := q }
  | rxByte (x : Byte) (turn : s.env.turns.head? = some .rxByte) (armed : s.blk.rxSt = .receiving) :
      BlockStep s (s.blk.rxByte s.par x)
  | rxTimeout (turn : s.env.turns.head? = some .rxTimeout) (armed : s.blk.rxSt = .receiving) :
      BlockStep s s.blk.rxTimeout
  | reset (turn : s.env.turns.head? = some .reset) : BlockStep s Block.reset

/-- A host's turn runs the command at the head of the port, or raises CMD_ERR for an illegal word. -/
theorem commandEvent_blockStep {s t : State} (hturn : s.env.turns.head? = some .command)
    (h : commandEvent s.takeTurn = .next t) : t.par = s.par ∧ BlockStep s t.blk := by
  cases hport : s.env.cmdPort with
  | nil =>
    rw [commandEvent_nil (s := s.takeTurn) hport] at h
    cases h
    exact ⟨rfl, .stable⟩
  | cons w ws =>
    cases hdec : decode w with
    | ok i =>
      rw [commandEvent_ok (s := s.takeTurn) hport hdec] at h
      obtain ⟨u, hu, hpar, heffect⟩ := exec_answers i s.takeTurn
      cases hu.symm.trans h
      exact ⟨hpar, .command hturn hport hdec heffect⟩
    | error e =>
      rw [commandEvent_error (s := s.takeTurn) hport hdec] at h
      cases h
      exact ⟨rfl, .illegal hturn hport hdec⟩

theorem txPopEvent_blockStep {s : State} (hturn : s.env.turns.head? = some .txPop) :
    (txPopEvent s.takeTurn).par = s.par ∧ BlockStep s (txPopEvent s.takeTurn).blk := by
  rcases txPopEvent_cases s.takeTurn with ⟨-, e⟩ | ⟨x, q, hq, e⟩ <;> rw [e]
  · exact ⟨rfl, .stable⟩
  · exact ⟨rfl, .txPop hturn hq⟩

theorem rxByteEvent_blockStep {s : State} (hturn : s.env.turns.head? = some .rxByte) :
    (rxByteEvent s.takeTurn).par = s.par ∧ BlockStep s (rxByteEvent s.takeTurn).blk := by
  rcases rxByteEvent_cases s.takeTurn with ⟨-, e⟩ | ⟨x, rest, harmed, -, e⟩ <;> rw [e]
  · exact ⟨rfl, .stable⟩
  · exact ⟨rfl, .rxByte x hturn harmed⟩

theorem rxTimeoutEvent_blockStep {s : State} (hturn : s.env.turns.head? = some .rxTimeout) :
    (rxTimeoutEvent s.takeTurn).par = s.par ∧ BlockStep s (rxTimeoutEvent s.takeTurn).blk := by
  rcases rxTimeoutEvent_cases s.takeTurn with ⟨-, e⟩ | ⟨harmed, e⟩ <;> rw [e]
  · exact ⟨rfl, .stable⟩
  · exact ⟨rfl, .rxTimeout hturn harmed⟩

/-- Every step keeps the parameters, and its block is one of those `BlockStep` lists. -/
theorem step_blockStep {s t : State} (h : step s = .next t) : t.par = s.par ∧ BlockStep s t.blk := by
  cases hturns : s.env.turns with
  | nil =>
    rw [step_of_nil hturns] at h
    cases h
    exact ⟨rfl, .stable⟩
  | cons τ ts =>
    rw [step_of_cons hturns] at h
    have hturn : s.env.turns.head? = some τ := by rw [hturns, List.head?_cons]
    cases τ with
    | command => exact commandEvent_blockStep hturn h
    | txPop => cases h; exact txPopEvent_blockStep hturn
    | rxByte => cases h; exact rxByteEvent_blockStep hturn
    | rxTimeout => cases h; exact rxTimeoutEvent_blockStep hturn
    | reset => cases h; exact ⟨rfl, .reset hturn⟩
    | client =>
      obtain ⟨hpar, hblk, -⟩ := clientTurn_frame h
      exact ⟨hpar, hblk ▸ .stable⟩

end Sys2Proof.Proofs
end

section
/-! What the receive side leaves alone (41_encoder.md R131): the fields of CKU, of the queue and CMD_ERR, through a
decoder step and through a received byte. -/

namespace Sys2Proof.Proofs

open Sys2Proof Sys2Proof.Machine

@[simp] theorem decStep_acc (depth : Nat) (x : Byte) (last : Bool) (b : Block) :
    (decStep depth x last b).acc = b.acc := by rw [decStep_eq]
@[simp] theorem decStep_result (depth : Nat) (x : Byte) (last : Bool) (b : Block) :
    (decStep depth x last b).result = b.result := by rw [decStep_eq]
@[simp] theorem decStep_txq (depth : Nat) (x : Byte) (last : Bool) (b : Block) :
    (decStep depth x last b).txq = b.txq := by rw [decStep_eq]
@[simp] theorem decStep_cmdErr (depth : Nat) (x : Byte) (last : Bool) (b : Block) :
    (decStep depth x last b).cmdErr = b.cmdErr := by rw [decStep_eq]

@[simp] theorem rxByte_acc (p : Params) (x : Byte) (b : Block) : (b.rxByte p x).acc = b.acc := by
  rcases b.rxByte_cases p x with ⟨-, e⟩ | ⟨-, -, e⟩ | ⟨-, -, e⟩ <;> simp [e]
@[simp] theorem rxByte_result (p : Params) (x : Byte) (b : Block) : (b.rxByte p x).result = b.result := by
  rcases b.rxByte_cases p x with ⟨-, e⟩ | ⟨-, -, e⟩ | ⟨-, -, e⟩ <;> simp [e]
@[simp] theorem rxByte_txq (p : Params) (x : Byte) (b : Block) : (b.rxByte p x).txq = b.txq := by
  rcases b.rxByte_cases p x with ⟨-, e⟩ | ⟨-, -, e⟩ | ⟨-, -, e⟩ <;> simp [e]
@[simp] theorem rxByte_cmdErr (p : Params) (x : Byte) (b : Block) : (b.rxByte p x).cmdErr = b.cmdErr := by
  rcases b.rxByte_cases p x with ⟨-, e⟩ | ⟨-, -, e⟩ | ⟨-, -, e⟩ <;> simp [e]

end Sys2Proof.Proofs
end

section
/-! The invariant of 10_state.md R40 in its parts: what it says of DEC and of RXD, each as a predicate over the fields
it reads, so that a change of any other field keeps it by definition. -/

namespace Sys2Proof.Proofs

open Sys2Proof Sys2Proof.Machine Sys2Proof.Config

/-- DEC's part of the invariant (R40 items 1 to 3, R28, R29), for a buffer of `depth` bytes. -/
structure DecInv (depth : Nat) (st : DecSt) (cause : DecCause) (len : Nat) (plb : Memory) : Prop where
  cause : cause = .none ↔ st.noFailure = true
  len_zero : st = .idle ∨ st = .bad ∨ st = .doneFail → len = 0
  len_le : len ≤ depth
  plb_wf : plb.wf = true
  plb_index : ∀ c ∈ plb, c.1 < depth
  plb_written : ∀ k, k < len → (plb.read? k).isSome = true

/-- RXD's part of the invariant (R40 items 4 to 6), for frames of at most `bound` bytes, with DEC in `dec`. -/
structure RxInv (bound : Nat) (st : RxSt) (flags raw : Nat) (dec : DecSt) : Prop where
  receiving : st = .receiving → flags ≤ 1 ∧ raw < bound ∧ dec.unfinished = true
  no_flag_yet : st = .receiving → flags = 0 → dec = .idle ∨ dec = .bad
  flags_le : flags ≤ 2
  raw_le : raw ≤ bound

/-- `DecInv` of the block's own fields. -/
def BlockDecInv (depth : Nat) (b : Block) : Prop := DecInv depth b.decSt b.decCause b.decLen b.plb

/-- `RxInv` of the block's own fields. -/
def BlockRxInv (bound : Nat) (b : Block) : Prop := RxInv bound b.rxSt b.flagCnt b.rawCnt b.decSt

/-- The invariant is the parameter ranges, its two parts, and the bound on the transmit queue. -/
theorem inv_iff (s : State) :
    Inv s ↔ s.par.wf = true ∧ BlockDecInv s.par.plbDepth s.blk ∧ BlockRxInv s.par.maxFrameBytes s.blk ∧
      s.blk.txq.length ≤ s.par.txqDepth := by
  constructor
  · intro h
    exact ⟨h.par, ⟨h.cause, h.len_zero, h.len_le, h.plb_wf, h.plb_index, h.plb_written⟩,
      ⟨h.receiving, h.no_flag_yet, h.flags_le, h.raw_le⟩, h.txq_le⟩
  · rintro ⟨hpar, hdec, hrx, htxq⟩
    exact ⟨hpar, hdec.cause, hdec.len_zero, hdec.len_le, htxq, hrx.receiving, hrx.no_flag_yet, hrx.flags_le,
      hrx.raw_le, hdec.plb_wf, hdec.plb_index, hdec.plb_written⟩

/-! ### DEC -/

section Dec

variable {depth : Nat} {st st' : DecSt} {cause : DecCause} {len : Nat} {plb : Memory}

/-- DEC drops its payload and goes to `st'`: the restart, the latch and the failure of R144, R148 and R149. -/
theorem DecInv.drop (h : DecInv depth st cause len plb) {c : DecCause} (hc : c = .none ↔ st'.noFailure = true) :
    DecInv depth st' c 0 plb :=
  ⟨hc, fun _ => rfl, Nat.zero_le _, h.plb_wf, h.plb_index, fun _ hk => absurd hk (Nat.not_lt_zero _)⟩

/-- DEC goes to `st'` and keeps its payload and its cause. -/
theorem DecInv.move (h : DecInv depth st cause len plb) (hfail : st'.noFailure = st.noFailure)
    (hlen : st' = .idle ∨ st' = .bad ∨ st' = .doneFail → len = 0) : DecInv depth st' cause len plb :=
  ⟨hfail ▸ h.cause, hlen, h.len_le, h.plb_wf, h.plb_index, h.plb_written⟩

/-- DEC without a failure stores a byte at `dec_len` (R146): all indices up to the new one are written. -/
theorem DecInv.append (h : DecInv depth st cause len plb) (hfail : st.noFailure = true) (hroom : len < depth)
    (v : Byte) : DecInv depth .body cause (len + 1) (plb.write len v) where
  cause := ⟨fun _ => rfl, fun _ => h.cause.mpr hfail⟩
  len_zero := by simp
  len_le := hroom
  plb_wf := Memory.wf_write plb len v h.plb_wf
  plb_index c hc := by
    rcases Memory.mem_write hc with rfl | hc
    · exact hroom
    · exact h.plb_index c hc
  plb_written k hk := by
    by_cases hkl : k = len
    · rw [hkl, Memory.read_write_same, Option.isSome_some]
    · rw [Memory.read_write_ne plb v hkl]
      exact h.plb_written k (by omega)

end Dec

theorem BlockDecInv.reset (depth : Nat) : BlockDecInv depth Block.reset :=
  ⟨by decide, fun _ => rfl, Nat.zero_le _, Memory.wf_nil, nofun, nofun⟩

theorem BlockDecInv.decCleared {depth : Nat} {b : Block} (h : BlockDecInv depth b) :
    BlockDecInv depth b.decCleared := DecInv.drop h ⟨fun _ => rfl, fun _ => rfl⟩

/-- A byte that is not the frame's last keeps DEC's part. -/
theorem BlockDecInv.decStep_false {depth : Nat} {b : Block} (h : BlockDecInv depth b) (x : Byte) :
    BlockDecInv depth (decStep depth x false b) := by
  rcases decStep_false_cases depth x b with
    ⟨c, hc, e⟩ | ⟨hst, -, e⟩ | ⟨-, -, e⟩ | ⟨hst, -, e⟩ | ⟨hst, hroom, v, e⟩ | ⟨-, e⟩ <;> rw [e]
  · exact DecInv.drop h (by simp [hc, DecSt.noFailure])
  case inr.inl => exact DecInv.move h (by rw [hst]; rfl) (by simp)
  case inr.inr.inl => exact DecInv.drop h ⟨fun _ => rfl, fun _ => rfl⟩
  case inr.inr.inr.inl => exact DecInv.move h (by rw [hst]; rfl) (by simp)
  · have hfail : b.decSt.noFailure = true := by rcases hst with hst | hst <;> rw [hst] <;> rfl
    exact DecInv.append h hfail hroom v
  case inr.inr.inr.inr.inr => exact h

/-- The frame's last byte keeps DEC's part. -/
theorem BlockDecInv.decStep_true {depth : Nat} {b : Block} (h : BlockDecInv depth b) (x : Byte) :
    BlockDecInv depth (decStep depth x true b) := by
  rcases decStep_true_cases depth x b with ⟨c, hc, e⟩ | ⟨hst, -, e⟩ | ⟨hst, e⟩ <;> rw [e]
  · exact DecInv.drop h (by simp [hc, DecSt.noFailure])
  · exact DecInv.move h (by rw [hst]; rfl) (by simp)
  · exact DecInv.move h (by rw [hst]; rfl) (fun _ => h.len_zero (.inr (.inl hst)))

theorem BlockDecInv.rxByte {p : Params} {b : Block} (h : BlockDecInv p.plbDepth b) (x : Byte) :
    BlockDecInv p.plbDepth (b.rxByte p x) := by
  rcases b.rxByte_cases p x with ⟨-, e⟩ | ⟨-, -, e⟩ | ⟨-, -, e⟩ <;> rw [e]
  · exact h.decStep_true x
  · exact h.decCleared
  · exact h.decStep_false x

/-! ### RXD -/

/-- RXD's part while RXD is not armed is the ranges of its counters. -/
theorem RxInv.of_unarmed {bound : Nat} {st : RxSt} {flags raw : Nat} {dec : DecSt} (hst : st ≠ .receiving)
    (hflags : flags ≤ 2) (hraw : raw ≤ bound) : RxInv bound st flags raw dec :=
  ⟨fun h => absurd h hst, fun h => absurd h hst, hflags, hraw⟩

theorem BlockRxInv.reset (bound : Nat) : BlockRxInv bound Block.reset :=
  .of_unarmed (by decide) (by decide) (Nat.zero_le _)

/-- RX_ARM starts with no byte counted (R171). -/
theorem BlockRxInv.armed {bound : Nat} (hbound : 0 < bound) (b : Block) :
    BlockRxInv bound { b.decCleared with rxSt := .receiving, flagCnt := 0, rawCnt := 0 } :=
  ⟨fun _ => ⟨Nat.zero_le _, hbound, rfl⟩, fun _ _ => .inl rfl, Nat.zero_le _, Nat.zero_le _⟩

/-- Whatever DEC does while RXD is not armed keeps RXD's part. -/
theorem BlockRxInv.decStep_unarmed {bound : Nat} {b : Block} (h : BlockRxInv bound b) (hst : b.rxSt ≠ .receiving)
    (depth : Nat) (x : Byte) (last : Bool) : BlockRxInv bound (decStep depth x last b) := by
  rw [decStep_eq]
  exact RxInv.of_unarmed hst h.flags_le h.raw_le

/-- A timeout ends the receive and keeps the counters (R175). -/
theorem BlockRxInv.rxTimeout {bound : Nat} {b : Block} (h : BlockRxInv bound b) : BlockRxInv bound b.rxTimeout :=
  .of_unarmed (by simp) h.flags_le h.raw_le

/-- Before the opening FLAG every other byte leaves DEC in BAD (R144, R240). -/
theorem decStep_false_of_ne_flag {depth : Nat} {x : Byte} {b : Block} (hx : x ≠ FLAG)
    (hst : b.decSt = .idle ∨ b.decSt = .bad) : (decStep depth x false b).decSt = .bad := by
  rcases hst with hst | hst
  · simp [decStep, hst, decFirst, hx]
  · simp [decStep, hst, decBad]

/-- The count after one more byte grows by at most one, and stays 0 only where it was 0 and the byte is no FLAG. -/
theorem flagCountAfter_le (x : Byte) (b : Block) : flagCountAfter x b ≤ b.flagCnt + 1 := by
  unfold flagCountAfter
  split <;> omega

theorem flagCountAfter_eq_zero {x : Byte} {b : Block} (h : flagCountAfter x b = 0) : b.flagCnt = 0 ∧ x ≠ FLAG := by
  simpa [flagCountAfter] using h

/-- A byte taken by an armed RXD keeps RXD's part: the frame ends, reaches the bound, or goes on with one byte more. -/
theorem BlockRxInv.rxByte {p : Params} {b : Block} (h : BlockRxInv p.maxFrameBytes b) (armed : b.rxSt = .receiving)
    (x : Byte) : BlockRxInv p.maxFrameBytes (b.rxByte p x) := by
  obtain ⟨hflags, hraw, -⟩ := h.receiving armed
  have hle := flagCountAfter_le x b
  rcases b.rxByte_cases p x with ⟨h2, e⟩ | ⟨-, hbound, e⟩ | ⟨h2, hbound, e⟩ <;> rw [e]
  · show RxInv p.maxFrameBytes .done (flagCountAfter x b) (b.rawCnt + 1) _
    exact .of_unarmed (by decide) h2.le hraw
  · show RxInv p.maxFrameBytes .overflow (flagCountAfter x b) (b.rawCnt + 1) .idle
    exact .of_unarmed (by decide) (by omega) hbound.le
  · show RxInv p.maxFrameBytes _ (flagCountAfter x b) (b.rawCnt + 1) (decStep p.plbDepth x false b).decSt
    refine ⟨fun _ => ⟨by omega, by omega, decStep_false_unfinished _ _ _⟩, fun _ h0 => ?_, by omega, hraw⟩
    obtain ⟨hcnt, hx⟩ := flagCountAfter_eq_zero h0
    exact .inr (decStep_false_of_ne_flag hx (h.no_flag_yet armed hcnt))

end Sys2Proof.Proofs
end

section
/-! The invariant of 10_state.md R40: it holds at reset, every step keeps it, and no command reads an unspecified
byte. -/

namespace Sys2Proof.Proofs

open Sys2Proof Sys2Proof.Machine Sys2Proof.Claims Sys2Proof.Config

theorem BlockDecInv.of_commandStep {p : Params} {b b' : Block} {i : Instr} (h : BlockDecInv p.plbDepth b)
    (hstep : CommandStep p b i b') : BlockDecInv p.plbDepth b' := by
  cases hstep with
  | decClear => exact h.decCleared
  | decByte d => exact h.decStep_false d
  | decLast d => exact h.decStep_true d
  | rxArm => exact h.decCleared
  | _ => exact h

theorem BlockRxInv.of_commandStep {p : Params} {b b' : Block} {i : Instr} (hbound : 0 < p.maxFrameBytes)
    (h : BlockRxInv p.maxFrameBytes b) (hstep : CommandStep p b i b') : BlockRxInv p.maxFrameBytes b' := by
  cases hstep with
  | decClear unarmed => exact RxInv.of_unarmed unarmed h.flags_le h.raw_le
  | decByte d unarmed => exact h.decStep_unarmed unarmed _ _ _
  | decLast d unarmed => exact h.decStep_unarmed unarmed _ _ _
  | rxArm => exact .armed hbound b
  | _ => exact h

theorem txPush_txq_le {b : Block} {L : List Byte} {n : Nat} (hq : b.txq.length ≤ n)
    (hroom : L.length ≤ n - b.txq.length) : (b.txPush L).txq.length ≤ n := by
  rw [Block.txPush_txq, List.length_append]
  omega

/-- A command pushes only what fits the queue (R53). -/
theorem CommandStep.txq_le {p : Params} {b b' : Block} {i : Instr} (hstep : CommandStep p b i b')
    (h : b.txq.length ≤ p.txqDepth) : b'.txq.length ≤ p.txqDepth := by
  cases hstep with
  | encOpen _ room => exact txPush_txq_le h room
  | encByte _ _ room => exact txPush_txq_le h room
  | encByteAcc _ _ room => exact txPush_txq_le h room
  | encCksum _ room => exact txPush_txq_le h room
  | encClose _ room => exact txPush_txq_le h room
  | decByte => rwa [decStep_txq]
  | decLast => rwa [decStep_txq]
  | _ => exact h

/-- The parts of the invariant after a step, each from what the step can do to the block. -/
theorem BlockStep.decInv {s : State} {b : Block} (hstep : BlockStep s b) (h : BlockDecInv s.par.plbDepth s.blk) :
    BlockDecInv s.par.plbDepth b := by
  cases hstep with
  | command _ _ _ effect => exact h.of_commandStep effect
  | rxByte x => exact h.rxByte x
  | rxTimeout => exact h.decCleared
  | reset => exact .reset _
  | _ => exact h

theorem BlockStep.rxInv {s : State} {b : Block} (hstep : BlockStep s b) (hbound : 0 < s.par.maxFrameBytes)
    (h : BlockRxInv s.par.maxFrameBytes s.blk) : BlockRxInv s.par.maxFrameBytes b := by
  cases hstep with
  | command _ _ _ effect => exact h.of_commandStep hbound effect
  | rxByte x _ armed => exact h.rxByte armed x
  | rxTimeout => exact h.rxTimeout
  | reset => exact .reset _
  | _ => exact h

theorem BlockStep.txq_le {s : State} {b : Block} (hstep : BlockStep s b) (h : s.blk.txq.length ≤ s.par.txqDepth) :
    b.txq.length ≤ s.par.txqDepth := by
  cases hstep with
  | command _ _ _ effect => exact effect.txq_le h
  | txPop _ queue => exact Nat.le_of_succ_le (by simpa [queue] using h)
  | rxByte x => rwa [rxByte_txq]
  | reset => exact Nat.zero_le _
  | _ => exact h

theorem maxFrameBytes_pos {p : Params} (h : p.wf = true) : 0 < p.maxFrameBytes := by
  simp only [Params.wf, Bool.and_eq_true, decide_eq_true_eq] at h
  omega

/-- Settles O53: a step keeps the parameters and gives a block that `BlockStep` lists, and each part of the invariant
survives each of these. -/
theorem stepKeepsInvariant : Obligations.StepKeepsInvariant := by
  intro s t hinv hstep
  obtain ⟨hwf, hdec, hrx, htxq⟩ := (inv_iff s).mp hinv
  obtain ⟨hpar, hblk⟩ := step_blockStep hstep
  rw [inv_iff, hpar]
  exact ⟨hwf, hblk.decInv hdec, hblk.rxInv (maxFrameBytes_pos hwf) hrx, hblk.txq_le htxq⟩

/-- Settles O52: the parameters of the test vectors are in range, and the reset block meets each part. -/
theorem resetMeetsInvariant : Obligations.ResetMeetsInvariant :=
  (inv_iff _).mpr ⟨by decide, .reset _, .reset _, Nat.zero_le _⟩

/-- Settles O46: below `dec_len` every index of `plb` is written (R28), so PL_READ finds the byte listed. -/
theorem plReadNeverUnspecified : Obligations.PlReadNeverUnspecified := by
  intro s k hinv hdone hinside
  obtain ⟨v, hv⟩ := Option.isSome_iff_exists.mp (hinv.plb_written k.toNat hinside)
  have hbyte : s.blk.plbByte (indexOperand k) = v := by rw [Block.plbByte, indexOperand, hv, Option.getD_some]
  refine ⟨v, hv, ?_⟩
  calc exec (.plRead k) s
      _ = complete { s.blk with result := s.blk.plbByte (indexOperand k) } s := if_pos ⟨hdone, hinside⟩
      _ = .next (accepted s { s.blk with result := v }) := by rw [hbyte, complete_eq]; rfl

end Sys2Proof.Proofs
end

section
/-! Who writes `acc`, `result` and CMD_ERR (10_state.md R22, R23, R33): commands and reset alone, each its own field. -/

namespace Sys2Proof.Proofs

open Sys2Proof Sys2Proof.Machine Sys2Proof.Claims

/-- A step is a reset, a command's, or leaves `acc` and `result` alone and clears no CMD_ERR. -/
theorem step_resets_or_commands_or_keeps {s t : State} (hstep : step s = .next t) :
    s.env.turns.head? = some .reset ∨
    (s.env.turns.head? = some .command ∧ ∃ (w : Word) (ws : List Word) (i : Instr), s.env.cmdPort = w :: ws ∧
      decode w = .ok i ∧ CommandStep s.par s.blk i t.blk) ∨
    (t.blk.acc = s.blk.acc ∧ t.blk.result = s.blk.result ∧ (s.blk.cmdErr = true → t.blk.cmdErr = true)) := by
  obtain ⟨-, hblk⟩ := step_blockStep hstep
  generalize t.blk = b at hblk ⊢
  cases hblk with
  | command turn port decodes effect => exact .inr (.inl ⟨turn, _, _, _, port, decodes, effect⟩)
  | reset turn => exact .inl turn
  | illegal => exact .inr (.inr ⟨rfl, rfl, fun _ => rfl⟩)
  | rxByte x => exact .inr (.inr ⟨rxByte_acc .., rxByte_result .., (rxByte_cmdErr ..).trans⟩)
  | _ => exact .inr (.inr ⟨rfl, rfl, id⟩)

/-- A command that R22 does not name leaves `acc` alone. -/
theorem CommandStep.acc_eq {p : Params} {b b' : Block} {i : Instr} (hstep : CommandStep p b i b')
    (hi : writesAcc i ≠ true) : b'.acc = b.acc := by
  cases hstep with
  | ckClear => exact absurd rfl hi
  | ckAdd d => exact absurd rfl hi
  | encByteAcc d => exact absurd rfl hi
  | decByte d => exact decStep_acc ..
  | decLast d => exact decStep_acc ..
  | _ => rfl

/-- A command that R23 does not name leaves `result` alone. -/
theorem CommandStep.result_eq {p : Params} {b b' : Block} {i : Instr} (hstep : CommandStep p b i b')
    (hi : ¬(i = .ckRead ∨ i = .plLen ∨ ∃ k, i = .plRead k)) : b'.result = b.result := by
  cases hstep with
  | ckRead => exact absurd (.inl rfl) hi
  | plLen => exact absurd (.inr (.inl rfl)) hi
  | plRead k => exact absurd (.inr (.inr ⟨k, rfl⟩)) hi
  | plReadRejected k => exact absurd (.inr (.inr ⟨k, rfl⟩)) hi
  | decByte d => exact decStep_result ..
  | decLast d => exact decStep_result ..
  | _ => rfl

/-- No command clears CMD_ERR (R33). -/
theorem CommandStep.cmdErr_keeps {p : Params} {b b' : Block} {i : Instr} (hstep : CommandStep p b i b')
    (h : b.cmdErr = true) : b'.cmdErr = true := by
  cases hstep with
  | rejected => rfl
  | plReadRejected => rfl
  | decByte d => rwa [decStep_cmdErr]
  | decLast d => rwa [decStep_cmdErr]
  | _ => exact h

/-- Settles O13: outside a reset only a command's step can change `acc`, and it must be one of the three. -/
theorem accWriters : Obligations.AccWriters := by
  intro s t hstep hne
  rcases step_resets_or_commands_or_keeps hstep with
    hreset | ⟨hturn, w, ws, i, hport, hdec, heffect⟩ | ⟨hacc, -, -⟩
  · exact .inl hreset
  · exact .inr ⟨hturn, w, ws, i, hport, hdec, not_ne_iff.mp fun hi => hne (heffect.acc_eq hi)⟩
  · exact absurd hacc hne

/-- Settles O47: outside a reset only a command's step can change `result`, and it must be one of the three. -/
theorem resultWriters : Obligations.ResultWriters := by
  intro s t hstep hne
  rcases step_resets_or_commands_or_keeps hstep with
    hreset | ⟨hturn, w, ws, i, hport, hdec, heffect⟩ | ⟨-, hresult, -⟩
  · exact .inl hreset
  · exact .inr ⟨hturn, w, ws, i, hport, hdec, by_contra fun hi => hne (heffect.result_eq hi)⟩
  · exact absurd hresult hne

/-- Settles O28: neither a command nor a turn of the other agents clears the flag, so a reset did. -/
theorem cmdErrSticky : Obligations.CmdErrSticky := by
  intro s t hstep hset hclear
  have notSet (h : t.blk.cmdErr = true) : False := by simp [hclear] at h
  rcases step_resets_or_commands_or_keeps hstep with hreset | ⟨-, _, _, _, -, -, heffect⟩ | ⟨-, -, hkeeps⟩
  · exact hreset
  · exact (notSet (heffect.cmdErr_keeps hset)).elim
  · exact (notSet (hkeeps hset)).elim

end Sys2Proof.Proofs
end

section
/-! The STATUS word of 10_state.md R35: the concatenation the model computes is the union of shifted fields. -/

namespace Sys2Proof.Proofs

open Sys2Proof Sys2Proof.Machine

/-- Seven fields side by side below three reserved bits are the union of the fields, each shifted to its place. -/
theorem append_fields_eq_or (full empty err isOpen : Bool) (rx cause dec : BitVec 3) :
    0#3 ++ BitVec.ofBool full ++ BitVec.ofBool empty ++ BitVec.ofBool err ++ rx ++ cause ++ dec ++
        BitVec.ofBool isOpen =
      (BitVec.ofBool isOpen).setWidth 16 ||| dec.setWidth 16 <<< 1 ||| cause.setWidth 16 <<< 4 |||
        rx.setWidth 16 <<< 7 ||| (BitVec.ofBool err).setWidth 16 <<< 10 |||
        (BitVec.ofBool empty).setWidth 16 <<< 11 ||| (BitVec.ofBool full).setWidth 16 <<< 12 := by
  apply BitVec.eq_of_getLsbD_eq
  intro i hi
  simp only [BitVec.getLsbD_append, BitVec.getLsbD_or, BitVec.getLsbD_shiftLeft, BitVec.getLsbD_setWidth,
    BitVec.getLsbD_ofBool]
  interval_cases i <;> simp

@[simp] theorem statusDecCause_status (s : State) : statusDecCause s.status = s.blk.decCause.code := by
  apply BitVec.eq_of_getLsbD_eq
  intro i hi
  simp only [statusDecCause, State.status, BitVec.getLsbD_extractLsb', BitVec.getLsbD_append, BitVec.getLsbD_ofBool]
  interval_cases i <;> simp

/-- STATUS[15:13] reads 0 (R36). -/
theorem status_reserved (s : State) : s.status.extractLsb' 13 3 = 0#3 := by
  apply BitVec.eq_of_getLsbD_eq
  intro i hi
  simp only [State.status, BitVec.getLsbD_extractLsb', BitVec.getLsbD_append, BitVec.getLsbD_ofBool]
  interval_cases i <;> simp

theorem DecSt.code_le (d : DecSt) : d.code.toNat ≤ 5 := by cases d <;> decide

theorem DecCause.code_le (c : DecCause) : c.code.toNat ≤ 6 := by cases c <;> decide

theorem RxSt.code_le (r : RxSt) : r.code.toNat ≤ 4 := by cases r <;> decide

/-- Settles O50: the word is the union of its fields, each field reads back its code, and the codes are in range. -/
theorem statusWordLayout : Obligations.StatusWordLayout := by
  intro s
  rw [statusDecSt_status, statusDecCause_status, statusRxSt_status]
  exact ⟨append_fields_eq_or .., status_reserved s, rfl, rfl, rfl, DecSt.code_le _, DecCause.code_le _,
    RxSt.code_le _, by decide⟩

end Sys2Proof.Proofs
end

section
/-! The frame of a decoder step (20_memory.md R54, 42_decoder.md R144, R146): the fields outside DEC, and every byte of
`plb` but the one at `dec_len`. -/

namespace Sys2Proof.Proofs

open Sys2Proof Sys2Proof.Machine Sys2Proof.Claims

@[simp] theorem decStep_encOpen (depth : Nat) (x : Byte) (last : Bool) (b : Block) :
    (decStep depth x last b).encOpen = b.encOpen := by rw [decStep_eq]
@[simp] theorem decStep_rxSt (depth : Nat) (x : Byte) (last : Bool) (b : Block) :
    (decStep depth x last b).rxSt = b.rxSt := by rw [decStep_eq]
@[simp] theorem decStep_flagCnt (depth : Nat) (x : Byte) (last : Bool) (b : Block) :
    (decStep depth x last b).flagCnt = b.flagCnt := by rw [decStep_eq]
@[simp] theorem decStep_rawCnt (depth : Nat) (x : Byte) (last : Bool) (b : Block) :
    (decStep depth x last b).rawCnt = b.rawCnt := by rw [decStep_eq]

/-- A decoder step leaves CKU, ENC, the queue and CMD_ERR alone (41_encoder.md R131). -/
theorem decStep_sameTransmitSide (depth : Nat) (x : Byte) (last : Bool) (b : Block) :
    sameTransmitSide (decStep depth x last b) b :=
  ⟨decStep_acc .., decStep_result .., decStep_encOpen .., decStep_txq .., decStep_cmdErr ..⟩

/-- The frame's last byte is never stored (R144). -/
@[simp] theorem decStep_true_plb (depth : Nat) (x : Byte) (b : Block) : (decStep depth x true b).plb = b.plb := by
  rcases decStep_true_cases depth x b with ⟨c, -, e⟩ | ⟨-, -, e⟩ | ⟨-, e⟩ <;> simp [e]

/-- Any other byte stores nothing, or APPEND stores one byte at `dec_len` (R146). -/
theorem decStep_false_plb_cases (depth : Nat) (x : Byte) (b : Block) :
    (decStep depth x false b).plb = b.plb ∨ ∃ v, (decStep depth x false b).plb = b.plb.write b.decLen v := by
  rcases decStep_false_cases depth x b with
    ⟨c, -, e⟩ | ⟨-, -, e⟩ | ⟨-, -, e⟩ | ⟨-, -, e⟩ | ⟨-, -, v, e⟩ | ⟨-, e⟩ <;> rw [e]
  case inr.inr.inr.inr.inl => exact .inr ⟨v, rfl⟩
  all_goals exact .inl rfl

theorem decStep_read_of_ne (depth : Nat) (x : Byte) (last : Bool) {b : Block} {k : Nat} (hk : k ≠ b.decLen) :
    (decStep depth x last b).plb.read? k = b.plb.read? k := by
  cases last with
  | true => rw [decStep_true_plb]
  | false =>
    rcases decStep_false_plb_cases depth x b with e | ⟨v, e⟩ <;> rw [e]
    exact Memory.read_write_ne _ v hk

/-- Settles O33: a step writes DEC's fields alone, and `plb` at most by APPEND at `dec_len`, never on the last byte. -/
theorem decStepFrame : Obligations.DecStepFrame := by
  intro depth x last b
  refine ⟨decStep_sameTransmitSide .., decStep_rxSt .., decStep_flagCnt .., decStep_rawCnt .., fun k hk => ?_, ?_⟩
  · rw [Block.plbByte, decStep_read_of_ne depth x last hk, Block.plbByte]
  · rintro rfl
    exact decStep_true_plb ..

end Sys2Proof.Proofs
end

section
/-! The bytes the transport has taken followed by those queued (20_memory.md R53, R63): a TX pop moves a byte from the
one to the other, an ENC command appends, and of the other turns only reset changes either. -/

namespace Sys2Proof.Proofs

open Sys2Proof Sys2Proof.Machine Sys2Proof.Claims

/-- It is the host's turn, and the word on the port is an ENC command. -/
def OffersEnc (s : State) : Prop :=
  s.env.turns.head? = some .command ∧ ∃ (w : Word) (ws : List Word) (i : Instr),
    s.env.cmdPort = w :: ws ∧ decode w = .ok i ∧ isEnc i = true

/-- `q'` is `q` with bytes appended at its end, none unless `P`. -/
def GrowsOnlyIf (P : Prop) (q q' : List Byte) : Prop := ∃ L, q' = q ++ L ∧ (L ≠ [] → P)

theorem GrowsOnlyIf.of_eq {P : Prop} {q q' : List Byte} (h : q' = q) : GrowsOnlyIf P q q' :=
  ⟨[], by rw [h, List.append_nil], absurd rfl⟩

theorem GrowsOnlyIf.append {P : Prop} (hP : P) (q L : List Byte) : GrowsOnlyIf P q (q ++ L) := ⟨L, rfl, fun _ => hP⟩

theorem GrowsOnlyIf.imp {P Q : Prop} {q q' : List Byte} (h : GrowsOnlyIf P q q') (hPQ : P → Q) :
    GrowsOnlyIf Q q q' :=
  let ⟨L, hq, hP⟩ := h
  ⟨L, hq, hPQ ∘ hP⟩

/-- Bytes put before both lists change nothing. -/
theorem GrowsOnlyIf.append_left {P : Prop} {q q' : List Byte} (h : GrowsOnlyIf P q q') (out : List Byte) :
    GrowsOnlyIf P (out ++ q) (out ++ q') :=
  let ⟨L, hq, hP⟩ := h
  ⟨L, by rw [hq, List.append_assoc], hP⟩

/-! ### The queue -/

/-- A command leaves the queue alone or appends to its tail, and only an ENC command appends (R53). -/
theorem CommandStep.txq_grows {p : Params} {b b' : Block} {i : Instr} (hstep : CommandStep p b i b') :
    GrowsOnlyIf (isEnc i = true) b.txq b'.txq := by
  cases hstep with
  | encOpen => exact .append rfl _ _
  | encByte => exact .append rfl _ _
  | encByteAcc => exact .append rfl _ _
  | encCksum => exact .append rfl _ _
  | encClose => exact .append rfl _ _
  | decByte => exact .of_eq (decStep_txq ..)
  | decLast => exact .of_eq (decStep_txq ..)
  | _ => exact .of_eq rfl

/-- Besides a TX pop and a reset, a step leaves the queue alone or appends the output of an ENC command. -/
theorem BlockStep.txq_grows {s : State} {b : Block} (hstep : BlockStep s b)
    (hreset : s.env.turns.head? ≠ some .reset) (hpop : s.env.turns.head? ≠ some .txPop) :
    GrowsOnlyIf (OffersEnc s) s.blk.txq b.txq := by
  cases hstep with
  | command turn port decodes effect =>
    exact effect.txq_grows.imp fun henc => ⟨turn, _, _, _, port, decodes, henc⟩
  | txPop turn => exact absurd turn hpop
  | reset turn => exact absurd turn hreset
  | rxByte => exact .of_eq (rxByte_txq ..)
  | _ => exact .of_eq rfl

/-! ### The transport -/

theorem exec_txOut {i : Instr} {s t : State} (h : exec i s = .next t) : t.env.txOut = s.env.txOut := by
  rcases exec_cases i s with e | ⟨b, e⟩ <;> cases e.symm.trans h <;> rfl

theorem commandEvent_txOut {s t : State} (h : commandEvent s = .next t) : t.env.txOut = s.env.txOut := by
  cases hport : s.env.cmdPort with
  | nil => cases (commandEvent_nil hport).symm.trans h; rfl
  | cons w ws =>
    cases hdec : decode w with
    | ok i => exact exec_txOut ((commandEvent_ok hport hdec).symm.trans h)
    | error e => cases (commandEvent_error hport hdec).symm.trans h; rfl

theorem rxByteEvent_txOut (s : State) : (rxByteEvent s).env.txOut = s.env.txOut := by
  rcases rxByteEvent_cases s with ⟨-, e⟩ | ⟨x, rest, -, -, e⟩ <;> rw [e]

theorem rxTimeoutEvent_txOut (s : State) : (rxTimeoutEvent s).env.txOut = s.env.txOut := by
  rcases rxTimeoutEvent_cases s with ⟨-, e⟩ | ⟨-, e⟩ <;> rw [e]

/-- Only a TX pop hands a byte to the transport (44_ports.md R195). -/
theorem step_txOut {s t : State} (hstep : step s = .next t) (hpop : s.env.turns.head? ≠ some .txPop) :
    t.env.txOut = s.env.txOut := by
  cases hturns : s.env.turns with
  | nil => cases (step_of_nil hturns).symm.trans hstep; rfl
  | cons τ ts =>
    rw [step_of_cons hturns] at hstep
    cases τ with
    | command => exact commandEvent_txOut (s := s.takeTurn) hstep
    | txPop => exact absurd (by rw [hturns, List.head?_cons]) hpop
    | rxByte => cases hstep; exact rxByteEvent_txOut s.takeTurn
    | rxTimeout => cases hstep; exact rxTimeoutEvent_txOut s.takeTurn
    | reset => cases hstep; rfl
    | client =>
      obtain ⟨-, -, htxOut, -⟩ := clientTurn_frame hstep
      exact htxOut

/-! ### The two together -/

/-- A TX pop moves the head of the queue to the end of what the transport has. -/
theorem txPopEvent_stream (s : State) :
    (txPopEvent s).env.txOut ++ (txPopEvent s).blk.txq = s.env.txOut ++ s.blk.txq := by
  rcases txPopEvent_cases s with ⟨-, e⟩ | ⟨x, q, hq, e⟩ <;> rw [e]
  rw [hq, List.append_assoc, List.singleton_append]

theorem step_txPop_stream {s t : State} (hstep : step s = .next t) (hpop : s.env.turns.head? = some .txPop) :
    t.env.txOut ++ t.blk.txq = s.env.txOut ++ s.blk.txq := by
  obtain ⟨ts, hturns⟩ := List.head?_eq_some_iff.mp hpop
  cases (step_of_cons hturns).symm.trans hstep
  exact txPopEvent_stream s.takeTurn

/-- Settles O49: a pop keeps the stream; any other turn but reset keeps what the transport has and leaves the queue or
appends an ENC command's output to it. -/
theorem txStreamOnlyGrows : Obligations.TxStreamOnlyGrows := by
  intro s t hstep hreset
  show GrowsOnlyIf (OffersEnc s) (s.env.txOut ++ s.blk.txq) (t.env.txOut ++ t.blk.txq)
  by_cases hpop : s.env.turns.head? = some .txPop
  · exact .of_eq (step_txPop_stream hstep hpop)
  · obtain ⟨-, hblk⟩ := step_blockStep hstep
    rw [step_txOut hstep hpop]
    exact (hblk.txq_grows hreset hpop).append_left _

end Sys2Proof.Proofs
end

section
/-! The decoder of 30_encoding.md R75, said once: which words give which command, and which words give none. -/

namespace Sys2Proof.Proofs

open Sys2Proof Sys2Proof.Machine

/-- Every row of R75 builds the command whose OP is in its pattern, and its operand, if it has one, is D. -/
theorem opcodeTable_build (d : Byte) : ∀ r ∈ opcodeTable,
    (r.build d).opcode = opcodeField r.pattern ∧ (r.build d).operand.getD d = d := by
  intro r hr
  fin_cases hr <;> exact ⟨rfl, rfl⟩

/-- The OP column of R75. -/
theorem opcodeTable_opcodes : opcodeTable.map (fun r => (opcodeField r.pattern).toNat) =
    [0x00, 0x01, 0x02, 0x03, 0x10, 0x11, 0x12, 0x13, 0x14, 0x20, 0x21, 0x22, 0x23, 0x24, 0x30] := by decide

/-- A word is the command of a row with its OP, or it is illegal and no row has its OP (R76). -/
theorem decode_cases (w : Word) :
    (∃ r ∈ opcodeTable, opcodeField w = opcodeField r.pattern ∧ decode w = .ok (r.build (operandField w))) ∨
    ((∀ r ∈ opcodeTable, opcodeField w ≠ opcodeField r.pattern) ∧
      decode w = .error (.illegalOpcode (opcodeField w))) := by
  rw [decode_eq]
  cases hfind : opcodeTable.find? (fun r => opcodeField w == opcodeField r.pattern) with
  | none => exact .inr ⟨by simpa using hfind, rfl⟩
  | some r => exact .inl ⟨r, List.mem_of_find?_eq_some hfind, by simpa using List.find?_some hfind, rfl⟩

/-- The OP of a command selects it, whatever D is but its own operand (R73, R75). -/
theorem decode_opcode_append {i : Instr} {d : Byte} (h : i.operand.getD d = d) : decode (i.opcode ++ d) = .ok i := by
  cases i with
  | ckAdd e | encByte e | encByteAcc e | decByte e | decLast e | plRead e =>
    obtain rfl : e = d := h
    exact decode_append rfl
  | _ => exact decode_append rfl

/-- A word decodes to `i` exactly when its OP is that of `i` and its D is the operand of `i`, if `i` has one. -/
theorem decode_eq_ok_iff (w : Word) (i : Instr) :
    decode w = .ok i ↔ opcodeField w = i.opcode ∧ i.operand.getD (operandField w) = operandField w := by
  constructor
  · intro h
    rcases decode_cases w with ⟨r, hr, hop, e⟩ | ⟨-, e⟩
    · cases e.symm.trans h
      obtain ⟨hopcode, hoperand⟩ := opcodeTable_build (operandField w) r hr
      exact ⟨hop.trans hopcode.symm, hoperand⟩
    · cases e.symm.trans h
  · rintro ⟨hop, hd⟩
    rw [word_eq_fields w, hop]
    exact decode_opcode_append hd

/-- The decoder reads a command back from its assembled word. -/
@[simp] theorem decode_encode (i : Instr) : decode (encode i) = .ok i := by
  rw [decode_eq_ok_iff, encode, opcodeField_append, operandField_append]
  cases i.operand <;> exact ⟨rfl, rfl⟩

/-- A word is illegal exactly when no row of R75 has its OP. -/
theorem decode_eq_error_iff (w : Word) : decode w = .error (.illegalOpcode (opcodeField w)) ↔
    (opcodeField w).toNat ∉ opcodeTable.map (fun r => (opcodeField r.pattern).toNat) := by
  rw [List.mem_map]
  rcases decode_cases w with ⟨r, hr, hop, e⟩ | ⟨hne, e⟩ <;> rw [e]
  · simpa using ⟨r, hr, congrArg BitVec.toNat hop.symm⟩
  · simpa [BitVec.toNat_inj] using fun r hr => (hne r hr).symm

/-- Settles O1: `decode_encode`; every command is well-formed. -/
theorem decodeOfEncode : Obligations.DecodeOfEncode := fun i _ => decode_encode i

/-- Settles O2: the word's OP is the command's, and D is its operand where it has one; the mask keeps these bits. -/
theorem decodedWordReadWhole : Obligations.DecodedWordReadWhole := by
  intro w i h
  obtain ⟨hop, hd⟩ := (decode_eq_ok_iff w i).mp h
  rw [encode, ← hop]
  cases hi : i.operand with
  | none => exact (word_and_mask w).symm
  | some d =>
    obtain rfl : d = operandField w := by simpa [hi] using hd
    calc (opcodeField w ++ operandField w : Word)
        _ = w := (word_eq_fields w).symm
        _ = w &&& 0xFFFF#16 := BitVec.and_allOnes.symm

/-- Settles O3: the nine commands have no operand, so their OP alone selects them. -/
theorem nineCommandsIgnoreLowByte : Obligations.NineCommandsIgnoreLowByte := by
  intro i hi d
  have noOperand : i.operand = none := by
    revert i
    decide
  exact decode_opcode_append (by rw [noOperand, Option.getD_none])

/-- Settles O5: each word has the OP of its command and, where the command has an operand, D is it. -/
theorem writtenWordsDecode : Obligations.WrittenWordsDecode := by
  simp only [Obligations.WrittenWordsDecode, decode_eq_ok_iff]
  decide

/-! ### Illegal words -/

/-- An OP that no row of R75 has lies in one of R76's four ranges. -/
theorem decode_append_eq_error_iff (op d : Byte) : decode (op ++ d) = .error (.illegalOpcode op) ↔
    (0x04 ≤ op.toNat ∧ op.toNat ≤ 0x0F) ∨ (0x15 ≤ op.toNat ∧ op.toNat ≤ 0x1F) ∨
      (0x25 ≤ op.toNat ∧ op.toNat ≤ 0x2F) ∨ 0x31 ≤ op.toNat := by
  have h := decode_eq_error_iff (op ++ d)
  rw [opcodeField_append, opcodeTable_opcodes] at h
  rw [h]
  simp only [List.mem_cons, List.not_mem_nil, or_false, not_or]
  omega

/-- A word that decodes to no command is never held, and the step that takes it sets CMD_ERR alone (R76, R231). -/
theorem step_of_illegal {s : State} {w : Word} {ws : List Word} {ts : List Turn} {e : DecodeError}
    (hturns : s.env.turns = .command :: ts) (hport : s.env.cmdPort = w :: ws) (hdec : decode w = .error e) :
    s.cmdReady = true ∧ step s = .next { s with blk.cmdErr := true, env.cmdPort := ws, env.turns := ts } := by
  refine ⟨by simp only [State.cmdReady, hport, hdec], ?_⟩
  calc step s
      _ = commandEvent { s with env.turns := ts } := step_eq_event hturns
      _ = raiseCmdErr s.blk { s with env.turns := ts } := commandEvent_error hport hdec
      _ = .next { s with blk.cmdErr := true, env.cmdPort := ws, env.turns := ts } := by
        rw [raiseCmdErr_eq, State.leavePort, hport, List.tail_cons]

/-- Settles O4: `decode_append_eq_error_iff` gives the ranges, `decode_cases` the totality, `step_of_illegal` the
effect. -/
theorem illegalWordOnlySetsCmdErr : Obligations.IllegalWordOnlySetsCmdErr := by
  have total (w : Word) : (∃ i, decode w = .ok i) ∨ decode w = .error (.illegalOpcode (opcodeField w)) := by
    rcases decode_cases w with ⟨r, -, -, e⟩ | ⟨-, e⟩
    · exact .inl ⟨_, e⟩
    · exact .inr e
  refine ⟨decode_append_eq_error_iff, total, fun s w ws ts hturns hport hillegal => ?_⟩
  rcases total w with ⟨i, hi⟩ | herror
  · exact absurd hi (hillegal i)
  · exact step_of_illegal hturns hport herror

end Sys2Proof.Proofs
end

section
/-! Commands that the port accepts one after another (30_encoding.md R83, R84): with a host turn for each, the run is
the composition of what they do to the block. -/

namespace Sys2Proof.Proofs

open Sys2Proof Sys2Proof.Machine

/-- In every machine with the parameters `p` and the block `b` the command `i` is accepted, and the block becomes `c`. -/
def Completes (p : Params) (i : Instr) (b c : Block) : Prop :=
  ∀ s : State, s.par = p → s.blk = b → exec i s = complete c s

/-- The commands are accepted one after another, from the block `b` to the block `c`. -/
inductive CompletesAll (p : Params) : List Instr → Block → Block → Prop
  | nil (b : Block) : CompletesAll p [] b b
  | cons {i : Instr} {is : List Instr} {a b c : Block} (first : Completes p i a b) (rest : CompletesAll p is b c) :
      CompletesAll p (i :: is) a c

theorem CompletesAll.singleton {p : Params} {i : Instr} {b c : Block} (h : Completes p i b c) :
    CompletesAll p [i] b c := .cons h (.nil c)

theorem CompletesAll.append {p : Params} {is js : List Instr} {a b c : Block} (h : CompletesAll p is a b)
    (h' : CompletesAll p js b c) : CompletesAll p (is ++ js) a c := by
  induction h with
  | nil => exact h'
  | cons first _ ih => exact .cons first (ih h')

/-- A host's turn on an accepted command's word: the block changes, the word and the turn are gone. -/
theorem step_of_completes {s : State} {i : Instr} {b : Block} {ws : List Word} {ts : List Turn}
    (h : Completes s.par i s.blk b) (hport : s.env.cmdPort = encode i :: ws)
    (hturns : s.env.turns = .command :: ts) :
    step s = .next { s with blk := b, env.cmdPort := ws, env.turns := ts } := by
  calc step s
      _ = exec i { s with env.turns := ts } := stepRunsDecodedCommand s _ ws ts i hturns hport (decode_encode i)
      _ = complete b { s with env.turns := ts } := h _ rfl rfl
      _ = .next { s with blk := b, env.cmdPort := ws, env.turns := ts } := by
        rw [complete_eq, State.leavePort, hport, List.tail_cons]

/-- A run over accepted commands, with a host turn for each. -/
theorem run_of_completesAll {p : Params} {is : List Instr} {a b : Block} (h : CompletesAll p is a b) {s : State}
    {ws : List Word} {ts : List Turn} (hpar : s.par = p) (hblk : s.blk = a)
    (hport : s.env.cmdPort = assembleWords is ++ ws)
    (hturns : s.env.turns = List.replicate is.length .command ++ ts) :
    run is.length s = .next { s with blk := b, env.cmdPort := ws, env.turns := ts } := by
  induction h generalizing s with
  | nil =>
    subst hblk hport hturns
    rfl
  | cons first _ ih =>
    subst hpar hblk
    have hstep := step_of_completes first hport hturns
    rw [List.length_cons, run_succ hstep]
    exact ih rfl rfl rfl rfl

end Sys2Proof.Proofs
end

section
/-! CK_SUM (40_checksum.md R100, R105): CK_CLEAR, one CK_ADD for each byte and CK_READ leave the checksum in `acc` and
`result`. -/

namespace Sys2Proof.Proofs

open Sys2Proof Sys2Proof.Machine

@[simp] theorem checksum_nil : checksum [] = 0x00#8 := rfl

/-- The first byte's share of the checksum. -/
theorem checksum_cons (d : Byte) (L : List Byte) : checksum (d :: L) = d + checksum L := by
  apply BitVec.eq_of_toNat_eq
  simp [checksum]

/-- CK_ADD of each byte adds the checksum of the bytes to `acc`. -/
theorem completesAll_ckAdd (p : Params) (L : List Byte) (b : Block) :
    CompletesAll p (L.map .ckAdd) b { b with acc := b.acc + checksum L } := by
  induction L generalizing b with
  | nil =>
    rw [checksum_nil, BitVec.add_zero]
    exact .nil b
  | cons d L ih =>
    have first : Completes p (.ckAdd d) b { b with acc := b.acc + d } := fun s _ hblk => hblk ▸ rfl
    rw [checksum_cons, ← BitVec.add_assoc]
    exact .cons first (ih _)

/-- CK_SUM is accepted from every block, and leaves the checksum in `acc` and `result`. -/
theorem completesAll_ckSum (p : Params) (L : List Byte) (b : Block) :
    CompletesAll p (ckSum L) b { b with acc := checksum L, result := checksum L } := by
  have clear : Completes p .ckClear b { b with acc := 0x00#8 } := fun s _ hblk => hblk ▸ rfl
  have add : CompletesAll p (L.map .ckAdd) { b with acc := 0x00#8 } { b with acc := checksum L } := by
    simpa using completesAll_ckAdd p L { b with acc := 0x00#8 }
  have read : Completes p .ckRead { b with acc := checksum L } { b with acc := checksum L, result := checksum L } :=
    fun s _ hblk => by rw [exec, execCkRead, hblk]
  exact ((CompletesAll.singleton clear).append add).append (.singleton read)

/-- Settles O11: the port accepts every command of CK_SUM, so the run composes their effects. -/
theorem ckSumComputesChecksum : Obligations.CkSumComputesChecksum := by
  intro s L ws ts hport hturns
  exact run_of_completesAll (completesAll_ckSum s.par L s.blk) rfl rfl hport hturns

end Sys2Proof.Proofs
end

section
/-! The stuffing map and the laws of `encode` (30_encoding.md R81, 41_encoder.md R120 to R122). -/

namespace Sys2Proof.Proofs

open Sys2Proof Sys2Proof.Machine Sys2Proof.Config

/-! ### One byte -/

theorem stuff_flag : stuff FLAG = [ESC, ESC_FLAG] := rfl

theorem stuff_esc : stuff ESC = [ESC, ESC_ESC] := rfl

theorem stuff_of_ne {b : Byte} (hflag : b ≠ FLAG) (hesc : b ≠ ESC) : stuff b = [b] := by
  rw [stuff, if_neg hflag, if_neg hesc]

/-- A byte is stuffed as FLAG, as ESC, or as itself (R120). -/
theorem stuff_cases (b : Byte) :
    (b = FLAG ∧ stuff b = [ESC, ESC_FLAG]) ∨ (b = ESC ∧ stuff b = [ESC, ESC_ESC]) ∨
      (b ≠ FLAG ∧ b ≠ ESC ∧ stuff b = [b]) := by
  by_cases hflag : b = FLAG
  · exact .inl ⟨hflag, hflag ▸ stuff_flag⟩
  · by_cases hesc : b = ESC
    · exact .inr (.inl ⟨hesc, hesc ▸ stuff_esc⟩)
    · exact .inr (.inr ⟨hflag, hesc, stuff_of_ne hflag hesc⟩)

theorem length_stuff (b : Byte) : (stuff b).length = [b].length + [b].count FLAG + [b].count ESC := by
  rcases stuff_cases b with ⟨rfl, e⟩ | ⟨rfl, e⟩ | ⟨hflag, hesc, e⟩ <;> rw [e]
  · rfl
  · rfl
  · simp [hflag, hesc]

theorem flag_notMem_stuff (b : Byte) : FLAG ∉ stuff b := by
  rcases stuff_cases b with ⟨-, e⟩ | ⟨-, e⟩ | ⟨hflag, -, e⟩ <;> rw [e]
  · decide
  · decide
  · simpa using hflag.symm

/-- The interior scan of R140 reads a stuffed byte back as the byte. -/
@[simp] theorem unstuff_stuff_append (b : Byte) (m : List Byte) :
    unstuff (stuff b ++ m) = (unstuff m).map (b :: ·) := by
  rcases stuff_cases b with ⟨rfl, e⟩ | ⟨rfl, e⟩ | ⟨-, hesc, e⟩ <;> rw [e]
  · rfl
  · rfl
  · cases m with
    | nil => simp [unstuff, hesc]
    | cons c m => simp [unstuff, hesc]

/-! ### A payload -/

/-- Each 0x7D of the list is followed in it by 0x5E or 0x5D. -/
def EscapesPaired (m : List Byte) : Prop :=
  ∀ k, m[k]? = some ESC → m[k + 1]? = some ESC_FLAG ∨ m[k + 1]? = some ESC_ESC

theorem EscapesPaired.nil : EscapesPaired [] := nofun

theorem EscapesPaired.cons {b : Byte} {m : List Byte} (hb : b ≠ ESC) (hm : EscapesPaired m) : EscapesPaired (b :: m)
  | 0, h => absurd (Option.some.inj h) hb
  | k + 1, h => hm k h

/-- A selector keeps the pairs of what follows it, and completes the escape before it. -/
theorem EscapesPaired.pair {c : Byte} {m : List Byte} (hc : c = ESC_FLAG ∨ c = ESC_ESC) (hm : EscapesPaired m) :
    EscapesPaired (ESC :: c :: m)
  | 0, _ => hc.imp (congrArg some) (congrArg some)
  | k + 1, h => (hm.cons (by rcases hc with rfl | rfl <;> decide)) k h

theorem EscapesPaired.stuff_append (b : Byte) {m : List Byte} (hm : EscapesPaired m) :
    EscapesPaired (stuff b ++ m) := by
  rcases stuff_cases b with ⟨-, e⟩ | ⟨-, e⟩ | ⟨-, hesc, e⟩ <;> rw [e]
  · exact hm.pair (.inl rfl)
  · exact hm.pair (.inr rfl)
  · exact hm.cons hesc

theorem escapesPaired_flatMap_stuff (p : List Byte) : EscapesPaired (p.flatMap stuff) := by
  induction p with
  | nil => exact .nil
  | cons b p ih =>
    rw [List.flatMap_cons]
    exact ih.stuff_append b

theorem flag_notMem_flatMap_stuff (p : List Byte) : FLAG ∉ p.flatMap stuff := by
  rw [List.mem_flatMap]
  rintro ⟨b, -, h⟩
  exact flag_notMem_stuff b h

/-- The interior scan undoes the stuffing of every payload. -/
theorem unstuff_flatMap_stuff (p : List Byte) : unstuff (p.flatMap stuff) = some p := by
  induction p with
  | nil => rfl
  | cons b p ih => rw [List.flatMap_cons, unstuff_stuff_append, ih, Option.map_some]

/-- Stuffing adds one byte for each FLAG and each ESC of the payload. -/
theorem length_flatMap_stuff (p : List Byte) :
    (p.flatMap stuff).length = p.length + p.count FLAG + p.count ESC := by
  induction p with
  | nil => rfl
  | cons b p ih =>
    have hsplit : b :: p = [b] ++ p := rfl
    rw [List.flatMap_cons, List.length_append, ih, length_stuff, hsplit, List.length_append, List.count_append,
      List.count_append]
    omega

theorem length_flatMap_stuff_le (p : List Byte) : (p.flatMap stuff).length ≤ 2 * p.length := by
  induction p with
  | nil => exact Nat.le_refl 0
  | cons b p ih =>
    rw [List.flatMap_cons, List.length_append, List.length_cons]
    have := stuff_length b
    omega

/-! ### A frame -/

theorem length_frameEncode (p : List Byte) :
    (frameEncode p).length = p.length + 2 + p.count FLAG + p.count ESC := by
  simp only [frameEncode, List.length_append, List.length_singleton, length_flatMap_stuff]
  omega

theorem length_frameEncode_le (p : List Byte) : (frameEncode p).length ≤ 2 * p.length + 2 := by
  have := length_flatMap_stuff_le p
  simp only [frameEncode, List.length_append, List.length_singleton]
  omega

/-- What lies between the delimiters of an encoding is the stuffed payload. -/
theorem frameEncode_eq_iff (p m : List Byte) : frameEncode p = [FLAG] ++ m ++ [FLAG] ↔ p.flatMap stuff = m := by
  rw [frameEncode, List.append_left_inj, List.append_right_inj]

theorem frameEncode_injective {p q : List Byte} (h : frameEncode p = frameEncode q) : p = q := by
  have hm : p.flatMap stuff = q.flatMap stuff := (frameEncode_eq_iff p _).mp h
  apply Option.some.inj
  rw [← unstuff_flatMap_stuff p, hm, unstuff_flatMap_stuff]

/-- A FLAG between the delimiters is no encoding's. -/
theorem frameEncode_ne_flags (p : List Byte) : frameEncode p ≠ [FLAG] ++ [FLAG] ++ [FLAG] := by
  intro h
  have hm : p.flatMap stuff = [FLAG] := (frameEncode_eq_iff p _).mp h
  exact flag_notMem_flatMap_stuff p (hm ▸ List.mem_singleton_self FLAG)

/-- Settles O14: the laws of `stuff`, of the stuffed payload, and of the frame around it, each from its lemma above. -/
theorem encodeLaws : Obligations.EncodeLaws :=
  ⟨⟨stuff_flag, stuff_esc, fun _ => stuff_of_ne⟩, fun _ => ⟨rfl, List.getLast?_concat⟩,
    fun p => ⟨length_frameEncode p, length_frameEncode_le p⟩, rfl,
    fun p => ⟨p.flatMap stuff, rfl, flag_notMem_flatMap_stuff p, escapesPaired_flatMap_stuff p⟩,
    fun _ _ => frameEncode_injective, [FLAG] ++ [FLAG] ++ [FLAG], rfl, rfl, frameEncode_ne_flags⟩

end Sys2Proof.Proofs
end

section
/-! The laws of `checksum` (40_checksum.md R100, R101). -/

namespace Sys2Proof.Proofs

open Sys2Proof Sys2Proof.Machine Sys2Proof.Claims

theorem toNat_checksum (L : List Byte) : (checksum L).toNat = (L.map BitVec.toNat).sum % 256 := by
  simp [checksum]

/-- A sum does not depend on the order of its terms. -/
theorem checksum_perm {A B : List Byte} (h : A.Perm B) : checksum A = checksum B := by
  rw [checksum, checksum, (h.map BitVec.toNat).sum_eq]

theorem toNat_checksum_append (A B : List Byte) :
    (checksum (A ++ B)).toNat = ((checksum A).toNat + (checksum B).toNat) % 256 := by
  rw [toNat_checksum, toNat_checksum, toNat_checksum, List.map_append, List.sum_append, Nat.add_mod]

@[simp] theorem checksum_singleton (b : Byte) : checksum [b] = b := by
  rw [checksum_cons, checksum_nil, BitVec.add_zero]

/-- A zero byte adds nothing to the sum. -/
theorem checksum_filter_ne_zero (L : List Byte) : checksum (L.filter (· ≠ 0x00#8)) = checksum L := by
  induction L with
  | nil => rfl
  | cons b L ih =>
    by_cases hb : b = 0x00#8
    · rw [List.filter_cons_of_neg (by simpa using hb), ih, checksum_cons, hb, BitVec.zero_add]
    · rw [List.filter_cons_of_pos (by simpa using hb), checksum_cons, ih, checksum_cons]

/-- Settles O10: each law is its lemma above; the last is one sum. -/
theorem checksumLaws : Obligations.ChecksumLaws :=
  ⟨fun _ _ => checksum_perm, toNat_checksum_append, checksum_singleton, checksum_filter_ne_zero, by decide⟩

end Sys2Proof.Proofs
end

section
/-! The three commands of CKU (40_checksum.md R102 to R104): what each answers, and that STATUS (10_state.md R35) reads
neither field they write. -/

namespace Sys2Proof.Proofs

open Sys2Proof Sys2Proof.Machine Sys2Proof.Claims

theorem exec_ckClear (s : State) : exec .ckClear s = .next (accepted s { s.blk with acc := 0x00#8 }) := rfl

theorem exec_ckAdd (d : Byte) (s : State) :
    exec (.ckAdd d) s = .next (accepted s { s.blk with acc := addByte s.blk.acc d }) := rfl

theorem exec_ckRead (s : State) : exec .ckRead s = .next (accepted s { s.blk with result := s.blk.acc }) := rfl

/-- `acc` and `result` are no part of STATUS. -/
theorem status_accepted_acc_result (s : State) (a r : Byte) :
    (accepted s { s.blk with acc := a, result := r }).status = s.status := rfl

/-- Settles O7: OP 0x01 alone selects CK_CLEAR, which clears `acc`. -/
theorem ckClearZeroesAcc : Obligations.CkClearZeroesAcc :=
  fun s _ => ⟨decode_opcode_append (i := .ckClear) rfl, rfl, exec_ckClear s, status_accepted_acc_result s _ _⟩

/-- Settles O8: the new `acc` is the wrapping sum of the bytes, which is the sum of their values modulo 256. -/
theorem ckAddSumsModulo256 : Obligations.CkAddSumsModulo256 :=
  fun s d => ⟨decode_opcode_append (i := .ckAdd d) rfl, rfl, addByte s.blk.acc d, BitVec.toNat_add .., exec_ckAdd d s,
    status_accepted_acc_result s _ _⟩

/-- Settles O9: OP 0x03 alone selects CK_READ, which copies `acc`. -/
theorem ckReadCopiesAcc : Obligations.CkReadCopiesAcc :=
  fun s _ => ⟨decode_opcode_append (i := .ckRead) rfl, rfl, exec_ckRead s, status_accepted_acc_result s _ _⟩

end Sys2Proof.Proofs
end

section
/-! What a step does to the command port and to the turns to come (00_scope.md R10, 30_encoding.md R70, 20_memory.md
R61): only the host's own turn takes a word from the port, and then the block runs that word's command. -/

namespace Sys2Proof.Proofs

open Sys2Proof Sys2Proof.Machine

/-- A host's turn changes nothing, or the word on the port is accepted. -/
theorem commandEvent_cases {s t : State} (h : commandEvent s = .next t) :
    t = s ∨ ∃ (w : Word) (ws : List Word), s.env.cmdPort = w :: ws ∧ t = { s.leavePort with blk := t.blk } ∧
      ∀ i, decode w = .ok i → exec i s = .next t := by
  cases hport : s.env.cmdPort with
  | nil => cases (commandEvent_nil hport).symm.trans h; exact .inl rfl
  | cons w ws =>
    cases hdec : decode w with
    | ok i =>
      have hexec : exec i s = .next t := (commandEvent_ok hport hdec).symm.trans h
      rcases exec_cases i s with e | ⟨b, e⟩ <;> cases e.symm.trans hexec
      · exact .inl rfl
      · exact .inr ⟨w, ws, rfl, rfl, fun j hj => by cases hdec.symm.trans hj; exact e⟩
    | error e =>
      cases (commandEvent_error hport hdec).symm.trans h
      exact .inr ⟨w, ws, rfl, rfl, fun j hj => by cases hdec.symm.trans hj⟩

/-- The transport and reset touch neither the port nor the turns to come. -/
theorem event_keeps_port_and_turns {τ : Turn} {s t : State} (hcommand : τ ≠ .command) (hclient : τ ≠ .client)
    (h : event τ s = .next t) : t.env.cmdPort = s.env.cmdPort ∧ t.env.turns = s.env.turns := by
  cases τ with
  | command => exact absurd rfl hcommand
  | client => exact absurd rfl hclient
  | txPop =>
    cases h
    rcases txPopEvent_cases s with ⟨-, e⟩ | ⟨x, q, -, e⟩ <;> rw [e] <;> exact ⟨rfl, rfl⟩
  | rxByte =>
    cases h
    rcases rxByteEvent_cases s with ⟨-, e⟩ | ⟨x, rest, -, -, e⟩ <;> rw [e] <;> exact ⟨rfl, rfl⟩
  | rxTimeout =>
    cases h
    rcases rxTimeoutEvent_cases s with ⟨-, e⟩ | ⟨-, e⟩ <;> rw [e] <;> exact ⟨rfl, rfl⟩
  | reset => cases h; exact ⟨rfl, rfl⟩

/-- A step that is not the client's uses up its turn. It keeps the port, and the block too if it is the host's, or it
takes the word at the head of the port and is that word's command, if the word decodes. -/
theorem step_port_cases {s t : State} (hclient : s.env.turns.head? ≠ some .client) (hstep : step s = .next t) :
    t.env.turns = s.env.turns.tail ∧
    ((t.env.cmdPort = s.env.cmdPort ∧ (t.blk = s.blk ∨ s.env.turns.head? ≠ some .command)) ∨
      ∃ (w : Word) (ws : List Word), s.env.cmdPort = w :: ws ∧ t.env.cmdPort = ws ∧
        ∀ i, decode w = .ok i → exec i s.takeTurn = .next t) := by
  cases hturns : s.env.turns with
  | nil =>
    cases (step_of_nil hturns).symm.trans hstep
    exact ⟨hturns, .inl ⟨rfl, .inl rfl⟩⟩
  | cons τ ts =>
    rw [step_of_cons hturns] at hstep
    have htail : s.takeTurn.env.turns = ts := by rw [State.takeTurn_turns, hturns, List.tail_cons]
    by_cases hcommand : τ = .command
    · subst hcommand
      rcases commandEvent_cases hstep with rfl | ⟨w, ws, hport, ht, hexec⟩
      · exact ⟨htail, .inl ⟨rfl, .inl rfl⟩⟩
      · refine ⟨ht ▸ htail, .inr ⟨w, ws, hport, ?_, hexec⟩⟩
        rw [ht, State.leavePort_cmdPort, hport, List.tail_cons]
    · obtain ⟨hport, hts⟩ := event_keeps_port_and_turns hcommand (by simpa [hturns] using hclient) hstep
      exact ⟨hts.trans htail, .inl ⟨hport, .inr (by simpa using hcommand)⟩⟩

end Sys2Proof.Proofs
end

section
/-! CK_SUM among other commands (40_checksum.md R105, last sentence): until the port is empty, the commands on it bring
`acc` to the checksum, and the last of them copies it to `result`. -/

namespace Sys2Proof.Proofs

open Sys2Proof Sys2Proof.Machine Sys2Proof.Claims

/-- What CKU's commands make of `acc` (R102, R103); no other command but ENC_BYTE_ACC writes it. -/
def ckuAcc (a : Byte) : Instr → Byte
  | .ckClear => 0x00#8
  | .ckAdd d => addByte a d
  | _ => a

theorem exec_acc {i : Instr} {s t : State} (h : exec i s = .next t) (hi : ∀ d, i ≠ .encByteAcc d) :
    t.blk.acc = ckuAcc s.blk.acc i := by
  obtain ⟨u, hu, -, heffect⟩ := exec_answers i s
  cases hu.symm.trans h
  cases i with
  | ckClear => cases h; rfl
  | ckAdd d => cases h; rfl
  | encByteAcc d => exact absurd rfl (hi d)
  | _ => exact heffect.acc_eq nofun

/-- Commands that do not write `acc` can be left out. -/
theorem foldl_ckuAcc_filter (a : Byte) (cs : List Instr) : (cs.filter writesAcc).foldl ckuAcc a = cs.foldl ckuAcc a := by
  have skip : (fun a i => if writesAcc i then ckuAcc a i else a) = ckuAcc := by
    funext a i
    cases i <;> rfl
  rw [List.foldl_filter, skip]

theorem foldl_ckuAcc_ckAdd (a : Byte) (L : List Byte) : (L.map .ckAdd).foldl ckuAcc a = a + checksum L := by
  induction L generalizing a with
  | nil => exact (BitVec.add_zero a).symm
  | cons d L ih => rw [checksum_cons, ← BitVec.add_assoc]; exact ih (a + d)

/-- The port holds what is left of a CK_SUM of `L` with other commands in between: the commands `cs`, which bring `acc`
to the checksum, and CK_READ; or nothing, and `acc` and `result` hold the checksum. -/
inductive SumOffered (L : List Byte) (s : State) : Prop
  | pending (cs : List Instr) (port : s.env.cmdPort = assembleWords (cs ++ [.ckRead]))
      (others : ∀ d, .encByteAcc d ∉ cs) (sum : cs.foldl ckuAcc s.blk.acc = checksum L)
  | done (port : s.env.cmdPort = []) (acc : s.blk.acc = checksum L) (result : s.blk.result = checksum L)

/-- It is so at the start: the first command that writes `acc` clears it, the others add the bytes of `L`. -/
theorem SumOffered.start {L : List Byte} {s : State} {cs : List Instr}
    (hwriters : cs.filter writesAcc = .ckClear :: L.map .ckAdd)
    (hport : s.env.cmdPort = assembleWords (cs ++ [.ckRead])) : SumOffered L s := by
  refine .pending cs hport (fun d hd => ?_) ?_
  · have hmem : Instr.encByteAcc d ∈ cs.filter writesAcc := List.mem_filter.mpr ⟨hd, rfl⟩
    simp [hwriters] at hmem
  · calc cs.foldl ckuAcc s.blk.acc
        _ = (cs.filter writesAcc).foldl ckuAcc s.blk.acc := (foldl_ckuAcc_filter _ cs).symm
        _ = (L.map .ckAdd).foldl ckuAcc 0x00#8 := by rw [hwriters]; rfl
        _ = 0x00#8 + checksum L := foldl_ckuAcc_ckAdd _ L
        _ = checksum L := BitVec.zero_add _

/-- It stays so while the port and CKU's registers do. -/
theorem SumOffered.of_kept {L : List Byte} {s t : State} (h : SumOffered L s)
    (hport : t.env.cmdPort = s.env.cmdPort) (hacc : t.blk.acc = s.blk.acc) (hresult : t.blk.result = s.blk.result) :
    SumOffered L t := by
  cases h with
  | pending cs port others sum => exact .pending cs (hport.trans port) others (by rwa [hacc])
  | done port acc result => exact .done (hport.trans port) (hacc.trans acc) (hresult.trans result)

/-- It stays so when the port's first command is accepted. -/
theorem SumOffered.of_accepted {L : List Byte} {s t : State} {w : Word} {ws : List Word} (h : SumOffered L s)
    (hport : s.env.cmdPort = w :: ws) (htport : t.env.cmdPort = ws)
    (hexec : ∀ i, decode w = .ok i → exec i s.takeTurn = .next t) : SumOffered L t := by
  cases h with
  | done port => cases port.symm.trans hport
  | pending cs port others sum =>
    cases cs with
    | nil =>
      cases port.symm.trans hport
      cases (hexec .ckRead (decode_encode _)).symm.trans (exec_ckRead s.takeTurn)
      exact .done htport sum sum
    | cons i cs =>
      cases port.symm.trans hport
      have hacc := exec_acc (hexec i (decode_encode i)) fun d hi => others d (hi ▸ List.mem_cons_self)
      exact .pending cs htport (fun d hd => others d (List.mem_cons_of_mem i hd)) (hacc ▸ sum)

/-- It stays so through any step of the host or the transport. -/
theorem SumOffered.of_step {L : List Byte} {s t : State} (h : SumOffered L s)
    (hturns : ∀ τ ∈ s.env.turns, hostAndTransport τ) (hstep : step s = .next t) :
    SumOffered L t ∧ ∀ τ ∈ t.env.turns, hostAndTransport τ := by
  have hclient : s.env.turns.head? ≠ some .client := fun e => (hturns _ (List.mem_of_head? e)).2 rfl
  have hreset : s.env.turns.head? ≠ some .reset := fun e => (hturns _ (List.mem_of_head? e)).1 rfl
  obtain ⟨htail, hcases⟩ := step_port_cases hclient hstep
  refine ⟨?_, fun τ hτ => hturns τ (List.mem_of_mem_tail (htail ▸ hτ))⟩
  rcases hcases with ⟨hport, hblk | hcommand⟩ | ⟨w, ws, hport, htport, hexec⟩
  · exact h.of_kept hport (by rw [hblk]) (by rw [hblk])
  · rcases step_resets_or_commands_or_keeps hstep with hr | ⟨hc, -⟩ | ⟨hacc, hresult, -⟩
    · exact absurd hr hreset
    · exact absurd hc hcommand
    · exact h.of_kept hport hacc hresult
  · exact h.of_accepted hport htport hexec

/-- Settles O12: what is left of the sum is an invariant of the run, and an empty port leaves nothing of it. -/
theorem ckSumInterleaved : Obligations.CkSumInterleaved := by
  intro n s t L cs hwriters hport hturns hrun hempty
  obtain ⟨hsum, -⟩ := run_induction (P := fun s => SumOffered L s ∧ ∀ τ ∈ s.env.turns, hostAndTransport τ)
    (fun _ _ ⟨h, hturns⟩ hstep => h.of_step hturns hstep) ⟨.start hwriters hport, hturns⟩ hrun
  cases hsum with
  | pending cs port => simp [assembleWords, hempty] at port
  | done _ acc result => exact ⟨acc, result⟩

end Sys2Proof.Proofs
end

section
/-! The five commands of ENC (41_encoder.md R123 to R127): what each answers, what it needs, and what STATUS (10_state.md
R35) shows of the queue it leaves. -/

namespace Sys2Proof.Proofs

open Sys2Proof Sys2Proof.Machine Sys2Proof.Claims Sys2Proof.Config

/-! ### What each command answers -/

theorem exec_encOpen_of_open {s : State} (h : s.blk.encOpen = true) : exec .encOpen s = .next (rejected s) :=
  if_pos h

theorem exec_encOpen_of_closed {s : State} (h : s.blk.encOpen = false) :
    exec .encOpen s = emit [FLAG] { s.blk with encOpen := true } s := if_neg (by simp [h])

theorem exec_encByte_of_open {s : State} (h : s.blk.encOpen = true) (d : Byte) :
    exec (.encByte d) s = emit (stuff d) s.blk s := if_pos h

theorem exec_encByte_of_closed {s : State} (h : s.blk.encOpen = false) (d : Byte) :
    exec (.encByte d) s = .next (rejected s) := if_neg (by simp [h])

theorem exec_encByteAcc_of_open {s : State} (h : s.blk.encOpen = true) (d : Byte) :
    exec (.encByteAcc d) s = emit (stuff d) { s.blk with acc := addByte s.blk.acc d } s := if_pos h

theorem exec_encByteAcc_of_closed {s : State} (h : s.blk.encOpen = false) (d : Byte) :
    exec (.encByteAcc d) s = .next (rejected s) := if_neg (by simp [h])

theorem exec_encCksum_of_open {s : State} (h : s.blk.encOpen = true) :
    exec .encCksum s = emit (stuff s.blk.acc) s.blk s := if_pos h

theorem exec_encCksum_of_closed {s : State} (h : s.blk.encOpen = false) : exec .encCksum s = .next (rejected s) :=
  if_neg (by simp [h])

theorem exec_encClose_of_open {s : State} (h : s.blk.encOpen = true) :
    exec .encClose s = emit [FLAG] { s.blk with encOpen := false } s := if_pos h

theorem exec_encClose_of_closed {s : State} (h : s.blk.encOpen = false) : exec .encClose s = .next (rejected s) :=
  if_neg (by simp [h])

/-- A rejected command needs no space, so it is never held (60_exceptions.md R236). -/
theorem need_of_isRejected {i : Instr} {b : Block} (h : isRejected i b) : need i b = 0 := by
  cases i with
  | encOpen | encByte d | encByteAcc d | encCksum | encClose =>
    have hopen : b.encOpen = _ := h
    simp [need, hopen]
  | _ => rfl

/-- A push with room, onto a block whose queue is the one of the state. -/
theorem emit_eq_pushed {L : List Byte} {b : Block} {s : State} (hq : b.txq = s.blk.txq) (hroom : L.length ≤ free s) :
    emit L b s = .next (pushed s L b) := by
  rw [emit_of_le hroom, pushed, ← hq]
  rfl

/-! ### STATUS -/

theorem status_encOpen (s : State) : s.status.getLsbD 0 = s.blk.encOpen := by
  simp only [State.status, BitVec.getLsbD_append, BitVec.getLsbD_ofBool]
  simp

theorem status_txqEmpty (s : State) : s.status.getLsbD 11 = s.txqEmpty := by
  simp only [State.status, BitVec.getLsbD_append, BitVec.getLsbD_ofBool]
  simp

theorem status_txqFull (s : State) : s.status.getLsbD 12 = s.txqFull := by
  simp only [State.status, BitVec.getLsbD_append, BitVec.getLsbD_ofBool]
  simp

/-- After a push the queue is not empty, and TXQ_FULL is recomputed for its new length. -/
theorem queueStatus_pushed {L : List Byte} (hL : 0 < L.length) (s : State) (b : Block) :
    queueStatus (pushed s L b) (s.blk.txq.length + L.length) := by
  have hlen : (pushed s L b).blk.txq.length = s.blk.txq.length + L.length := List.length_append
  rw [queueStatus, status_txqEmpty, status_txqFull, State.txqEmpty, State.txqFull, hlen]
  exact ⟨beq_eq_false_iff_ne.mpr (by omega), beq_eq_decide ..⟩

theorem length_stuff_pos (d : Byte) : 0 < (stuff d).length := by
  rcases stuff_length d with h | h <;> omega

/-! ### The five commands -/

/-- Settles O15: with a frame open R123 rejects; with none, `emit` holds or pushes the FLAG. -/
theorem encOpenEmitsFlag : Obligations.EncOpenEmitsFlag :=
  fun s _ => ⟨decode_opcode_append (i := .encOpen) rfl,
    fun h => ⟨need_of_isRejected h, exec_encOpen_of_open h⟩,
    fun h hfull => (exec_encOpen_of_closed h).trans (emit_of_lt hfull),
    fun h hroom => ⟨_, (exec_encOpen_of_closed h).trans (emit_eq_pushed rfl hroom), rfl, status_encOpen _,
      queueStatus_pushed (L := [FLAG]) Nat.one_pos s _⟩⟩

/-- Settles O16: outside a frame R124 rejects; inside, `emit` holds or pushes the stuffed byte. -/
theorem encByteEmitsStuffed : Obligations.EncByteEmitsStuffed :=
  fun s d => ⟨decode_opcode_append (i := .encByte d) rfl,
    fun h => ⟨need_of_isRejected h, exec_encByte_of_closed h d⟩,
    fun h hfull => (exec_encByte_of_open h d).trans (emit_of_lt hfull),
    fun h hroom => ⟨_, (exec_encByte_of_open h d).trans (emit_eq_pushed rfl hroom), rfl,
      queueStatus_pushed (length_stuff_pos d) s _⟩⟩

/-- Settles O17: as ENC_BYTE, with R125's sum: the new `acc` is the wrapping sum of the bytes. -/
theorem encByteAccEmitsAndSums : Obligations.EncByteAccEmitsAndSums :=
  fun s d => ⟨decode_opcode_append (i := .encByteAcc d) rfl,
    fun h => ⟨need_of_isRejected h, exec_encByteAcc_of_closed h d⟩,
    fun h hfull => (exec_encByteAcc_of_open h d).trans (emit_of_lt hfull),
    fun h hroom => ⟨_, addByte s.blk.acc d, BitVec.toNat_add ..,
      (exec_encByteAcc_of_open h d).trans (emit_eq_pushed rfl hroom), rfl,
      queueStatus_pushed (length_stuff_pos d) s _⟩⟩

/-- Settles O18: as ENC_BYTE, with the accumulator as the byte (R126). -/
theorem encCksumEmitsAcc : Obligations.EncCksumEmitsAcc :=
  fun s _ => ⟨decode_opcode_append (i := .encCksum) rfl,
    fun h => ⟨need_of_isRejected h, exec_encCksum_of_closed h⟩,
    fun h hfull => (exec_encCksum_of_open h).trans (emit_of_lt hfull),
    fun h hroom => ⟨_, (exec_encCksum_of_open h).trans (emit_eq_pushed rfl hroom), rfl,
      queueStatus_pushed (length_stuff_pos s.blk.acc) s _⟩⟩

/-- Settles O19: outside a frame R127 rejects; inside, `emit` holds or pushes the FLAG. -/
theorem encCloseEmitsFlag : Obligations.EncCloseEmitsFlag :=
  fun s _ => ⟨decode_opcode_append (i := .encClose) rfl,
    fun h => ⟨need_of_isRejected h, exec_encClose_of_closed h⟩,
    fun h hfull => (exec_encClose_of_open h).trans (emit_of_lt hfull),
    fun h hroom => ⟨_, (exec_encClose_of_open h).trans (emit_eq_pushed rfl hroom), rfl, status_encOpen _,
      queueStatus_pushed (L := [FLAG]) Nat.one_pos s _⟩⟩

end Sys2Proof.Proofs
end

section
/-! What the port accepts (41_encoder.md R128, 70_reset_and_hazards.md R268): the block after an accepted command of
ENC_FRAME or SEND_MSG (30_encoding.md R83), and the hold rule for every command. -/

namespace Sys2Proof.Proofs

open Sys2Proof Sys2Proof.Machine Sys2Proof.Claims Sys2Proof.Config

/-- The commands ENC_FRAME and SEND_MSG are made of. -/
def Sends (i : Instr) : Prop := i = .ckClear ∨ isEnc i = true

/-- The block after the port has accepted the command, rejected or not, for a command that `Sends` names. -/
def sent (b : Block) : Instr → Block
  | .ckClear => { b with acc := 0x00#8 }
  | .encOpen => if b.encOpen then { b with cmdErr := true } else Block.txPush { b with encOpen := true } [FLAG]
  | .encByte d => if b.encOpen then b.txPush (stuff d) else { b with cmdErr := true }
  | .encByteAcc d =>
    if b.encOpen then Block.txPush { b with acc := addByte b.acc d } (stuff d) else { b with cmdErr := true }
  | .encCksum => if b.encOpen then b.txPush (stuff b.acc) else { b with cmdErr := true }
  | .encClose => if b.encOpen then Block.txPush { b with encOpen := false } [FLAG] else { b with cmdErr := true }
  | _ => b

/-- A command that sends is held exactly while its need does not fit; otherwise the block becomes `sent`. -/
theorem exec_of_sends {i : Instr} (h : Sends i) (s : State) :
    exec i s = if free s < need i s.blk then hold s else complete (sent s.blk i) s := by
  cases i with
  | ckClear => rfl
  | encOpen | encByte | encByteAcc | encCksum | encClose =>
    simp only [exec, execEncOpen, execEncByte, execEncByteAcc, execEncCksum, execEncClose, need, sent]
    split <;> rfl
  | _ => simp [Sends, isEnc] at h

theorem exec_of_sends_held {i : Instr} (h : Sends i) {s : State} (hfull : free s < need i s.blk) :
    exec i s = .next s := (exec_of_sends h s).trans (if_pos hfull)

theorem exec_of_sends_accepted {i : Instr} (h : Sends i) {s : State} (hfits : need i s.blk ≤ free s) :
    exec i s = complete (sent s.blk i) s := (exec_of_sends h s).trans (if_neg (Nat.not_lt.mpr hfits))

/-- An accepted command pushes exactly what it needs. -/
theorem sent_txq (b : Block) (i : Instr) : ∃ L, (sent b i).txq = b.txq ++ L ∧ L.length = need i b := by
  cases i with
  | encOpen | encByte | encByteAcc | encCksum | encClose =>
    cases hopen : b.encOpen <;> simp [sent, need, hopen]
  | _ => exact ⟨[], (List.append_nil _).symm, rfl⟩

/-- A command that RXD rejects while it receives ends in this event either way. -/
theorem unlessReceiving_completes {s : State} {b : Block} (hq : b.txq = s.blk.txq) :
    ∃ c, (if s.blk.rxSt = .receiving then raiseCmdErr s.blk s else complete b s) = complete c s ∧
      c.txq = s.blk.txq := by
  split
  · exact ⟨_, rfl, rfl⟩
  · exact ⟨b, rfl, hq⟩

/-- A command of the other units needs no space, ends in this event, and leaves the queue alone. -/
theorem exec_of_not_isEnc {i : Instr} (h : isEnc i = false) (s : State) :
    need i s.blk = 0 ∧ ∃ b, exec i s = complete b s ∧ b.txq = s.blk.txq := by
  cases i with
  | encOpen | encByte | encByteAcc | encCksum | encClose => cases h
  | nop | ckClear | ckAdd | ckRead | plLen => exact ⟨rfl, _, rfl, rfl⟩
  | decClear | rxArm => exact ⟨rfl, unlessReceiving_completes rfl⟩
  | decByte | decLast => exact ⟨rfl, unlessReceiving_completes (decStep_txq ..)⟩
  | plRead k =>
    refine ⟨rfl, ?_⟩
    by_cases hread : s.blk.decSt = .doneOk ∧ indexOperand k < s.blk.decLen
    · exact ⟨_, if_pos hread, rfl⟩
    · exact ⟨_, if_neg hread, rfl⟩

/-- The hold rule: without space for its need a command is held; with space it ends in this event and pushes exactly
that many bytes. -/
theorem exec_hold_cases (i : Instr) (s : State) :
    (free s < need i s.blk ∧ exec i s = .next s) ∨
    (need i s.blk ≤ free s ∧ ∃ b L, exec i s = complete b s ∧ b.txq = s.blk.txq ++ L ∧ L.length = need i s.blk) := by
  cases henc : isEnc i with
  | true =>
    obtain ⟨L, hq, hL⟩ := sent_txq s.blk i
    rcases Nat.lt_or_ge (free s) (need i s.blk) with hfull | hfits
    · exact .inl ⟨hfull, exec_of_sends_held (.inr henc) hfull⟩
    · exact .inr ⟨hfits, _, L, exec_of_sends_accepted (.inr henc) hfits, hq, hL⟩
  | false =>
    obtain ⟨hneed, b, hexec, hq⟩ := exec_of_not_isEnc henc s
    rw [hneed]
    exact .inr ⟨Nat.zero_le _, b, [], hexec, by rw [hq, List.append_nil], rfl⟩

/-- Settles O24: the two cases of the hold rule exclude each other, and CMD_READY asks which of them it is. -/
theorem holdRule : Obligations.HoldRule := by
  intro s i
  refine ⟨fun hfits => ?_, fun hfull => ?_, fun w ws hport hdec => ?_⟩
  · rcases exec_hold_cases i s with ⟨hfull, -⟩ | ⟨-, b, L, hexec, hq, hL⟩
    · omega
    · exact ⟨_, hexec, rfl, rfl, rfl, rfl, rfl, rfl, L, hq, hL⟩
  · rcases exec_hold_cases i s with ⟨-, hexec⟩ | ⟨hfits, -⟩
    · exact hexec
    · omega
  · simp only [State.cmdReady, hport, hdec]
    exact decide_eq_true_iff

end Sys2Proof.Proofs
end

section
/-! TX pops lift every hold (41_encoder.md R128, 44_ports.md R195): two free bytes are enough for any command. -/

namespace Sys2Proof.Proofs

open Sys2Proof Sys2Proof.Machine Sys2Proof.Claims

/-- No command pushes more than one stuffed byte. -/
theorem need_le_two (i : Instr) (b : Block) : need i b ≤ 2 := by
  have ifOpen {m n : Nat} (hm : m ≤ 2) (hn : n ≤ 2) : (if b.encOpen then m else n) ≤ 2 := by split <;> assumption
  have stuffed (d : Byte) : (stuff d).length ≤ 2 := by rcases stuff_length d with h | h <;> omega
  cases i with
  | encOpen => exact ifOpen (by decide) (by decide)
  | encByte d => exact ifOpen (stuffed d) (by decide)
  | encByteAcc d => exact ifOpen (stuffed d) (by decide)
  | encCksum => exact ifOpen (stuffed b.acc) (by decide)
  | encClose => exact ifOpen (by decide) (by decide)
  | _ => exact Nat.zero_le 2

theorem accepts_of_two_free {s : State} (h : s.blk.txq.length + 2 ≤ s.par.txqDepth) (i : Instr) :
    s.accepts i = true := by
  have hneed := need_le_two i s.blk
  have hfree : need i s.blk ≤ s.txFree := by unfold State.txFree; omega
  exact decide_eq_true hfree

/-- With two bytes free whatever is on the port is accepted, and so is every command. -/
theorem ready_of_two_free {s : State} (h : s.blk.txq.length + 2 ≤ s.par.txqDepth) :
    s.cmdReady = true ∧ ∀ i, s.accepts i = true := by
  refine ⟨?_, accepts_of_two_free h⟩
  unfold State.cmdReady
  split
  · rfl
  · split
    · exact accepts_of_two_free h _
    · rfl

/-- `k` TX pops hand the first `k` bytes of the queue over, in order. -/
theorem run_txPops {k : Nat} {s : State} {ts : List Turn} (hk : k ≤ s.blk.txq.length)
    (hturns : s.env.turns = List.replicate k .txPop ++ ts) :
    run k s = .next { s with blk.txq := s.blk.txq.drop k, env.txOut := s.env.txOut ++ s.blk.txq.take k,
                             env.turns := ts } := by
  induction k generalizing s with
  | zero =>
    subst hturns
    simp [run]
  | succ k ih =>
    obtain ⟨x, q, hq⟩ := List.exists_cons_of_length_pos (Nat.zero_lt_of_lt hk)
    have hstep : step s = .next { s with blk.txq := q, env.txOut := s.env.txOut ++ [x],
                                         env.turns := List.replicate k .txPop ++ ts } := by
      rw [step_eq_event hturns]
      simp [event, txPopEvent, hq]
    rw [run_succ hstep, ih (by simpa [hq] using hk) rfl]
    simp [hq]

/-- Settles O26: after two pops, or with the queue empty, two bytes are free (R8). -/
theorem popsLiftEveryHold : Obligations.PopsLiftEveryHold := by
  intro s hwf
  have hdepth : 2 ≤ s.par.txqDepth := by
    simp only [Params.wf, Bool.and_eq_true, decide_eq_true_eq] at hwf
    omega
  refine ⟨fun i => ⟨need_le_two i s.blk, fun h => accepts_of_two_free h i⟩, fun k ts hk hturns => ?_⟩
  have hlen : (s.blk.txq.drop k).length = s.blk.txq.length - k := List.length_drop
  refine ⟨_, run_txPops hk hturns, rfl, fun hle htwo => ready_of_two_free ?_, fun hall => ready_of_two_free ?_⟩ <;>
    dsimp only <;> omega

end Sys2Proof.Proofs
end

section
/-! ENC and the receive side commute (41_encoder.md R131): ENC reads and writes the transmit side of the block alone, an
RX event the receive side alone. -/

namespace Sys2Proof.Proofs

open Sys2Proof Sys2Proof.Machine Sys2Proof.Claims

/-- The receive side of `b` with the transmit side of `c`. -/
def withTransmitSide (b c : Block) : Block :=
  { b with acc := c.acc, result := c.result, encOpen := c.encOpen, txq := c.txq, cmdErr := c.cmdErr }

theorem sameTransmitSide_refl (b : Block) : sameTransmitSide b b := ⟨rfl, rfl, rfl, rfl, rfl⟩

theorem sameTransmitSide_trans {a b c : Block} (h : sameTransmitSide a b) (h' : sameTransmitSide b c) :
    sameTransmitSide a c := by
  obtain ⟨hacc, hresult, hopen, htxq, herr⟩ := h
  obtain ⟨hacc', hresult', hopen', htxq', herr'⟩ := h'
  exact ⟨hacc.trans hacc', hresult.trans hresult', hopen.trans hopen', htxq.trans htxq', herr.trans herr'⟩

/-! ### ENC -/

/-- What ENC needs is a function of the transmit side. -/
theorem need_of_sameTransmitSide {b c : Block} (h : sameTransmitSide c b) (i : Instr) : need i c = need i b := by
  obtain ⟨hacc, -, hopen, -, -⟩ := h
  simp only [need, hacc, hopen]

/-- ENC changes the transmit side alone, as a function of it. -/
theorem sent_of_sameTransmitSide {b c : Block} (h : sameTransmitSide c b) (i : Instr) :
    sent c i = withTransmitSide c (sent b i) := by
  obtain ⟨hacc, hresult, hopen, htxq, herr⟩ := h
  cases c
  subst hacc hresult hopen htxq herr
  cases i with
  | encOpen | encByte | encByteAcc | encCksum | encClose => simp only [sent]; split <;> rfl
  | _ => rfl

theorem sent_sameReceiveSide (b : Block) (i : Instr) : sameReceiveSide (sent b i) b := by
  rw [sent_of_sameTransmitSide (sameTransmitSide_refl b)]
  exact ⟨rfl, rfl, rfl, rfl, rfl, rfl, rfl⟩

/-! ### Receive events -/

/-- The function changes the receive side alone, and sees nothing else of the block. -/
def ActsOnReceiveSide (f : Block → Block) : Prop := ∀ b c, f (withTransmitSide b c) = withTransmitSide (f b) c

theorem ActsOnReceiveSide.id : ActsOnReceiveSide id := fun _ _ => rfl

theorem ActsOnReceiveSide.rxTimeout : ActsOnReceiveSide Block.rxTimeout := fun _ _ => rfl

theorem ActsOnReceiveSide.decStep (depth : Nat) (x : Byte) (last : Bool) :
    ActsOnReceiveSide (decStep depth x last) := by
  intro b c
  have h := decStep_other_fields depth x last b c.acc c.result c.encOpen c.cmdErr c.txq b.rxSt b.flagCnt b.rawCnt
  exact h.trans (by simp only [withTransmitSide, decStep_rxSt, decStep_flagCnt, decStep_rawCnt])

theorem ActsOnReceiveSide.rxByte (p : Params) (x : Byte) : ActsOnReceiveSide (Block.rxByte p x) := by
  intro b c
  have hflag : flagCountAfter x (withTransmitSide b c) = flagCountAfter x b := rfl
  have hraw : (withTransmitSide b c).rawCnt = b.rawCnt := rfl
  have hstep (last : Bool) :=
    ActsOnReceiveSide.decStep p.plbDepth x last { b with rawCnt := b.rawCnt + 1, flagCnt := flagCountAfter x b } c
  simp only [Block.rxByte, hflag, hraw]
  split
  · exact congrArg (fun b => { b with rxSt := .done }) (hstep true)
  · split
    · rfl
    · exact hstep false

theorem ActsOnReceiveSide.sameTransmitSide {f : Block → Block} (hf : ActsOnReceiveSide f) (b : Block) :
    sameTransmitSide (f b) b := by
  have h : f b = withTransmitSide (f b) b := hf b b
  rw [h]
  exact ⟨rfl, rfl, rfl, rfl, rfl⟩

/-- The event acts so on the block, and may take bytes from the transport; what it does is settled by the parameters,
the transport's bytes and RXD's state. -/
def IsReceiveEvent (e : State → State) : Prop :=
  ∀ s : State, ∃ (f : Block → Block) (rx : List Byte), ActsOnReceiveSide f ∧
    ∀ t : State, t.par = s.par → t.env.rxIn = s.env.rxIn → t.blk.rxSt = s.blk.rxSt →
      e t = { t with blk := f t.blk, env.rxIn := rx }

theorem isReceiveEvent_rxByteEvent : IsReceiveEvent rxByteEvent := by
  intro s
  rcases rxByteEvent_cases s with ⟨hidle, -⟩ | ⟨x, rest, harmed, hrx, -⟩
  · refine ⟨id, s.env.rxIn, .id, fun t _ hrx hst => ?_⟩
    rw [← hrx, ← hst] at hidle
    rcases rxByteEvent_cases t with ⟨-, e⟩ | ⟨y, rest, harmed, hy, -⟩
    · rw [e, ← hrx]; rfl
    · simp [hy, harmed] at hidle
  · refine ⟨Block.rxByte s.par x, rest, .rxByte s.par x, fun t hpar hrx' hst => ?_⟩
    rcases rxByteEvent_cases t with ⟨hidle, -⟩ | ⟨y, rest', -, hy, e⟩
    · simp [hrx', hrx, hst, harmed] at hidle
    · cases hy.symm.trans (hrx'.trans hrx)
      rw [e, hpar]

theorem isReceiveEvent_rxTimeoutEvent : IsReceiveEvent rxTimeoutEvent := by
  intro s
  rcases rxTimeoutEvent_cases s with ⟨hidle, -⟩ | ⟨harmed, -⟩
  · refine ⟨id, s.env.rxIn, .id, fun t _ hrx hst => ?_⟩
    rcases rxTimeoutEvent_cases t with ⟨-, e⟩ | ⟨harmed, -⟩
    · rw [e, ← hrx]; rfl
    · exact absurd (hst.symm.trans harmed) hidle
  · refine ⟨Block.rxTimeout, s.env.rxIn, .rxTimeout, fun t _ hrx hst => ?_⟩
    rcases rxTimeoutEvent_cases t with ⟨hidle, -⟩ | ⟨-, e⟩
    · exact absurd (hst.trans harmed) hidle
    · rw [e, ← hrx]

theorem IsReceiveEvent.sameTransmitSide {e : State → State} (he : IsReceiveEvent e) (s : State) :
    sameTransmitSide (e s).blk s.blk := by
  obtain ⟨f, rx, hf, heq⟩ := he s
  rw [heq s rfl rfl rfl]
  exact hf.sameTransmitSide s.blk

/-- An ENC command and a receive event can be exchanged: both orders hold the command, or both end it in the same
state. -/
theorem IsReceiveEvent.commutes {e : State → State} (he : IsReceiveEvent e) {i : Instr} (hi : Sends i) {s t : State}
    (h : exec i s = .next t) : exec i (e s) = .next (e t) := by
  obtain ⟨f, rx, hf, heq⟩ := he s
  have hsame := hf.sameTransmitSide s.blk
  have hneed : need i (f s.blk) = need i s.blk := need_of_sameTransmitSide hsame i
  have hsent : sent (f s.blk) i = f (sent s.blk i) := by
    rw [sent_of_sameTransmitSide hsame, ← hf, ← sent_of_sameTransmitSide (sameTransmitSide_refl s.blk)]
  have hfree : free { s with blk := f s.blk, env.rxIn := rx } = free s := by
    obtain ⟨-, -, -, htxq, -⟩ := hsame
    simp only [free, htxq]
  rw [heq s rfl rfl rfl]
  rcases Nat.lt_or_ge (free s) (need i s.blk) with hfull | hfits
  · cases (exec_of_sends_held hi hfull).symm.trans h
    rw [← hfree, ← hneed] at hfull
    rw [heq s rfl rfl rfl]
    exact exec_of_sends_held hi hfull
  · cases (exec_of_sends_accepted hi hfits).symm.trans h
    obtain ⟨-, -, -, -, hst, -⟩ := sent_sameReceiveSide s.blk i
    rw [← hfree, ← hneed] at hfits
    rw [heq { s.leavePort with blk := sent s.blk i } rfl rfl hst, ← hsent]
    exact exec_of_sends_accepted hi hfits

/-- Settles O23: ENC acts on the transmit side, and both RX events are receive events. -/
theorem encCommutesWithReceive : Obligations.EncCommutesWithReceive := by
  intro s i hi
  have hsends : Sends i := .inr hi
  have hreceive {t : State} (h : exec i s = .next t) : sameReceiveSide t.blk s.blk := by
    rw [exec_of_sends hsends] at h
    split at h <;> cases h
    · exact ⟨rfl, rfl, rfl, rfl, rfl, rfl, rfl⟩
    · exact sent_sameReceiveSide s.blk i
  obtain ⟨t, h⟩ := exec_next i s
  exact ⟨t, h, hreceive h, isReceiveEvent_rxByteEvent.sameTransmitSide s,
    isReceiveEvent_rxTimeoutEvent.sameTransmitSide s, isReceiveEvent_rxByteEvent.commutes hsends h,
    isReceiveEvent_rxTimeoutEvent.commutes hsends h⟩

end Sys2Proof.Proofs
end

section
/-! ENC_FRAME and SEND_MSG (30_encoding.md R83, 41_encoder.md R129, R130): what their commands, all accepted, make of a
block, and that a run in which the port accepts them does just this. -/

namespace Sys2Proof.Proofs

open Sys2Proof Sys2Proof.Machine Sys2Proof.Claims

/-! ### The commands of a pseudo-instruction, one after another -/

theorem sends_of_mem_encFrame {p : List Byte} : ∀ i ∈ encFrame p, Sends i := by
  intro i hi
  simp only [encFrame, List.mem_append, List.mem_map, List.mem_singleton] at hi
  rcases hi with (rfl | ⟨d, -, rfl⟩) | rfl <;> exact .inr rfl

theorem sends_of_mem_sendMsg {r : List Byte} : ∀ i ∈ sendMsg r, Sends i := by
  intro i hi
  simp only [sendMsg, List.mem_append, List.mem_map, List.mem_cons, List.not_mem_nil, or_false] at hi
  rcases hi with ((rfl | rfl) | ⟨d, -, rfl⟩) | rfl | rfl
  · exact .inl rfl
  all_goals exact .inr rfl

/-- ENC_BYTE of each byte pushes the stuffed bytes. -/
theorem foldl_sent_encByte {b : Block} (h : b.encOpen = true) (p : List Byte) :
    (p.map .encByte).foldl sent b = b.txPush (p.flatMap stuff) := by
  induction p generalizing b with
  | nil => simp [Block.txPush]
  | cons d p ih =>
    have first : sent b (.encByte d) = b.txPush (stuff d) := if_pos h
    rw [List.map_cons, List.foldl_cons, first, ih (b := b.txPush (stuff d)) h]
    simp [Block.txPush]

/-- ENC_BYTE_ACC of each byte pushes the stuffed bytes and adds the checksum of the bytes. -/
theorem foldl_sent_encByteAcc {b : Block} (h : b.encOpen = true) (r : List Byte) :
    (r.map .encByteAcc).foldl sent b = Block.txPush { b with acc := b.acc + checksum r } (r.flatMap stuff) := by
  induction r generalizing b with
  | nil => simp [Block.txPush]
  | cons d r ih =>
    have first : sent b (.encByteAcc d) = Block.txPush { b with acc := b.acc + d } (stuff d) := if_pos h
    rw [List.map_cons, List.foldl_cons, first,
      ih (b := Block.txPush { b with acc := b.acc + d } (stuff d)) h]
    simp [Block.txPush, checksum_cons, BitVec.add_assoc]

/-- With no frame open ENC_FRAME pushes the frame, and leaves the rest as it was. -/
theorem foldl_sent_encFrame {b : Block} (h : b.encOpen = false) (p : List Byte) :
    (encFrame p).foldl sent b = b.txPush (frameEncode p) := by
  simp [encFrame, sent, h, foldl_sent_encByte, frameEncode, Block.txPush]

/-- With no frame open SEND_MSG pushes the frame of the message and its checksum, and leaves the checksum in `acc`. -/
theorem foldl_sent_sendMsg {b : Block} (h : b.encOpen = false) (r : List Byte) :
    (sendMsg r).foldl sent b = Block.txPush { b with acc := checksum r } (frameEncode (r ++ [checksum r])) := by
  simp [sendMsg, sent, h, foldl_sent_encByteAcc, frameEncode, Block.txPush]

/-! ### A queue with room for all of it -/

theorem completes_sent {p : Params} {i : Instr} {b : Block} (hi : Sends i)
    (hroom : (sent b i).txq.length ≤ p.txqDepth) : Completes p i b (sent b i) := by
  intro s hpar hblk
  subst hpar hblk
  obtain ⟨L, hq, hL⟩ := sent_txq s.blk i
  rw [hq, List.length_append] at hroom
  exact exec_of_sends_accepted hi (by unfold free; omega)

theorem length_txq_le_foldl_sent (is : List Instr) (b : Block) : b.txq.length ≤ (is.foldl sent b).txq.length := by
  induction is generalizing b with
  | nil => exact Nat.le_refl _
  | cons i is ih =>
    obtain ⟨L, hq, -⟩ := sent_txq b i
    have hle : b.txq.length ≤ (sent b i).txq.length := by rw [hq, List.length_append]; omega
    exact hle.trans (ih _)

/-- If all that is pushed fits, no command is held. -/
theorem completesAll_sent {p : Params} {is : List Instr} (his : ∀ i ∈ is, Sends i) {b : Block}
    (hroom : (is.foldl sent b).txq.length ≤ p.txqDepth) : CompletesAll p is b (is.foldl sent b) := by
  induction is generalizing b with
  | nil => exact .nil b
  | cons i is ih =>
    rw [List.forall_mem_cons] at his
    exact .cons (completes_sent his.1 ((length_txq_le_foldl_sent is _).trans hroom)) (ih his.2 hroom)

/-- Settles O20: the frame fits, so no command is held, and together they push it. -/
theorem encFrameRuns : Obligations.EncFrameRuns := by
  intro s p ws ts hclosed hroom hport hturns
  have hframe := foldl_sent_encFrame hclosed p
  have hall : CompletesAll s.par (encFrame p) s.blk (s.blk.txPush (frameEncode p)) := by
    rw [← hframe]
    exact completesAll_sent sends_of_mem_encFrame (by rwa [hframe, Block.txPush_txq, List.length_append])
  exact run_of_completesAll hall rfl rfl hport hturns

end Sys2Proof.Proofs
end

section
/-! ENC_FRAME and SEND_MSG under every interleaving with the transport's events, holds included (41_encoder.md R129,
R130, 20_memory.md R61): the commands still on the port, accepted one after another, lead to one and the same transmit
side throughout the run. -/

namespace Sys2Proof.Proofs

open Sys2Proof Sys2Proof.Machine Sys2Proof.Claims

/-- The block as it would be had the transport never taken a byte. -/
def unpopped (s : State) : Block := { s.blk with txq := s.env.txOut ++ s.blk.txq }

/-- Bytes ahead of the queue are nothing to an accepted command. -/
theorem unpopped_sent (i : Instr) (s : State) :
    unpopped { s.leavePort with blk := sent s.blk i } = sent (unpopped s) i := by
  cases i with
  | encOpen | encByte | encByteAcc | encCksum | encClose =>
    cases hopen : s.blk.encOpen <;> simp [unpopped, sent, hopen, Block.txPush]
  | _ => rfl

theorem foldl_sent_of_sameTransmitSide {b c : Block} (h : sameTransmitSide c b) (is : List Instr) :
    sameTransmitSide (is.foldl sent c) (is.foldl sent b) := by
  induction is generalizing b c with
  | nil => exact h
  | cons i is ih =>
    refine ih ?_
    rw [sent_of_sameTransmitSide h]
    exact ⟨rfl, rfl, rfl, rfl, rfl⟩

/-- Besides the host's turn and a reset, a step changes no more of the transmit side than the queue. -/
theorem BlockStep.keeps_transmit_registers {s : State} {b : Block} (hstep : BlockStep s b)
    (hreset : s.env.turns.head? ≠ some .reset) (hcommand : s.env.turns.head? ≠ some .command) :
    b.acc = s.blk.acc ∧ b.result = s.blk.result ∧ b.encOpen = s.blk.encOpen ∧ b.cmdErr = s.blk.cmdErr := by
  cases hstep with
  | command turn => exact absurd turn hcommand
  | illegal turn => exact absurd turn hcommand
  | reset turn => exact absurd turn hreset
  | rxByte x =>
    obtain ⟨hacc, hresult, hopen, -, herr⟩ := (ActsOnReceiveSide.rxByte s.par x).sameTransmitSide s.blk
    exact ⟨hacc, hresult, hopen, herr⟩
  | _ => exact ⟨rfl, rfl, rfl, rfl⟩

/-- Besides a reset and the host's turn, unless it leaves the block alone, a step keeps the stream. -/
theorem step_stream_eq {s t : State} (hstep : step s = .next t) (hreset : s.env.turns.head? ≠ some .reset)
    (hkeeps : t.blk = s.blk ∨ s.env.turns.head? ≠ some .command) :
    t.env.txOut ++ t.blk.txq = s.env.txOut ++ s.blk.txq := by
  by_cases hpop : s.env.turns.head? = some .txPop
  · exact step_txPop_stream hstep hpop
  rw [step_txOut hstep hpop]
  rcases hkeeps with hblk | hcommand
  · rw [hblk]
  · obtain ⟨-, hblk⟩ := step_blockStep hstep
    obtain ⟨L, hq, hL⟩ := hblk.txq_grows hreset hpop
    obtain rfl : L = [] := by_contra fun hne => hcommand (hL hne).1
    rw [hq, List.append_nil]

/-- Such a step keeps the transmit side, pops aside. -/
theorem step_unpopped {s t : State} (hstep : step s = .next t) (hreset : s.env.turns.head? ≠ some .reset)
    (hkeeps : t.blk = s.blk ∨ s.env.turns.head? ≠ some .command) :
    sameTransmitSide (unpopped t) (unpopped s) := by
  have hcontrol : t.blk.acc = s.blk.acc ∧ t.blk.result = s.blk.result ∧ t.blk.encOpen = s.blk.encOpen ∧
      t.blk.cmdErr = s.blk.cmdErr := by
    rcases hkeeps with hblk | hcommand
    · rw [hblk]
      exact ⟨rfl, rfl, rfl, rfl⟩
    · obtain ⟨-, hblk⟩ := step_blockStep hstep
      exact hblk.keeps_transmit_registers hreset hcommand
  obtain ⟨hacc, hresult, hopen, herr⟩ := hcontrol
  exact ⟨hacc, hresult, hopen, step_stream_eq hstep hreset hkeeps, herr⟩

/-- The port holds sending commands which, all accepted, will make the transmit side that of `b`. -/
def WillSend (b : Block) (s : State) : Prop :=
  ∃ is : List Instr, (∀ i ∈ is, Sends i) ∧ s.env.cmdPort = assembleWords is ∧
    sameTransmitSide (is.foldl sent (unpopped s)) b

/-- It stays so while the port and the transmit side do, pops aside. -/
theorem WillSend.of_kept {b : Block} {s t : State} (h : WillSend b s) (hport : t.env.cmdPort = s.env.cmdPort)
    (hsame : sameTransmitSide (unpopped t) (unpopped s)) : WillSend b t := by
  obtain ⟨is, his, hs, hb⟩ := h
  exact ⟨is, his, hport.trans hs, sameTransmitSide_trans (foldl_sent_of_sameTransmitSide hsame is) hb⟩

/-- It stays so when the port's first command is accepted. -/
theorem WillSend.of_accepted {b : Block} {s t : State} {w : Word} {ws : List Word} (h : WillSend b s)
    (hport : s.env.cmdPort = w :: ws) (htport : t.env.cmdPort = ws)
    (hexec : ∀ i, decode w = .ok i → exec i s.takeTurn = .next t) : WillSend b t := by
  obtain ⟨_ | ⟨i, is⟩, his, hs, hb⟩ := h <;> cases hs.symm.trans hport
  rw [List.forall_mem_cons] at his
  have hi := hexec i (decode_encode i)
  rw [exec_of_sends his.1] at hi
  split at hi <;> cases hi
  · simp [hport] at htport
  · exact ⟨is, his.2, htport, by rwa [unpopped_sent]⟩

/-- It stays so through any step of the host or the transport. -/
theorem WillSend.of_step {b : Block} {s t : State} (h : WillSend b s)
    (hturns : ∀ τ ∈ s.env.turns, hostAndTransport τ) (hstep : step s = .next t) :
    WillSend b t ∧ ∀ τ ∈ t.env.turns, hostAndTransport τ := by
  have hclient : s.env.turns.head? ≠ some .client := fun e => (hturns _ (List.mem_of_head? e)).2 rfl
  have hreset : s.env.turns.head? ≠ some .reset := fun e => (hturns _ (List.mem_of_head? e)).1 rfl
  obtain ⟨htail, hcases⟩ := step_port_cases hclient hstep
  refine ⟨?_, fun τ hτ => hturns τ (List.mem_of_mem_tail (htail ▸ hτ))⟩
  rcases hcases with ⟨hport, hkeeps⟩ | ⟨w, ws, hport, htport, hexec⟩
  · exact h.of_kept hport (step_unpopped hstep hreset hkeeps)
  · exact h.of_accepted hport htport hexec

/-- Once the port has accepted the commands, the transmit side is what they make of it, pops aside. -/
theorem unpopped_of_run {n : Nat} {s t : State} {is : List Instr} (his : ∀ i ∈ is, Sends i)
    (hport : s.env.cmdPort = assembleWords is) (hturns : ∀ τ ∈ s.env.turns, hostAndTransport τ)
    (hrun : run n s = .next t) (hempty : t.env.cmdPort = []) :
    sameTransmitSide (unpopped t) (is.foldl sent (unpopped s)) := by
  obtain ⟨⟨js, -, hjs, hsame⟩, -⟩ := run_induction
    (P := fun u => WillSend (is.foldl sent (unpopped s)) u ∧ ∀ τ ∈ u.env.turns, hostAndTransport τ)
    (fun _ _ ⟨h, hturns⟩ hstep => h.of_step hturns hstep)
    ⟨⟨is, his, hport, sameTransmitSide_refl _⟩, hturns⟩ hrun
  obtain rfl : js = [] := List.map_eq_nil_iff.mp (hjs.symm.trans hempty)
  exact hsame

/-- Settles O21: accepted in full, ENC_FRAME pushes the frame. -/
theorem encFrameStreamsEncode : Obligations.EncFrameStreamsEncode := by
  intro n s t p hclosed hport hturns hrun hempty
  have h := unpopped_of_run sends_of_mem_encFrame hport hturns hrun hempty
  rw [foldl_sent_encFrame (b := unpopped s) hclosed] at h
  obtain ⟨hacc, -, hopen, htxq, herr⟩ := h
  exact ⟨htxq, hopen.trans hclosed, hacc, herr⟩

/-- Settles O22: accepted in full, SEND_MSG pushes the frame of the message and its checksum, which stays in `acc`. -/
theorem sendMsgStreamsMessage : Obligations.SendMsgStreamsMessage := by
  intro n s t r hclosed hport hturns hrun hempty
  have h := unpopped_of_run sends_of_mem_sendMsg hport hturns hrun hempty
  rw [foldl_sent_sendMsg (b := unpopped s) hclosed] at h
  obtain ⟨hacc, -, hopen, htxq, herr⟩ := h
  exact ⟨htxq, hopen.trans hclosed, hacc, herr⟩

end Sys2Proof.Proofs
end

section
/-! The decoder step of 42_decoder.md R144, one equation for each row of its case table. -/

namespace Sys2Proof.Proofs

open Sys2Proof Sys2Proof.Machine Sys2Proof.Config

variable {depth : Nat} {x : Byte} {b : Block}

/-- DEC expects the first byte of a frame, at once or by the implicit restart of R148. -/
def AwaitsFrame (b : Block) : Prop := b.decSt = .idle ∨ b.decSt = .doneOk ∨ b.decSt = .doneFail

/-! ### A byte that is not the frame's last -/

theorem decStep_idle_flag (h : b.decSt = .idle) : decStep depth FLAG false b = { b with decSt := .body } := by
  simp [decStep, h, decFirst]

theorem decStep_restart_flag (h : b.decSt = .doneOk ∨ b.decSt = .doneFail) :
    decStep depth FLAG false b = { b with decSt := .body, decLen := 0, decCause := .none } := by
  rcases h with h | h <;> simp [decStep, h, decFirst, Block.decCleared]

theorem decStep_first_of_ne (h : AwaitsFrame b) (hx : x ≠ FLAG) :
    decStep depth x false b = b.decLatch .noOpenFlag := by
  rcases h with h | h | h <;> simp [decStep, h, decFirst, hx, Block.decLatch, Block.decCleared]

theorem decStep_body_esc (h : b.decSt = .body) : decStep depth ESC false b = { b with decSt := .esc } := by
  simp [decStep, h, decBody]

theorem decStep_body_of_ne (h : b.decSt = .body) (hx : x ≠ ESC) :
    decStep depth x false b = b.decAppend depth x .body := by
  simp [decStep, h, decBody, hx]

theorem decStep_esc_escFlag (h : b.decSt = .esc) :
    decStep depth ESC_FLAG false b = b.decAppend depth FLAG .body := by
  simp [decStep, h, decEsc]

theorem decStep_esc_escEsc (h : b.decSt = .esc) : decStep depth ESC_ESC false b = b.decAppend depth ESC .body := by
  have hne : ESC_ESC ≠ ESC_FLAG := by decide
  simp [decStep, h, decEsc, hne]

theorem decStep_esc_of_ne (h : b.decSt = .esc) (hflag : x ≠ ESC_FLAG) (hesc : x ≠ ESC_ESC) :
    decStep depth x false b = b.decLatch .badEscape := by
  simp [decStep, h, decEsc, hflag, hesc]

theorem decStep_bad (h : b.decSt = .bad) : decStep depth x false b = b := by
  simp [decStep, h, decBad]

/-! ### The frame's last byte -/

theorem decStep_last_first (h : AwaitsFrame b) : decStep depth x true b = b.decFail .shortFrame := by
  rcases h with h | h | h <;> simp [decStep, h, decFirst, Block.decFail, Block.decCleared]

theorem decStep_last_body_flag (h : b.decSt = .body) : decStep depth FLAG true b = { b with decSt := .doneOk } := by
  simp [decStep, h, decBody]

theorem decStep_last_esc_flag (h : b.decSt = .esc) : decStep depth FLAG true b = b.decFail .escAtEnd := by
  simp [decStep, h, decEsc]

theorem decStep_last_of_ne (h : b.decSt = .body ∨ b.decSt = .esc) (hx : x ≠ FLAG) :
    decStep depth x true b = b.decFail .noCloseFlag := by
  rcases h with h | h <;> simp [decStep, h, decBody, decEsc, hx]

theorem decStep_last_bad (h : b.decSt = .bad) : decStep depth x true b = { b with decSt := .doneFail } := by
  simp [decStep, h, decBad]

/-! ### APPEND -/

theorem decAppend_of_lt (h : b.decLen < depth) (v : Byte) (st : DecSt) : b.decAppend depth v st =
    { b with plb := b.plb.write b.decLen v, decLen := b.decLen + 1, decSt := st } := if_pos h

theorem decAppend_of_le (h : depth ≤ b.decLen) (v : Byte) (st : DecSt) :
    b.decAppend depth v st = b.decLatch .overflow := if_neg (Nat.not_lt.mpr h)

end Sys2Proof.Proofs
end

section
/-! The commands of DEC (42_decoder.md R149 to R151): rejected while RXD receives, otherwise accepted with one effect on
DEC, whose cases are the equations of the decoder step. -/

namespace Sys2Proof.Proofs

open Sys2Proof Sys2Proof.Machine Sys2Proof.Claims Sys2Proof.Config

section Receiving

variable {s : State} (h : s.blk.rxSt = .receiving)
include h

theorem exec_decClear_of_receiving : exec .decClear s = .next (rejected s) := if_pos h

theorem exec_decByte_of_receiving (d : Byte) : exec (.decByte d) s = .next (rejected s) := if_pos h

theorem exec_decLast_of_receiving (d : Byte) : exec (.decLast d) s = .next (rejected s) := if_pos h

end Receiving

section Unarmed

variable {s : State} (h : s.blk.rxSt ≠ .receiving)
include h

theorem exec_decClear_unarmed : exec .decClear s = complete s.blk.decCleared s := if_neg h

theorem exec_decByte_unarmed (d : Byte) :
    exec (.decByte d) s = complete (decStep s.par.plbDepth d false s.blk) s := if_neg h

theorem exec_decLast_unarmed (d : Byte) :
    exec (.decLast d) s = complete (decStep s.par.plbDepth d true s.blk) s := if_neg h

end Unarmed

/-- Settles O30: R149's two branches; the cleared state and cause have the code 0 in STATUS. -/
theorem decClearRestarts : Obligations.DecClearRestarts :=
  fun _ _ => ⟨decode_opcode_append (i := .decClear) rfl, rfl, exec_decClear_of_receiving, fun h =>
    ⟨_, exec_decClear_unarmed h, rfl, statusDecSt_status _, statusDecCause_status _⟩⟩

/-- APPEND with room stores the byte where a read then finds it. -/
theorem plbByte_append (b : Block) (v : Byte) (st : DecSt) :
    Block.plbByte { b with plb := b.plb.write b.decLen v, decLen := b.decLen + 1, decSt := st } b.decLen = v := by
  simp [Block.plbByte]

/-- Settles O31: each clause is one row of R144 for a byte that is not the last, with APPEND at and below PLB_DEPTH. -/
theorem decByteSteps : Obligations.DecByteSteps := by
  intro s d
  refine ⟨decode_opcode_append (i := .decByte d) rfl, rfl, (exec_decByte_of_receiving · d), fun hrx =>
    ⟨_, exec_decByte_unarmed hrx d, rfl, ?_, ?_, decStep_first_of_ne, ?_, ?_, ?_, ?_, ?_, decStep_esc_of_ne,
      decStep_bad⟩⟩
  · rintro hst rfl; exact decStep_idle_flag hst
  · rintro hst rfl; exact decStep_restart_flag hst
  · rintro hst rfl; exact decStep_body_esc hst
  · intro hst hd hroom
    rw [decStep_body_of_ne hst hd, decAppend_of_lt hroom]
    exact ⟨by rw [← hst], plbByte_append ..⟩
  · rintro hst rfl hroom
    rw [decStep_esc_escFlag hst, decAppend_of_lt hroom]
    exact ⟨rfl, plbByte_append ..⟩
  · rintro hst rfl hroom
    rw [decStep_esc_escEsc hst, decAppend_of_lt hroom]
    exact ⟨rfl, plbByte_append ..⟩
  · rintro (⟨hst, hd⟩ | ⟨hst, rfl | rfl⟩) hfull
    · rw [decStep_body_of_ne hst hd]; exact decAppend_of_le hfull.ge ..
    · rw [decStep_esc_escFlag hst]; exact decAppend_of_le hfull.ge ..
    · rw [decStep_esc_escEsc hst]; exact decAppend_of_le hfull.ge ..

/-- Settles O32: each clause is one row of R144 for the last byte. -/
theorem decLastFinishes : Obligations.DecLastFinishes := by
  intro s d
  refine ⟨decode_opcode_append (i := .decLast d) rfl, rfl, (exec_decLast_of_receiving · d), fun hrx =>
    ⟨_, exec_decLast_unarmed hrx d, rfl, decStep_true_done .., ?_, ?_, ?_, decStep_last_first, decStep_last_bad⟩⟩
  · rintro hst rfl; exact decStep_last_body_flag hst
  · rintro (⟨hst, hd⟩ | ⟨hst, hd⟩)
    · exact decStep_last_of_ne (.inl hst) hd
    · exact decStep_last_of_ne (.inr hst) hd
  · rintro hst rfl; exact decStep_last_esc_flag hst

end Sys2Proof.Proofs
end

section
/-! The decoder step against R144's pseudocode over working variables (42_decoder.md R144, R146). -/

namespace Sys2Proof.Proofs

open Sys2Proof Sys2Proof.Machine Sys2Proof.Claims Sys2Proof.Config

/-- The block's own values of the pseudocode's working variables. -/
def decVars (b : Block) : DecVars := ⟨b.decSt, b.decLen, b.decCause, b.plb⟩

/-- The two tests for a full buffer agree on a payload that fits it (log 10). The pseudocode's APPEND keeps `st`. -/
theorem append_eq_decVars_decAppend {depth : Nat} {b : Block} (h : b.decLen ≤ depth) (st : DecSt) (v : Byte) :
    DecVars.append depth ⟨st, b.decLen, b.decCause, b.plb⟩ v = decVars (b.decAppend depth v st) := by
  rcases Nat.lt_or_eq_of_le h with hroom | hfull
  · rw [decAppend_of_lt hroom]
    exact if_neg (Nat.ne_of_lt hroom)
  · rw [decAppend_of_le hfull.ge]
    exact if_pos hfull

/-- After APPEND the pseudocode's ESC case goes to BODY, unless the buffer was full. -/
theorem append_toBody_eq_decVars_decAppend {depth : Nat} {b : Block} (h : b.decLen ≤ depth) (v : Byte) :
    (DecVars.append depth ⟨.esc, b.decLen, b.decCause, b.plb⟩ v).toBody = decVars (b.decAppend depth v .body) := by
  rw [append_eq_decVars_decAppend h]
  rcases Nat.lt_or_ge b.decLen depth with hroom | hfull
  · rw [decAppend_of_lt hroom, decAppend_of_lt hroom]
    rfl
  · rw [decAppend_of_le hfull, decAppend_of_le hfull]
    rfl

/-- In each state of DEC the pseudocode takes the branch of the step. -/
theorem decPseudo_eq_decVars_decStep {depth : Nat} {b : Block} (h : b.decLen ≤ depth) (x : Byte) (last : Bool) :
    decPseudo depth x last b = decVars (decStep depth x last b) := by
  cases hst : b.decSt with
  | idle | doneOk | doneFail =>
    simp only [decPseudo, decStep, hst, reduceCtorEq, or_self, or_true, true_or, if_true, if_false, decFirst]
    split_ifs <;> rfl
  | body =>
    simp only [decPseudo, decStep, hst, reduceCtorEq, or_self, if_false, decBody, append_eq_decVars_decAppend h]
    split_ifs <;> rfl
  | esc =>
    simp only [decPseudo, decStep, hst, reduceCtorEq, or_self, if_false, decEsc,
      append_toBody_eq_decVars_decAppend h]
    split_ifs <;> rfl
  | bad =>
    simp only [decPseudo, decStep, hst, reduceCtorEq, or_self, if_false, decBad]
    split_ifs
    · rfl
    · rw [decVars, hst]

/-- Settles O29: the step's DEC fields are the pseudocode's variables, and it writes no other field. -/
theorem decStepIsPseudocode : Obligations.DecStepIsPseudocode := by
  intro depth x last b hlen
  rw [decPseudo_eq_decVars_decStep hlen]
  exact decStep_eq depth x last b

end Sys2Proof.Proofs
end

section
/-! Who may touch DEC and RXD while RXD is receiving (42_decoder.md R149 to R151, 43_frame_reader.md R171, D30). -/

namespace Sys2Proof.Proofs

open Sys2Proof Sys2Proof.Machine Sys2Proof.Claims

/-- While RXD receives, the commands that would write DEC or RXD are rejected. -/
theorem CommandStep.sameReceiveSide {p : Params} {b b' : Block} {i : Instr} (hstep : CommandStep p b i b')
    (armed : b.rxSt = .receiving) : sameReceiveSide b' b := by
  cases hstep with
  | decClear unarmed | decByte _ unarmed | decLast _ unarmed | rxArm unarmed => exact absurd armed unarmed
  | _ => exact ⟨rfl, rfl, rfl, rfl, rfl, rfl, rfl⟩

/-- While RXD receives, only the transport's received bytes and timeouts and reset change DEC or RXD. -/
theorem BlockStep.sameReceiveSide {s : State} {b : Block} (hstep : BlockStep s b) (armed : s.blk.rxSt = .receiving)
    (hturn : s.env.turns.head? = some .command ∨ s.env.turns.head? = some .txPop ∨
      s.env.turns.head? = some .client) :
    sameReceiveSide b s.blk := by
  cases hstep with
  | stable | illegal | txPop => exact ⟨rfl, rfl, rfl, rfl, rfl, rfl, rfl⟩
  | command _ _ _ effect => exact effect.sameReceiveSide armed
  | rxByte _ turn | rxTimeout turn | reset turn => simp [turn] at hturn

/-- A host's turn takes no byte from the transport. -/
theorem commandEvent_rxIn {s t : State} (h : commandEvent s = .next t) : t.env.rxIn = s.env.rxIn := by
  rcases commandEvent_cases h with rfl | ⟨w, ws, -, ht, -⟩
  · rfl
  · rw [ht]; rfl

theorem txPopEvent_rxIn (s : State) : (txPopEvent s).env.rxIn = s.env.rxIn := by
  rcases txPopEvent_cases s with ⟨-, e⟩ | ⟨x, q, -, e⟩ <;> rw [e]

/-- Settles O40: these turns have no event on the receive side of the block, and none takes a byte. -/
theorem rxdOwnsDecoder : Obligations.RxdOwnsDecoder := by
  intro s t τ ts armed hturns hτ hstep
  refine ⟨(step_blockStep hstep).2.sameReceiveSide armed (by simpa [hturns] using hτ), ?_⟩
  rw [step_of_cons hturns] at hstep
  rcases hτ with rfl | rfl | rfl
  · exact commandEvent_rxIn (s := s.takeTurn) hstep
  · cases hstep
    exact txPopEvent_rxIn s.takeTurn
  · obtain ⟨-, -, -, hrx, -⟩ := clientTurn_frame hstep
    exact hrx

end Sys2Proof.Proofs
end

section
/-! The function `decode` of 42_decoder.md R140: its interior scan byte by byte, and its frame cut at both ends. -/

namespace Sys2Proof.Proofs

open Sys2Proof Sys2Proof.Machine Sys2Proof.Config

/-! ### The interior -/

theorem unstuff_cons_of_ne {x : Byte} (hx : x ≠ ESC) (m : List Byte) :
    unstuff (x :: m) = (unstuff m).map (x :: ·) := by
  cases m <;> simp [unstuff, hx]

theorem unstuff_escFlag (m : List Byte) : unstuff (ESC :: ESC_FLAG :: m) = (unstuff m).map (FLAG :: ·) := rfl

theorem unstuff_escEsc (m : List Byte) : unstuff (ESC :: ESC_ESC :: m) = (unstuff m).map (ESC :: ·) := rfl

theorem unstuff_esc_of_ne {x : Byte} (hflag : x ≠ ESC_FLAG) (hesc : x ≠ ESC_ESC) (m : List Byte) :
    unstuff (ESC :: x :: m) = none := by
  simp [unstuff, hflag, hesc]

/-- Without 0x7D the scan copies. -/
theorem unstuff_of_esc_notMem {m : List Byte} (h : ESC ∉ m) : unstuff m = some m := by
  induction m with
  | nil => rfl
  | cons x m ih =>
    have hx : x ≠ ESC := (List.ne_of_not_mem_cons h).symm
    rw [unstuff_cons_of_ne hx, ih (List.not_mem_of_not_mem_cons h), Option.map_some]

/-! ### The frame -/

/-- The test and the cut of R140, for a frame of two bytes or more. -/
theorem frameDecode_cons (a : Byte) {n : List Byte} (hn : n ≠ []) :
    frameDecode (a :: n) = if a = FLAG ∧ n.getLast? = some FLAG then unstuff n.dropLast else none := by
  cases n with
  | nil => exact absurd rfl hn
  | cons => rfl

/-- Two delimiters frame an interior; any other list of two bytes or more fails. -/
theorem frameDecode_cons_append (a : Byte) (m : List Byte) (z : Byte) :
    frameDecode (a :: (m ++ [z])) = if a = FLAG ∧ z = FLAG then unstuff m else none := by
  rw [frameDecode_cons a (List.concat_ne_nil z m), List.getLast?_concat, List.dropLast_concat]
  simp only [Option.some_inj]

theorem frameDecode_flags (m : List Byte) : frameDecode ([FLAG] ++ m ++ [FLAG]) = unstuff m :=
  (frameDecode_cons_append FLAG m FLAG).trans (if_pos ⟨rfl, rfl⟩)

/-- The round trip of the functions (R153). -/
theorem frameDecode_frameEncode (p : List Byte) : frameDecode (frameEncode p) = some p :=
  (frameDecode_flags _).trans (unstuff_flatMap_stuff p)

/-- Settles O36: the scan copies an interior without 0x7D; the examples are evaluated. -/
theorem decodeIsLenient : Obligations.DecodeIsLenient :=
  ⟨fun m hm => (frameDecode_flags m).trans (unstuff_of_esc_notMem hm), rfl, rfl, rfl⟩

end Sys2Proof.Proofs
end

section
/-! Streaming a frame through DEC (42_decoder.md R152): the block after the bytes of a frame holds its `decode`.
The invariant of the interior is R152's own: `plb` holds the output of the scan so far. -/

namespace Sys2Proof.Proofs

open Sys2Proof Sys2Proof.Machine Sys2Proof.Claims Sys2Proof.Config

/-- The block after bytes of a frame, none of them its last. -/
def decFed (depth : Nat) (m : List Byte) (b : Block) : Block := m.foldl (fun c x => decStep depth x false c) b

/-- The block after a whole frame: the bytes `m` and the last byte `z`. -/
def decWhole (depth : Nat) (m : List Byte) (z : Byte) (b : Block) : Block :=
  decStep depth z true (decFed depth m b)

theorem decWhole_nil (depth : Nat) (z : Byte) (b : Block) : decWhole depth [] z b = decStep depth z true b := rfl

theorem decWhole_cons (depth : Nat) (x : Byte) (m : List Byte) (z : Byte) (b : Block) :
    decWhole depth (x :: m) z b = decWhole depth m z (decStep depth x false b) := rfl

@[simp] theorem decFed_rxSt (depth : Nat) (m : List Byte) (b : Block) : (decFed depth m b).rxSt = b.rxSt := by
  induction m generalizing b with
  | nil => rfl
  | cons x m ih => exact (ih _).trans (decStep_rxSt ..)

/-- A latched failure is the frame's: DEC absorbs the rest and keeps the cause (R145). -/
theorem decWhole_decLatch (depth : Nat) (m : List Byte) (z : Byte) (b : Block) (c : DecCause) :
    decWhole depth m z (b.decLatch c) = b.decFail c := by
  induction m with
  | nil => exact decStep_last_bad rfl
  | cons x m ih => rw [decWhole_cons, decStep_bad rfl, ih]

/-! ### What DEC holds -/

/-- DEC has no failure, and its payload is `out`. -/
structure Holds (out : List Byte) (b : Block) : Prop where
  cause : b.decCause = .none
  len : b.decLen = out.length
  read : ∀ k, k < out.length → b.plb.read? k = out[k]?

theorem Holds.nil {b : Block} (hcause : b.decCause = .none) (hlen : b.decLen = 0) : Holds [] b :=
  ⟨hcause, hlen, fun _ hk => absurd hk (Nat.not_lt_zero _)⟩

/-- A change of `dec_st` keeps the payload. -/
theorem Holds.move {out : List Byte} {b : Block} (h : Holds out b) (st : DecSt) : Holds out { b with decSt := st } :=
  ⟨h.cause, h.len, h.read⟩

/-- APPEND with room: the payload grows at its end. -/
theorem Holds.append {out : List Byte} {b : Block} (h : Holds out b) (v : Byte) (st : DecSt) :
    Holds (out ++ [v]) { b with plb := b.plb.write b.decLen v, decLen := b.decLen + 1, decSt := st } := by
  refine ⟨h.cause, by simp [h.len], fun k hk => ?_⟩
  rw [List.length_append, List.length_singleton] at hk
  show (b.plb.write b.decLen v).read? k = _
  by_cases hkl : k = out.length
  · rw [hkl, h.len, Memory.read_write_same, List.getElem?_concat_length]
  · rw [Memory.read_write_ne _ v (h.len ▸ hkl), h.read k (by omega), List.getElem?_append_left (by omega)]

/-- How a frame whose decode is `r` ends in a buffer of `depth` bytes: R152's three cases. -/
inductive Ends (depth : Nat) : Option (List Byte) → Block → Prop
  | ok {out : List Byte} {b : Block} (fits : out.length ≤ depth) (holds : Holds out b) :
      Ends depth (some out) { b with decSt := .doneOk }
  | overflow {out : List Byte} (b : Block) (long : depth < out.length) : Ends depth (some out) (b.decFail .overflow)
  | failed {c : DecCause} (b : Block) (cause : c ≠ .none) : Ends depth none (b.decFail c)

theorem holdsDecode_of_ends {depth : Nat} {f : List Byte} {r : Option (List Byte)} {b : Block} (hf : frameDecode f = r)
    (h : Ends depth r b) : holdsDecode depth f b := by
  unfold holdsDecode
  rw [hf]
  cases h with
  | ok fits holds =>
    refine ⟨fun out hout _ => ?_, fun out hout hlong => ?_, nofun⟩ <;> cases hout
    · exact ⟨rfl, holds.cause, holds.len, holds.read⟩
    · omega
  | overflow b long =>
    refine ⟨fun out hout hfits => ?_, fun out hout _ => ?_, nofun⟩ <;> cases hout
    · omega
    · exact ⟨rfl, rfl, rfl⟩
  | failed b cause => exact ⟨nofun, nofun, fun _ => ⟨rfl, cause, rfl⟩⟩

/-! ### The interior -/

/-- One payload byte is appended: it is enough that the frame ends as decoded from the block with room for it. Without
room the decoded payload, if there is one, is too long. -/
theorem ends_of_append {depth : Nat} {out m : List Byte} {v : Byte} {r : Option (List Byte)} {b : Block}
    (hb : Holds out b) (hfits : out.length ≤ depth)
    (h : ∀ c : Block, c.decSt = .body → Holds (out ++ [v]) c → (out ++ [v]).length ≤ depth →
      Ends depth (r.map ((out ++ [v]) ++ ·)) (decWhole depth m FLAG c)) :
    Ends depth ((r.map (v :: ·)).map (out ++ ·)) (decWhole depth m FLAG (b.decAppend depth v .body)) := by
  have hmap : (r.map (v :: ·)).map (out ++ ·) = r.map ((out ++ [v]) ++ ·) := by cases r <;> simp
  have hlen := hb.len
  rw [hmap]
  rcases b.decAppend_cases depth v .body with ⟨hroom, e⟩ | ⟨hfull, e⟩ <;> rw [e]
  · exact h _ rfl (hb.append v .body) (by simp; omega)
  · rw [decWhole_decLatch]
    cases r with
    | none => exact .failed b (by decide)
    | some rest => exact .overflow b (by simp; omega)

/-- The scan of R140 and DEC go through an interior side by side, DEC in BODY, or in ESC with the 0x7D before the
interior already taken. -/
theorem ends_interior {depth : Nat} (m : List Byte) {out : List Byte} {b : Block} (hb : Holds out b)
    (hfits : out.length ≤ depth) :
    (b.decSt = .body → Ends depth ((unstuff m).map (out ++ ·)) (decWhole depth m FLAG b)) ∧
    (b.decSt = .esc → Ends depth ((unstuff (ESC :: m)).map (out ++ ·)) (decWhole depth m FLAG b)) := by
  induction m generalizing out b with
  | nil =>
    refine ⟨fun hst => ?_, fun hst => ?_⟩
    · rw [decWhole_nil, decStep_last_body_flag hst]
      simpa [unstuff] using Ends.ok hfits hb
    · rw [decWhole_nil, decStep_last_esc_flag hst]
      exact .failed b (by decide)
  | cons x m ih =>
    have grow (v : Byte) : Ends depth (((unstuff m).map (v :: ·)).map (out ++ ·))
        (decWhole depth m FLAG (b.decAppend depth v .body)) :=
      ends_of_append hb hfits fun _ hst hc hfits => (ih hc hfits).1 hst
    refine ⟨fun hst => ?_, fun hst => ?_⟩ <;> rw [decWhole_cons]
    · by_cases hx : x = ESC
      · rw [hx, decStep_body_esc hst]
        exact (ih (hb.move .esc) hfits).2 rfl
      · rw [unstuff_cons_of_ne hx, decStep_body_of_ne hst hx]
        exact grow x
    · by_cases hflag : x = ESC_FLAG
      · rw [hflag, unstuff_escFlag, decStep_esc_escFlag hst]
        exact grow FLAG
      · by_cases hesc : x = ESC_ESC
        · rw [hesc, unstuff_escEsc, decStep_esc_escEsc hst]
          exact grow ESC
        · rw [unstuff_esc_of_ne hflag hesc, decStep_esc_of_ne hst hflag hesc, decWhole_decLatch]
          exact .failed b (by decide)

/-- A frame without its closing FLAG fails, whatever its interior. -/
theorem ends_of_last_ne {depth : Nat} (m : List Byte) {z : Byte} (hz : z ≠ FLAG) {b : Block}
    (hst : b.decSt = .body ∨ b.decSt = .esc) : Ends depth none (decWhole depth m z b) := by
  induction m generalizing b with
  | nil =>
    rw [decWhole_nil, decStep_last_of_ne hst hz]
    exact .failed b (by decide)
  | cons x m ih =>
    rw [decWhole_cons]
    rcases decStep_false_cases depth x b with
      ⟨c, hc, e⟩ | ⟨-, -, e⟩ | ⟨-, -, e⟩ | ⟨-, -, e⟩ | ⟨-, -, v, e⟩ | ⟨hbad, -⟩
    · rw [e, decWhole_decLatch]; exact .failed b hc
    · rw [e]; exact ih (.inl rfl)
    · rw [e]; exact ih (.inl rfl)
    · rw [e]; exact ih (.inr rfl)
    · rw [e]; exact ih (.inl rfl)
    · simp [hbad] at hst

/-! ### The frame -/

/-- From a cleared DEC, the frame `m ++ [z]` ends as its decode. -/
theorem ends_decWhole (depth : Nat) (m : List Byte) (z : Byte) {b : Block} (hst : b.decSt = .idle)
    (hcause : b.decCause = .none) (hlen : b.decLen = 0) :
    Ends depth (frameDecode (m ++ [z])) (decWhole depth m z b) := by
  cases m with
  | nil =>
    rw [decWhole_nil, decStep_last_first (.inl hst)]
    exact .failed b (by decide)
  | cons a m =>
    rw [List.cons_append, frameDecode_cons_append, decWhole_cons]
    by_cases ha : a = FLAG
    · rw [ha, decStep_idle_flag hst]
      by_cases hz : z = FLAG
      · rw [hz, if_pos ⟨rfl, rfl⟩]
        have hb : Holds [] { b with decSt := .body } := .nil hcause hlen
        simpa using (ends_interior m hb (Nat.zero_le depth)).1 rfl
      · rw [if_neg (hz ·.2)]
        exact ends_of_last_ne m hz (.inl rfl)
    · rw [if_neg (ha ·.1), decStep_first_of_ne (.inl hst) ha, decWhole_decLatch]
      exact .failed b (by decide)

end Sys2Proof.Proofs
end

section
/-! DEC_FRAME (30_encoding.md R83, 42_decoder.md R152, R153): its commands, all accepted, stream the frame through
DEC. -/

namespace Sys2Proof.Proofs

open Sys2Proof Sys2Proof.Machine Sys2Proof.Claims Sys2Proof.Config

theorem decFeed_cons (x : Byte) {n : List Byte} (hn : n ≠ []) : decFeed (x :: n) = .decByte x :: decFeed n := by
  cases n with
  | nil => exact absurd rfl hn
  | cons => rfl

theorem decFeed_concat (m : List Byte) (z : Byte) : decFeed (m ++ [z]) = m.map .decByte ++ [.decLast z] := by
  induction m with
  | nil => rfl
  | cons x m ih =>
    rw [List.cons_append, decFeed_cons x (List.concat_ne_nil z m), ih, List.map_cons, List.cons_append]

theorem completesAll_decByte (p : Params) (m : List Byte) {b : Block} (h : b.rxSt ≠ .receiving) :
    CompletesAll p (m.map .decByte) b (decFed p.plbDepth m b) := by
  induction m generalizing b with
  | nil => exact .nil b
  | cons x m ih =>
    have first : Completes p (.decByte x) b (decStep p.plbDepth x false b) := by
      rintro s rfl rfl
      exact exec_decByte_unarmed h x
    exact .cons first (ih (by rwa [decStep_rxSt]))

/-- The port accepts every command of DEC_FRAME, and DEC takes the frame from its cleared state. -/
theorem completesAll_decFrame (p : Params) (m : List Byte) (z : Byte) {b : Block} (h : b.rxSt ≠ .receiving) :
    CompletesAll p (decFrame (m ++ [z])) b (decWhole p.plbDepth m z b.decCleared) := by
  have clear : Completes p .decClear b b.decCleared := by
    rintro s rfl rfl
    exact exec_decClear_unarmed h
  have last : Completes p (.decLast z) (decFed p.plbDepth m b.decCleared)
      (decWhole p.plbDepth m z b.decCleared) := by
    rintro s rfl hblk
    rw [exec_decLast_unarmed (by rwa [hblk, decFed_rxSt]), hblk, decWhole]
  rw [decFrame, decFeed_concat]
  exact .cons clear ((completesAll_decByte p m (b := b.decCleared) h).append (.singleton last))

/-- The bytes of a frame change DEC's own fields alone. -/
theorem decFed_keeps (depth : Nat) (m : List Byte) (b : Block) :
    sameTransmitSide (decFed depth m b) b ∧ (decFed depth m b).flagCnt = b.flagCnt ∧
      (decFed depth m b).rawCnt = b.rawCnt := by
  induction m generalizing b with
  | nil => exact ⟨sameTransmitSide_refl b, rfl, rfl⟩
  | cons x m ih =>
    obtain ⟨hsame, hflag, hraw⟩ := ih (decStep depth x false b)
    exact ⟨sameTransmitSide_trans hsame (decStep_sameTransmitSide ..), hflag.trans (decStep_flagCnt ..),
      hraw.trans (decStep_rawCnt ..)⟩

/-- Settles O34: the commands of DEC_FRAME are all accepted, and lead to a block that holds the decode of the
frame. -/
theorem decFrameEqualsDecode : Obligations.DecFrameEqualsDecode := by
  intro s f ws ts hf hrx hport hturns
  obtain ⟨m, z, rfl⟩ : ∃ m z, f = m ++ [z] := ⟨_, _, (List.dropLast_append_getLast hf).symm⟩
  obtain ⟨hsame, hflag, hraw⟩ := decFed_keeps s.par.plbDepth m s.blk.decCleared
  refine ⟨_, run_of_completesAll (completesAll_decFrame s.par m z hrx) rfl rfl hport hturns,
    holdsDecode_of_ends rfl (ends_decWhole _ m z rfl rfl rfl),
    sameTransmitSide_trans (decStep_sameTransmitSide ..) hsame, ?_, ?_, ?_, rfl, rfl⟩
  · exact (decStep_rxSt ..).trans (decFed_rxSt ..)
  · exact (decStep_flagCnt ..).trans hflag
  · exact (decStep_rawCnt ..).trans hraw

/-- Settles O35: the scan undoes the stuffing, so the frame of a payload that fits ends in R152's first case. -/
theorem roundTripThroughDec : Obligations.RoundTripThroughDec := by
  refine ⟨frameDecode_frameEncode, fun s p ws ts hrx hfits hport hturns => ?_⟩
  have hne : frameEncode p ≠ [] := by simp [frameEncode]
  obtain ⟨t, hrun, ⟨hok, -⟩, -⟩ := decFrameEqualsDecode s (frameEncode p) ws ts hne hrx hport hturns
  obtain ⟨hst, -, hlen, hread⟩ := hok p (frameDecode_frameEncode p) hfits
  exact ⟨t, hrun, hst, hlen, hread⟩

end Sys2Proof.Proofs
end

section
/-! The events of RXD (43_frame_reader.md R171 to R176): what RX_ARM answers, and what a received byte and a timeout do
while RXD receives and while it does not. -/

namespace Sys2Proof.Proofs

open Sys2Proof Sys2Proof.Machine Sys2Proof.Claims Sys2Proof.Config

/-! ### RX_ARM -/

theorem exec_rxArm_of_receiving {s : State} (h : s.blk.rxSt = .receiving) : exec .rxArm s = .next (rejected s) :=
  if_pos h

theorem exec_rxArm_unarmed {s : State} (h : s.blk.rxSt ≠ .receiving) : exec .rxArm s =
    complete { s.blk.decCleared with rxSt := .receiving, flagCnt := 0, rawCnt := 0 } s := if_neg h

/-- Settles O37: R171's two branches; STATUS shows the armed RXD and the cleared DEC. -/
theorem rxArmStartsReceive : Obligations.RxArmStartsReceive :=
  fun _ _ => ⟨decode_opcode_append (i := .rxArm) rfl, rfl, exec_rxArm_of_receiving, fun h =>
    ⟨_, exec_rxArm_unarmed h, rfl, statusRxSt_status _, statusDecSt_status _, statusDecCause_status _, rfl⟩⟩

/-! ### A received byte -/

section Byte

variable {p : Params} {x : Byte} {b : Block}

/-- The second FLAG is the frame's last byte (R173). -/
theorem rxByte_of_secondFlag (h : flagCountAfter x b = 2) : b.rxByte p x =
    { decStep p.plbDepth x true b with rxSt := .done, rawCnt := b.rawCnt + 1, flagCnt := flagCountAfter x b } := by
  rcases b.rxByte_cases p x with ⟨-, e⟩ | ⟨hne, -⟩ | ⟨hne, -⟩
  · exact e
  all_goals exact absurd h hne

/-- The byte that reaches the bound is counted and dropped (R174). -/
theorem rxByte_of_bound (h : flagCountAfter x b ≠ 2) (hraw : b.rawCnt + 1 = p.maxFrameBytes) : b.rxByte p x =
    { b.decCleared with rxSt := .overflow, rawCnt := b.rawCnt + 1, flagCnt := flagCountAfter x b } := by
  rcases b.rxByte_cases p x with ⟨h2, -⟩ | ⟨-, -, e⟩ | ⟨-, hne, -⟩
  · exact absurd h2 h
  · exact e
  · exact absurd hraw hne

/-- Any other byte is one more byte of the frame (R172). -/
theorem rxByte_of_within (h : flagCountAfter x b ≠ 2) (hraw : b.rawCnt + 1 ≠ p.maxFrameBytes) : b.rxByte p x =
    { decStep p.plbDepth x false b with rawCnt := b.rawCnt + 1, flagCnt := flagCountAfter x b } := by
  rcases b.rxByte_cases p x with ⟨h2, -⟩ | ⟨-, hbound, -⟩ | ⟨-, -, e⟩
  · exact absurd h2 h
  · exact absurd hbound hraw
  · exact e

end Byte

@[simp] theorem rxByte_rawCnt (p : Params) (x : Byte) (b : Block) : (b.rxByte p x).rawCnt = b.rawCnt + 1 := by
  rcases b.rxByte_cases p x with ⟨-, e⟩ | ⟨-, -, e⟩ | ⟨-, -, e⟩ <;> rw [e]

@[simp] theorem rxByte_flagCnt (p : Params) (x : Byte) (b : Block) :
    (b.rxByte p x).flagCnt = flagCountAfter x b := by
  rcases b.rxByte_cases p x with ⟨-, e⟩ | ⟨-, -, e⟩ | ⟨-, -, e⟩ <;> rw [e]

theorem step_rxByte_unarmed {s : State} {ts : List Turn} (h : s.blk.rxSt ≠ .receiving)
    (hturns : s.env.turns = .rxByte :: ts) : step s = .next { s with env.turns := ts } := by
  rw [step_eq_event hturns]
  rcases rxByteEvent_cases { s with env.turns := ts } with ⟨-, e⟩ | ⟨x, rest, armed, -⟩
  · exact congrArg _ e
  · exact absurd armed h

theorem step_rxByte {s : State} {x : Byte} {rest : List Byte} {ts : List Turn} (armed : s.blk.rxSt = .receiving)
    (hrx : s.env.rxIn = x :: rest) (hturns : s.env.turns = .rxByte :: ts) :
    step s = .next { s with blk := s.blk.rxByte s.par x, env.rxIn := rest, env.turns := ts } := by
  rw [step_eq_event hturns]
  rcases rxByteEvent_cases { s with env.turns := ts } with ⟨hidle, -⟩ | ⟨y, rest', -, hy, e⟩
  · simp [hrx, armed] at hidle
  · cases hy.symm.trans hrx
    exact congrArg _ e

/-- Settles O38: the step is R172's event, which counts the byte and takes one of its three branches. -/
theorem rxByteCountsAndEnds : Obligations.RxByteCountsAndEnds := by
  refine ⟨fun s ts h hturns => ⟨beq_false_of_ne h, step_rxByte_unarmed h hturns⟩,
    fun s x rest ts armed hrx hturns =>
      ⟨_, step_rxByte armed hrx hturns, rxByte_rawCnt .., rxByte_flagCnt .., ?_⟩⟩
  rw [rxByte_rawCnt, rxByte_flagCnt]
  refine ⟨fun hflag => ?_, rxByte_of_bound, rxByte_of_within⟩
  rw [rxByte_of_secondFlag hflag]
  exact ⟨rfl, decStep_true_done .., rfl⟩

/-! ### A timeout -/

theorem step_rxTimeout_unarmed {s : State} {ts : List Turn} (h : s.blk.rxSt ≠ .receiving)
    (hturns : s.env.turns = .rxTimeout :: ts) : step s = .next { s with env.turns := ts } := by
  rw [step_eq_event hturns]
  rcases rxTimeoutEvent_cases { s with env.turns := ts } with ⟨-, e⟩ | ⟨armed, -⟩
  · exact congrArg _ e
  · exact absurd armed h

theorem step_rxTimeout {s : State} {ts : List Turn} (armed : s.blk.rxSt = .receiving)
    (hturns : s.env.turns = .rxTimeout :: ts) :
    step s = .next { s with blk := s.blk.rxTimeout, env.turns := ts } := by
  rw [step_eq_event hturns]
  rcases rxTimeoutEvent_cases { s with env.turns := ts } with ⟨h, -⟩ | ⟨-, e⟩
  · exact absurd armed h
  · exact congrArg _ e

/-- Settles O39: R175's event, enabled or not; STATUS shows the timeout and the cleared DEC. -/
theorem rxTimeoutAborts : Obligations.RxTimeoutAborts :=
  fun _ _ hturns => ⟨fun armed => ⟨_, step_rxTimeout armed hturns, rfl, statusRxSt_status _, statusDecSt_status _,
    statusDecCause_status _⟩, (step_rxTimeout_unarmed · hturns)⟩

end Sys2Proof.Proofs
end

section
/-! The function `read_frame` of 43_frame_reader.md R170: the frame it returns runs up to the second FLAG. -/

namespace Sys2Proof.Proofs

open Sys2Proof Sys2Proof.Machine Sys2Proof.Config

/-- `read_frame`, with `flags` FLAG bytes met and the bytes `acc` read, goes on to the FLAG that is the second. -/
theorem readFrameFrom_eq_some {flags : Nat} {acc cs f rest : List Byte} (hflags : flags < 2)
    (h : readFrameFrom flags acc cs = some (f, rest)) :
    ∃ m, f = acc ++ (m ++ [FLAG]) ∧ cs = m ++ FLAG :: rest ∧ flags + m.count FLAG = 1 := by
  induction cs generalizing flags acc with
  | nil => cases h
  | cons x cs ih =>
    unfold readFrameFrom at h
    by_cases hx : x = FLAG
    · subst hx
      rw [if_pos rfl] at h
      by_cases hsecond : flags + 1 = 2
      · cases (if_pos hsecond).symm.trans h
        exact ⟨[], rfl, rfl, by simpa using hsecond⟩
      · obtain ⟨m, hf, hcs, hcount⟩ := ih (by omega) ((if_neg hsecond).symm.trans h)
        exact ⟨FLAG :: m, by simpa using hf, by rw [hcs, List.cons_append], by rw [List.count_cons_self]; omega⟩
    · rw [if_neg hx] at h
      obtain ⟨m, hf, hcs, hcount⟩ := ih hflags ((if_neg hflags.ne).symm.trans h)
      exact ⟨x :: m, by simpa using hf, by rw [hcs, List.cons_append], by rwa [List.count_cons_of_ne hx]⟩

/-- A frame `read_frame` returns is its bytes up to the second FLAG, of which one is a FLAG, and that FLAG. -/
theorem readFrame_eq_some {cs f rest : List Byte} (h : readFrame cs = some (f, rest)) :
    ∃ m, f = m ++ [FLAG] ∧ cs = m ++ FLAG :: rest ∧ m.count FLAG = 1 := by
  obtain ⟨m, hf, hcs, hcount⟩ := readFrameFrom_eq_some (by decide) h
  exact ⟨m, hf, hcs, by omega⟩

end Sys2Proof.Proofs
end

section
/-! SHORT_FRAME is the cause of one-byte frames alone (42_decoder.md R144, 43_frame_reader.md R178): it is latched only by
a last byte that is also the first. -/

namespace Sys2Proof.Proofs

open Sys2Proof Sys2Proof.Machine Sys2Proof.Config

/-- After a byte that is not the frame's last, DEC stands inside a frame. -/
theorem decStep_false_not_awaitsFrame (depth : Nat) (x : Byte) (b : Block) :
    ¬ AwaitsFrame (decStep depth x false b) := by
  rcases decStep_false_cases depth x b with
    ⟨c, -, e⟩ | ⟨-, -, e⟩ | ⟨-, -, e⟩ | ⟨-, -, e⟩ | ⟨-, -, v, e⟩ | ⟨hst, e⟩ <;> rw [e] <;> simp [AwaitsFrame, *]

theorem decAppend_cause_ne_shortFrame {b : Block} (h : b.decCause ≠ .shortFrame) (depth : Nat) (v : Byte)
    (st : DecSt) : (b.decAppend depth v st).decCause ≠ .shortFrame := by
  rcases b.decAppend_cases depth v st with ⟨-, e⟩ | ⟨-, e⟩ <;> rw [e]
  · exact h
  · exact nofun

theorem decStep_first_cause_ne_shortFrame {b : Block} (h : b.decCause ≠ .shortFrame) (hfirst : AwaitsFrame b)
    (depth : Nat) (x : Byte) : (decStep depth x false b).decCause ≠ .shortFrame := by
  by_cases hx : x = FLAG
  · rcases hfirst with hst | hst
    · rw [hx, decStep_idle_flag hst]
      exact h
    · rw [hx, decStep_restart_flag hst]
      exact nofun
  · rw [decStep_first_of_ne hfirst hx]
    exact nofun

/-- Such a byte does not latch SHORT_FRAME (R144). -/
theorem decStep_false_cause_ne_shortFrame {b : Block} (h : b.decCause ≠ .shortFrame) (depth : Nat) (x : Byte) :
    (decStep depth x false b).decCause ≠ .shortFrame := by
  cases hst : b.decSt with
  | idle | doneOk | doneFail => exact decStep_first_cause_ne_shortFrame h (by simp [AwaitsFrame, hst]) depth x
  | body =>
    by_cases hx : x = ESC
    · rw [hx, decStep_body_esc hst]
      exact h
    · rw [decStep_body_of_ne hst hx]
      exact decAppend_cause_ne_shortFrame h depth _ _
  | esc =>
    by_cases hflag : x = ESC_FLAG
    · rw [hflag, decStep_esc_escFlag hst]
      exact decAppend_cause_ne_shortFrame h depth _ _
    · by_cases hesc : x = ESC_ESC
      · rw [hesc, decStep_esc_escEsc hst]
        exact decAppend_cause_ne_shortFrame h depth _ _
      · rw [decStep_esc_of_ne hst hflag hesc]
        exact nofun
  | bad => rwa [decStep_bad hst]

/-- The last byte of a frame with a byte before it does not either. -/
theorem decStep_true_cause_ne_shortFrame {b : Block} (hinside : ¬ AwaitsFrame b) (h : b.decCause ≠ .shortFrame)
    (depth : Nat) (x : Byte) : (decStep depth x true b).decCause ≠ .shortFrame := by
  cases hst : b.decSt with
  | idle | doneOk | doneFail => simp [AwaitsFrame, hst] at hinside
  | body =>
    by_cases hx : x = FLAG
    · rw [hx, decStep_last_body_flag hst]
      exact h
    · rw [decStep_last_of_ne (.inl hst) hx]
      exact nofun
  | esc =>
    by_cases hx : x = FLAG
    · rw [hx, decStep_last_esc_flag hst]
      exact nofun
    · rw [decStep_last_of_ne (.inr hst) hx]
      exact nofun
  | bad =>
    rw [decStep_last_bad hst]
    exact h

/-- A frame of two bytes or more never ends in SHORT_FRAME. -/
theorem decWhole_cause_ne_shortFrame {b : Block} (h : b.decCause ≠ .shortFrame) (depth : Nat) {m : List Byte}
    (hm : m ≠ []) (z : Byte) : (decWhole depth m z b).decCause ≠ .shortFrame := by
  induction m generalizing b with
  | nil => exact absurd rfl hm
  | cons x m ih =>
    have hcause := decStep_false_cause_ne_shortFrame h depth x
    rw [decWhole_cons]
    by_cases hnil : m = []
    · rw [hnil, decWhole_nil]
      exact decStep_true_cause_ne_shortFrame (decStep_false_not_awaitsFrame depth x b) hcause depth z
    · exact ih hcause hnil

end Sys2Proof.Proofs
end

section
/-! A whole receive (43_frame_reader.md R178, R179): the bytes before the second FLAG and below the bound stream through
DEC, and one more event ends the receive, by the second FLAG, by the bound, or by a timeout. -/

namespace Sys2Proof.Proofs

open Sys2Proof Sys2Proof.Machine Sys2Proof.Claims Sys2Proof.Config

/-- The block armed as `b`, after the bytes `m`, with neither the second FLAG nor the bound among them: RXD has counted
them and DEC has taken them. -/
def received (depth : Nat) (m : List Byte) (b : Block) : Block :=
  { decFed depth m b with rawCnt := m.length, flagCnt := m.count FLAG }

theorem received_nil {b : Block} (armed : justArmed b) (depth : Nat) : received depth [] b = b := by
  obtain ⟨-, hflag, hraw, -⟩ := armed
  cases b
  subst hflag hraw
  rfl

theorem received_rxSt {b : Block} (armed : justArmed b) (depth : Nat) (m : List Byte) :
    (received depth m b).rxSt = .receiving := by
  obtain ⟨hrx, -⟩ := armed
  exact (decFed_rxSt depth m b).trans hrx

theorem flagCountAfter_received (depth : Nat) (m : List Byte) (x : Byte) (b : Block) :
    flagCountAfter x (received depth m b) = (m ++ [x]).count FLAG := by
  rw [List.count_append, List.count_singleton]
  simp [flagCountAfter, received]

/-- DEC does not see the counters of RXD. -/
theorem decStep_received (depth : Nat) (m : List Byte) (x : Byte) (last : Bool) (b : Block) :
    decStep depth x last (received depth m b) =
      { decStep depth x last (decFed depth m b) with rawCnt := m.length, flagCnt := m.count FLAG } := by
  have h := decStep_other_fields depth x last (decFed depth m b)
  have h' := decStep_eq depth x last (decFed depth m b)
  rw [received, h, h']

/-- A byte that is not the second FLAG and stays below the bound goes to the bytes received. -/
theorem rxByte_received {p : Params} {m : List Byte} {x : Byte} (hcount : (m ++ [x]).count FLAG ≤ 1)
    (hraw : (m ++ [x]).length < p.maxFrameBytes) (b : Block) :
    (received p.plbDepth m b).rxByte p x = received p.plbDepth (m ++ [x]) b := by
  have hflag := flagCountAfter_received p.plbDepth m x b
  rw [List.length_append, List.length_singleton] at hraw
  rw [rxByte_of_within (by omega) hraw.ne, decStep_received, hflag]
  simp [received, decFed]

/-- The second FLAG ends the frame of the bytes received. -/
theorem rxByte_received_secondFlag {m : List Byte} (hcount : m.count FLAG = 1) (p : Params) (b : Block) :
    (received p.plbDepth m b).rxByte p FLAG =
      { decWhole p.plbDepth m FLAG b with rxSt := .done, rawCnt := m.length + 1, flagCnt := 2 } := by
  have hflag : flagCountAfter FLAG (received p.plbDepth m b) = 2 := by
    rw [flagCountAfter_received, List.count_append, hcount]
    rfl
  rw [rxByte_of_secondFlag hflag, decStep_received, hflag]
  rfl

/-- The byte that reaches the bound, no second FLAG, ends the receive with DEC cleared. -/
theorem rxByte_received_bound {p : Params} {m : List Byte} {x : Byte} (hcount : (m ++ [x]).count FLAG ≤ 1)
    (hraw : m.length + 1 = p.maxFrameBytes) (b : Block) :
    (received p.plbDepth m b).rxByte p x =
      { (received p.plbDepth m b).decCleared with
        rxSt := .overflow, rawCnt := m.length + 1, flagCnt := (m ++ [x]).count FLAG } := by
  have hflag := flagCountAfter_received p.plbDepth m x b
  rw [rxByte_of_bound (by omega) hraw, hflag]
  rfl

/-! ### Runs -/

/-- A run of one step more, at its end. -/
theorem run_concat {n : Nat} {s t u : State} (h : run n s = .next t) (hstep : step t = .next u) :
    run (n + 1) s = .next u := (run_add h).trans (run_succ hstep)

/-- The turns of a receive of one byte more. -/
theorem replicate_length_concat (m : List Byte) (x : Byte) (τ : Turn) (ts : List Turn) :
    List.replicate (m ++ [x]).length τ ++ ts = List.replicate m.length τ ++ τ :: ts := by
  simp [List.replicate_succ']

/-- A run after which RXD still receives, and one received byte more. -/
theorem run_rxByte_concat {m : List Byte} {s t : State} {x : Byte} {rest : List Byte} {ts : List Turn}
    (hrun : run m.length s = .next t) (armed : t.blk.rxSt = .receiving) (hrx : t.env.rxIn = x :: rest)
    (hturns : t.env.turns = .rxByte :: ts) :
    run (m ++ [x]).length s =
      .next { t with blk := t.blk.rxByte t.par x, env.rxIn := rest, env.turns := ts } := by
  rw [List.length_append]
  exact run_concat hrun (step_rxByte armed hrx hturns)

/-- The bytes before the second FLAG and below the bound. -/
theorem run_received {s : State} {m rest : List Byte} {ts : List Turn} (armed : justArmed s.blk)
    (hrx : s.env.rxIn = m ++ rest) (hturns : s.env.turns = List.replicate m.length .rxByte ++ ts)
    (hcount : m.count FLAG ≤ 1) (hraw : m.length < s.par.maxFrameBytes) :
    run m.length s =
      .next { s with blk := received s.par.plbDepth m s.blk, env.rxIn := rest, env.turns := ts } := by
  induction m using List.reverseRecOn generalizing rest ts with
  | nil =>
    rw [received_nil armed]
    subst hrx hturns
    rfl
  | append_singleton m x ih =>
    have hprefix : m.count FLAG ≤ 1 := ((List.sublist_append_left m [x]).count_le FLAG).trans hcount
    have hlen : m.length < (m ++ [x]).length := by simp
    have hrun := ih (hrx.trans (List.append_cons ..).symm) (hturns.trans (replicate_length_concat ..)) hprefix
      (hlen.trans hraw)
    rw [run_rxByte_concat hrun (received_rxSt armed ..) rfl rfl, rxByte_received hcount hraw]

/-- These bytes, and the one that ends the receive. -/
theorem run_received_concat {s : State} {m rest : List Byte} {x : Byte} {ts : List Turn} (armed : justArmed s.blk)
    (hrx : s.env.rxIn = m ++ x :: rest) (hturns : s.env.turns = List.replicate (m ++ [x]).length .rxByte ++ ts)
    (hcount : m.count FLAG ≤ 1) (hraw : m.length < s.par.maxFrameBytes) :
    run (m ++ [x]).length s = .next { s with blk := (received s.par.plbDepth m s.blk).rxByte s.par x,
                                             env.rxIn := rest, env.turns := ts } :=
  run_rxByte_concat (run_received armed hrx (hturns.trans (replicate_length_concat ..)) hcount hraw)
    (received_rxSt armed ..) rfl rfl

/-- Settles O41: RXD gives DEC the frame that `read_frame` returns, its second FLAG as the last byte. -/
theorem receiveEqualsDecode : Obligations.ReceiveEqualsDecode := by
  intro s f rest ts armed hread hfits hturns
  obtain ⟨m, rfl, hrx, hcount⟩ := readFrame_eq_some hread
  have hlen : (m ++ [FLAG]).length = m.length + 1 := List.length_append
  have hmem : FLAG ∈ m := List.one_le_count_iff.mp hcount.ge
  have hpos : 0 < m.length := List.length_pos_of_mem hmem
  have hrun := run_received_concat armed hrx hturns hcount.le (by omega)
  rw [rxByte_received_secondFlag hcount] at hrun
  obtain ⟨-, -, -, hidle, hzero, hcause⟩ := armed
  obtain ⟨hsame, -⟩ := decFed_keeps s.par.plbDepth m s.blk
  have hends := holdsDecode_of_ends rfl (ends_decWhole s.par.plbDepth m FLAG hidle hcause hzero)
  have hshort :=
    decWhole_cause_ne_shortFrame (by rw [hcause]; exact nofun) s.par.plbDepth (List.ne_nil_of_mem hmem) FLAG
  exact ⟨hrx.trans (List.append_cons ..), by omega, by rw [List.count_append, hcount]; rfl, List.getLast?_concat,
    _, hrun, rfl, hends, hshort, rfl, sameTransmitSide_trans (decStep_sameTransmitSide ..) hsame, rfl⟩

/-- Settles O42: the last byte reaches the bound, or all bytes stay below it and the timeout ends the receive. -/
theorem receiveAborts : Obligations.ReceiveAborts := by
  intro s cs rest ts armed hrx hcount
  refine ⟨fun hbound hpos hturns => ?_, fun hraw hturns => ?_⟩
  · obtain ⟨m, x, rfl⟩ : ∃ m x, cs = m ++ [x] :=
      ⟨_, _, (List.dropLast_append_getLast (List.ne_nil_of_length_pos (hbound ▸ hpos))).symm⟩
    have hprefix : m.count FLAG ≤ 1 := ((List.sublist_append_left m [x]).count_le FLAG).trans hcount
    have hlen : m.length + 1 = s.par.maxFrameBytes := List.length_append.symm.trans hbound
    have hrun := run_received_concat armed (hrx.trans (List.append_cons ..).symm) hturns hprefix (by omega)
    rw [rxByte_received_bound hcount hlen] at hrun
    exact ⟨_, hrun, rfl, rfl, rfl, rfl, rfl⟩
  · have hrun := run_received armed hrx (hturns.trans (List.append_assoc ..)) hcount hraw
    exact ⟨_, run_concat hrun (step_rxTimeout (received_rxSt armed ..) rfl), rfl, rfl, rfl, rfl, rfl⟩

end Sys2Proof.Proofs
end

section
/-! NOP and the payload read-out (44_ports.md R190 to R192): what each answers. None of the three is ever held, and
STATUS does not show `result`. -/

namespace Sys2Proof.Proofs

open Sys2Proof Sys2Proof.Machine Sys2Proof.Claims

theorem exec_nop (s : State) : exec .nop s = .next (accepted s s.blk) := rfl

/-- Settles O43: OP 0x00 alone selects NOP, which completes with the block it found. -/
theorem nopChangesNothing : Obligations.NopChangesNothing :=
  fun s _ => ⟨decode_opcode_append (i := .nop) rfl, rfl, exec_nop s, status_accepted_acc_result s _ _⟩

/-! ### PL_LEN -/

theorem exec_plLen (s : State) :
    exec .plLen s = .next (accepted s { s.blk with result := countByte s.blk.decLen }) := rfl

/-- A count below 256 is written as it is. -/
theorem toNat_countByte {n : Nat} (h : n < 256) : (countByte n).toNat = n :=
  (BitVec.toNat_ofNat ..).trans (Nat.mod_eq_of_lt h)

/-- The payload buffer's depth fits a byte (R8). -/
theorem plbDepth_le {p : Params} (h : p.wf = true) : p.plbDepth ≤ 255 := by
  simp only [Params.wf, Bool.and_eq_true, decide_eq_true_eq] at h
  omega

/-- Settles O44: OP 0x23 alone selects PL_LEN, which writes the length's low byte; PLB_DEPTH bounds the length by 255,
and the invariant keeps it 0 outside a payload. -/
theorem plLenCopiesLength : Obligations.PlLenCopiesLength := by
  intro s _
  refine ⟨decode_opcode_append (i := .plLen) rfl, rfl, countByte s.blk.decLen, exec_plLen s,
    status_accepted_acc_result s s.blk.acc _, fun hwf hlen => ?_, fun hinv hst => ?_⟩
  · exact toNat_countByte (Nat.lt_succ_of_le (hlen.trans (plbDepth_le hwf)))
  · rw [hinv.len_zero hst]; rfl

/-! ### PL_READ -/

theorem exec_plRead_inside {s : State} {k : Byte} (hdone : s.blk.decSt = .doneOk) (hinside : k.toNat < s.blk.decLen) :
    exec (.plRead k) s = .next (accepted s { s.blk with result := s.blk.plbByte k.toNat }) :=
  if_pos ⟨hdone, hinside⟩

theorem exec_plRead_rejected {s : State} {k : Byte} (h : s.blk.decSt ≠ .doneOk ∨ s.blk.decLen ≤ k.toNat) :
    exec (.plRead k) s = .next (accepted s { s.blk with result := 0x00#8, cmdErr := true }) :=
  if_neg fun ⟨hdone, hinside⟩ => h.elim (· hdone) (Nat.not_le.mpr hinside)

/-- A byte DEC has written is the byte a read finds, whatever the unspecified bytes are (R29). -/
theorem plbByte_of_read {b : Block} {k : Nat} {v : Byte} (h : b.plb.read? k = some v) : b.plbByte k = v := by
  rw [Block.plbByte, h, Option.getD_some]

/-- Settles O45: R192's two branches; inside the payload the byte listed in `plb` is the one returned. -/
theorem plReadReadsPayload : Obligations.PlReadReadsPayload := by
  intro s k
  refine ⟨decode_opcode_append (i := .plRead k) rfl, rfl, fun hdone hinside v hv => ?_, exec_plRead_inside,
    exec_plRead_rejected⟩
  rw [exec_plRead_inside hdone hinside, plbByte_of_read hv]

end Sys2Proof.Proofs
end

section
/-! The TX port (44_ports.md R195): TX_VALID, TXD and the pop, with a byte queued and without one. -/

namespace Sys2Proof.Proofs

open Sys2Proof Sys2Proof.Machine

theorem step_txPop_empty {s : State} {ts : List Turn} (hq : s.blk.txq = []) (hturns : s.env.turns = .txPop :: ts) :
    step s = .next { s with env.turns := ts } := by
  rw [step_eq_event hturns]
  rcases txPopEvent_cases { s with env.turns := ts } with ⟨-, e⟩ | ⟨x, q, hcons, -⟩
  · exact congrArg _ e
  · cases hq.symm.trans hcons

theorem step_txPop {s : State} {x : Byte} {q : List Byte} {ts : List Turn} (hq : s.blk.txq = x :: q)
    (hturns : s.env.turns = .txPop :: ts) :
    step s = .next { s with blk.txq := q, env.txOut := s.env.txOut ++ [x], env.turns := ts } := by
  rw [step_eq_event hturns]
  rcases txPopEvent_cases { s with env.turns := ts } with ⟨hnil, -⟩ | ⟨y, r, hcons, e⟩
  · cases hq.symm.trans hnil
  · cases hq.symm.trans hcons
    exact congrArg _ e

theorem txValid_eq_true_iff (s : State) : s.txValid = true ↔ s.blk.txq ≠ [] := by
  rw [State.txValid, decide_eq_true_iff, List.length_pos_iff]

/-- Settles O48: the head of a queue that is not empty goes to the transport, and STATUS shows what is left; a pop of an
empty queue is not enabled. -/
theorem txPopTakesHead : Obligations.TxPopTakesHead := by
  intro s ts hturns
  refine ⟨fun x q hq => ⟨?_, ?_, _, step_txPop hq hturns, rfl, ?_, ?_⟩, fun hq => ⟨?_, step_txPop_empty hq hturns⟩⟩
  · rw [txValid_eq_true_iff, hq]; exact List.cons_ne_nil x q
  · rw [State.txd, hq, List.head?_cons]
  · rw [status_txqEmpty]; exact beq_eq_decide ..
  · rw [status_txqFull]; exact beq_eq_decide ..
  · rw [Bool.eq_false_iff, Ne, txValid_eq_true_iff, not_not]; exact hq

end Sys2Proof.Proofs
end

section
/-! One turn of the reference client (47_exchange_client.md R204): an equation for each state a call can be in, and the
turns before a reply (R200, R203 to R206). -/

namespace Sys2Proof.Proofs

open Sys2Proof Sys2Proof.Machine Sys2Proof.Claims

/-! ### The turn, state by state -/

section Turn

variable {s : State} {ts : List Turn} (hturns : s.env.turns = .client :: ts)
include hturns

theorem step_client_waiting (hport : s.env.cmdPort ≠ []) : step s = .next { s with env.turns := ts } := by
  obtain ⟨w, ws, hcons⟩ := List.exists_cons_of_ne_nil hport
  rw [step_eq_event hturns]
  simp [event, clientTurn, hcons]

variable (hport : s.env.cmdPort = [])
include hport

theorem step_client_idle (hst : s.env.client.st = .idle) : step s = clientBegin { s with env.turns := ts } := by
  rw [step_eq_event hturns]
  simp [event, clientTurn, hport, hst]

theorem step_client_sending {raw : List Byte} {k : Nat} {todo : List Word}
    (hst : s.env.client.st = .sending raw k todo) :
    step s = .next (clientSend raw k todo { s with env.turns := ts }) := by
  rw [step_eq_event hturns]
  simp [event, clientTurn, hport, hst]

theorem step_client_awaiting {raw : List Byte} {k : Nat} (hst : s.env.client.st = .awaiting raw k) :
    step s = .next (clientPoll raw k { s with env.turns := ts }) := by
  rw [step_eq_event hturns]
  simp [event, clientTurn, hport, hst]

theorem step_client_lenAsked {raw : List Byte} {k : Nat} (hst : s.env.client.st = .lenAsked raw k) :
    step s = .next (clientLength raw k { s with env.turns := ts }) := by
  rw [step_eq_event hturns]
  simp [event, clientTurn, hport, hst]

theorem step_client_codeAsked {raw : List Byte} {k len : Nat} (hst : s.env.client.st = .codeAsked raw k len) :
    step s = .next (clientCode raw k len { s with env.turns := ts }) := by
  rw [step_eq_event hturns]
  simp [event, clientTurn, hport, hst]

theorem step_client_reading {raw got : List Byte} {k len : Nat} (hst : s.env.client.st = .reading raw k len got) :
    step s = .next (clientRead raw k len got { s with env.turns := ts }) := by
  rw [step_eq_event hturns]
  simp [event, clientTurn, hport, hst]

end Turn

/-! ### Beginning an attempt -/

theorem clientBegin_cons {s : State} {raw : List Byte} {calls : List (List Byte)}
    (hcalls : s.env.client.calls = raw :: calls) (hraw : raw ≠ []) :
    clientBegin s = .next (clientNextAttempt raw 0 { s with env.client.calls := calls }) := by
  obtain ⟨c, cs, rfl⟩ := List.exists_cons_of_ne_nil hraw
  simp [clientBegin, hcalls]

/-- With budget left the next attempt sends the same message, from its first word; the port stays empty. -/
theorem clientNextAttempt_sends {raw : List Byte} {k : Nat} {s : State} {ts : List Turn}
    (hport : s.env.cmdPort = []) (h : k < s.par.maxAttempts) :
    clientNextAttempt raw k { s with env.turns := ts } =
      clientAt s ts [] (.sending raw (k + 1) (assembleWords (sendMsg raw))) := by
  simp [clientNextAttempt, h, clientAt, hport]

theorem clientNextAttempt_exhausted {raw : List Byte} {k : Nat} {s : State} {ts : List Turn}
    (h : s.par.maxAttempts ≤ k) : clientNextAttempt raw k { s with env.turns := ts } = clientBack s ts k .empty :=
  if_neg (Nat.not_lt.mpr h)

/-- Settles O56: the port decides whether the client waits, the waiting calls whether one begins, the words not yet
placed what it places. -/
theorem clientSendsAndArms : Obligations.ClientSendsAndArms := by
  intro s ts hturns
  refine ⟨step_client_waiting hturns, fun hport hst hcalls => ?_, fun calls hport hst hcalls => ?_,
    fun raw calls hport hst hcalls hraw hbudget => ?_, fun raw k w ws hport hst => ?_, fun raw k hport hst => ?_⟩
  · rw [step_client_idle hturns hport hst]
    simp [clientBegin, hcalls]
  · rw [step_client_idle hturns hport hst]
    simp [clientBegin, hcalls]
  · calc step s
        _ = clientBegin { s with env.turns := ts } := step_client_idle hturns hport hst
        _ = .next (clientNextAttempt raw 0 { s with env.turns := ts, env.client.calls := calls }) :=
          clientBegin_cons hcalls hraw
        _ = .next (clientAt { s with env.client.calls := calls } ts []
              (.sending raw 1 (assembleWords (sendMsg raw)))) :=
          congrArg _ (clientNextAttempt_sends (s := { s with env.client.calls := calls }) hport hbudget)
  · exact step_client_sending hturns hport hst
  · exact step_client_sending hturns hport hst

end Sys2Proof.Proofs
end

section
/-! The client's decision after a receive (47_exchange_client.md R204, R207 to R210). -/

namespace Sys2Proof.Proofs

open Sys2Proof Sys2Proof.Machine Sys2Proof.Claims Sys2Proof.Config

section Poll

variable {raw : List Byte} {k : Nat} {s : State}

theorem clientPoll_of_receiving (h : s.blk.rxSt = .receiving) : clientPoll raw k s = s := by
  simp [clientPoll, h]

theorem clientPoll_of_failed (h : s.blk.rxSt = .timeout ∨ s.blk.rxSt = .overflow ∨
    (s.blk.rxSt ≠ .receiving ∧ s.blk.decSt = .doneFail)) : clientPoll raw k s = clientNextAttempt raw k s := by
  simp only [clientPoll, statusRxSt_status, statusDecSt_status, RxSt.code_inj, DecSt.code_inj]
  rcases h with h | h | ⟨hrx, hdec⟩
  · simp [h]
  · simp [h]
  · simp [hrx, hdec]

theorem clientPoll_of_received (hrx : s.blk.rxSt = .done ∨ s.blk.rxSt = .idle) (hdec : s.blk.decSt ≠ .doneFail) :
    clientPoll raw k s = clientIssue .plLen (.lenAsked raw k) s := by
  simp only [clientPoll, statusRxSt_status, statusDecSt_status, RxSt.code_inj, DecSt.code_inj]
  rcases hrx with hrx | hrx <;> simp [hrx, hdec]

end Poll

/-- Settles O57: the three ways to spend the attempt lead to the head of the loop; every other turn is one branch of its
state's decision. -/
theorem clientDecides : Obligations.ClientDecides := by
  intro s raw k ts hturns hport
  refine ⟨fun hst hrx => ?_, fun hfails => ?_, fun hst hrx hdec => ?_, fun hst htwo => ?_, fun len hst hcode => ?_,
    fun len got hst hmore => ?_, fun len got hst hlast => ?_⟩
  · exact (step_client_awaiting hturns hport hst).trans (congrArg _ (clientPoll_of_receiving hrx))
  · have hnext : step s = .next (clientNextAttempt raw k { s with env.turns := ts }) := by
      rcases hfails with ⟨hst, hfailed⟩ | ⟨hst, hshort⟩ | ⟨⟨len, hst⟩, hcode⟩
      · exact (step_client_awaiting hturns hport hst).trans (congrArg _ (clientPoll_of_failed hfailed))
      · exact (step_client_lenAsked hturns hport hst).trans (congrArg _ (if_pos hshort))
      · exact (step_client_codeAsked hturns hport hst).trans (congrArg _ (if_pos hcode))
    exact ⟨fun hlt => hnext.trans (congrArg _ (clientNextAttempt_sends hport hlt)),
      fun hle => hnext.trans (congrArg _ (clientNextAttempt_exhausted hle))⟩
  · exact (step_client_awaiting hturns hport hst).trans (congrArg _ (clientPoll_of_received hrx hdec))
  · exact (step_client_lenAsked hturns hport hst).trans (congrArg _ (if_neg (Nat.not_lt.mpr htwo)))
  · exact (step_client_codeAsked hturns hport hst).trans (congrArg _ (if_neg hcode))
  · exact (step_client_reading hturns hport hst).trans (congrArg _ (if_pos hmore))
  · exact (step_client_reading hturns hport hst).trans (congrArg _ (if_neg (Nat.not_lt.mpr hlast)))

end Sys2Proof.Proofs
end

section
/-! The moves of the reference client (47_exchange_client.md R204): what ends an attempt, what asks for a reply's next
part, and that only the client's own turn changes its place in the call. -/

namespace Sys2Proof.Proofs

open Sys2Proof Sys2Proof.Machine Sys2Proof.Claims

/-- A call that stands in `st` has spent its attempt `k` to send `raw` (R207): no frame that decodes has come, or the
payload is short, or its code asks for a retry. -/
inductive AttemptSpent (b : Block) : ClientSt → List Byte → Nat → Prop
  | noFrame {raw : List Byte} {k : Nat} (unarmed : b.rxSt ≠ .receiving) : AttemptSpent b (.awaiting raw k) raw k
  | short {raw : List Byte} {k : Nat} : AttemptSpent b (.lenAsked raw k) raw k
  | retryCode {raw : List Byte} {k len : Nat} : AttemptSpent b (.codeAsked raw k len) raw k

/-- From `st` the client issues the command `i` and then stands in `st'` (R207, R210). -/
inductive AsksNext (b : Block) : ClientSt → Instr → ClientSt → Prop
  | length {raw : List Byte} {k : Nat} (ended : b.rxSt = .done ∨ b.rxSt = .idle) (decoded : b.decSt ≠ .doneFail) :
      AsksNext b (.awaiting raw k) .plLen (.lenAsked raw k)
  | code {raw : List Byte} {k : Nat} (two : 2 ≤ b.result.toNat) :
      AsksNext b (.lenAsked raw k) (.plRead 0x01#8) (.codeAsked raw k b.result.toNat)
  | firstByte {raw : List Byte} {k len : Nat} :
      AsksNext b (.codeAsked raw k len) (.plRead 0x00#8) (.reading raw k len [])
  | nextByte {raw got : List Byte} {k len : Nat} (more : got.length + 1 < len) :
      AsksNext b (.reading raw k len got) (.plRead (BitVec.ofNat 8 (got.length + 1)))
        (.reading raw k len (got ++ [b.result]))

/-- Everything a turn of the client can do with an empty port, but for waiting. -/
inductive ClientMove (s : State) : State → Prop
  | begins {raw : List Byte} {calls : List (List Byte)} (st : s.env.client.st = .idle)
      (waiting : s.env.client.calls = raw :: calls) :
      ClientMove s (clientNextAttempt raw 0 { s with env.client.calls := calls })
  | places {raw : List Byte} {k : Nat} {w : Word} {ws : List Word} (st : s.env.client.st = .sending raw k (w :: ws)) :
      ClientMove s { s with env.cmdPort := [w], env.client.st := .sending raw k ws }
  | arms {raw : List Byte} {k : Nat} (st : s.env.client.st = .sending raw k []) :
      ClientMove s (clientIssue .rxArm (.awaiting raw k) s)
  | asks {i : Instr} {st' : ClientSt} (next : AsksNext s.blk s.env.client.st i st') :
      ClientMove s (clientIssue i st' s)
  | retries {raw : List Byte} {k : Nat} (spent : AttemptSpent s.blk s.env.client.st raw k) :
      ClientMove s (clientNextAttempt raw k s)
  | returns {raw got payload : List Byte} {k len : Nat} (st : s.env.client.st = .reading raw k len got) :
      ClientMove s (clientReturn k (.response payload) s)

/-- The next word of SEND_MSG, or RX_ARM. -/
theorem clientSend_move {raw : List Byte} {k : Nat} {todo : List Word} {s : State}
    (hst : s.env.client.st = .sending raw k todo) : ClientMove s (clientSend raw k todo s) := by
  cases todo with
  | nil => exact .arms hst
  | cons w ws => exact .places hst

theorem clientTurn_move {s t : State} (h : clientTurn s = .next t) : t = s ∨ s.env.cmdPort = [] ∧ ClientMove s t := by
  rcases clientTurn_cases h with ⟨ht, -⟩ | ⟨hport, hmove⟩
  · exact .inl ht
  refine .inr ⟨hport, ?_⟩
  rcases hmove with ⟨raw, calls, hst, hcalls, -, rfl⟩ | ⟨raw, k, todo, hst, rfl⟩ | ⟨raw, k, hspent, rfl⟩ |
    ⟨raw, k, hst, hrx, hdec, rfl⟩ | ⟨raw, k, hst, htwo, rfl⟩ | ⟨raw, k, len, hst, -, rfl⟩ |
    ⟨raw, k, len, got, hst, hmore, rfl⟩ | ⟨raw, k, len, got, hst, -, rfl⟩
  · exact .begins hst hcalls
  · exact clientSend_move hst
  · refine .retries ?_
    rcases hspent with ⟨hst, hrx, -⟩ | ⟨hst, -⟩ | ⟨⟨len, hst⟩, -⟩ <;> rw [hst]
    · exact .noFrame hrx
    · exact .short
    · exact .retryCode
  · exact .asks (hst ▸ .length hrx hdec)
  · exact .asks (hst ▸ .code htwo)
  · exact .asks (hst ▸ .firstByte)
  · exact .asks (hst ▸ .nextByte hmore)
  · exact .returns hst

/-! ### The message and the attempt -/

theorem AttemptSpent.frameSent {b : Block} {st : ClientSt} {raw : List Byte} {k : Nat}
    (h : AttemptSpent b st raw k) : frameSent st = some (raw, k) := by cases h <;> rfl

theorem AsksNext.frameSent {b : Block} {st st' : ClientSt} {i : Instr} (h : AsksNext b st i st') :
    ∃ raw k, frameSent st = some (raw, k) ∧ frameSent st' = some (raw, k) := by cases h <;> exact ⟨_, _, rfl, rfl⟩

theorem AsksNext.not_isEnc {b : Block} {st st' : ClientSt} {i : Instr} (h : AsksNext b st i st') :
    isEnc i = false := by cases h <;> rfl

theorem attemptOf_of_frameSent {st : ClientSt} {raw : List Byte} {k : Nat} (h : frameSent st = some (raw, k)) :
    attemptOf st = some k := by
  cases st with
  | idle | sending => cases h
  | _ => cases h; rfl

/-! ### Nobody else -/

theorem event_keeps_client {τ : Turn} {s t : State} (hclient : τ ≠ .client) (h : event τ s = .next t) :
    t.env.client = s.env.client := by
  cases τ with
  | client => exact absurd rfl hclient
  | command =>
    rcases commandEvent_cases h with rfl | ⟨w, ws, -, ht, -⟩
    · rfl
    · rw [ht]; rfl
  | txPop =>
    cases h
    rcases txPopEvent_cases s with ⟨-, e⟩ | ⟨x, q, -, e⟩ <;> rw [e]
  | rxByte =>
    cases h
    rcases rxByteEvent_cases s with ⟨-, e⟩ | ⟨x, rest, -, -, e⟩ <;> rw [e]
  | rxTimeout =>
    cases h
    rcases rxTimeoutEvent_cases s with ⟨-, e⟩ | ⟨-, e⟩ <;> rw [e]
  | reset => cases h; rfl

theorem step_keeps_client {s t : State} (hclient : s.env.turns.head? ≠ some .client) (hstep : step s = .next t) :
    t.env.client = s.env.client := by
  cases hturns : s.env.turns with
  | nil => cases (step_of_nil hturns).symm.trans hstep; rfl
  | cons τ ts =>
    rw [step_of_cons hturns] at hstep
    exact event_keeps_client (s := s.takeTurn) (by simpa [hturns] using hclient) hstep

/-- A step of the client is its turn in the state whose turn has been taken. -/
theorem clientTurn_of_step {s t : State} (hclient : s.env.turns.head? = some .client) (hstep : step s = .next t) :
    clientTurn s.takeTurn = .next t := by
  obtain ⟨ts, hturns⟩ := List.head?_eq_some_iff.mp hclient
  exact (step_of_cons hturns).symm.trans hstep

end Sys2Proof.Proofs
end

section
/-! The client's budget (47_exchange_client.md R208, R211): a call in progress is at an attempt from 1 to MAX_ATTEMPTS,
and returns with as many writes. -/

namespace Sys2Proof.Proofs

open Sys2Proof Sys2Proof.Machine Sys2Proof.Claims

/-- The client has kept to `m` attempts in every call. -/
structure WithinBudget (m : Nat) (c : Client) : Prop where
  attempt : ∀ k, attemptOf c.st = some k → 1 ≤ k ∧ k ≤ m
  record : ∀ r ∈ c.returned, 1 ≤ r.writes ∧ r.writes ≤ m ∧ (r.reply = .empty → r.writes = m)

/-- A move that neither returns nor changes the attempt keeps the budget. -/
theorem WithinBudget.of_same_attempt {m : Nat} {c c' : Client} (h : WithinBudget m c)
    (hst : attemptOf c'.st = attemptOf c.st) (hreturned : c'.returned = c.returned) : WithinBudget m c' :=
  ⟨fun k hk => h.attempt k (hst.symm.trans hk), fun r hr => h.record r (hreturned ▸ hr)⟩

theorem WithinBudget.of_return {m : Nat} {s : State} (h : WithinBudget m s.env.client) {k : Nat} {r : Reply}
    (hpos : 1 ≤ k) (hle : k ≤ m) (hempty : r = .empty → k = m) : WithinBudget m (clientReturn k r s).env.client := by
  refine ⟨nofun, fun q hq => ?_⟩
  rcases List.mem_append.mp hq with hold | hnew
  · exact h.record q hold
  · obtain rfl := List.mem_singleton.mp hnew
    exact ⟨hpos, hle, hempty⟩

/-- At the head of the loop the next attempt is within the budget, or exactly MAX_ATTEMPTS are spent. -/
theorem WithinBudget.of_loopHead {s : State} (h : WithinBudget s.par.maxAttempts s.env.client)
    (hpos : 1 ≤ s.par.maxAttempts) {k : Nat} (hle : k ≤ s.par.maxAttempts) (raw : List Byte) :
    WithinBudget s.par.maxAttempts (clientNextAttempt raw k s).env.client := by
  rcases clientNextAttempt_cases raw k s with ⟨hlt, e⟩ | ⟨hge, e⟩ <;> rw [e]
  · refine ⟨fun j hj => ?_, h.record⟩
    cases hj
    omega
  · exact h.of_return (by omega) hle fun _ => by omega

theorem WithinBudget.of_move {s t : State} (h : WithinBudget s.par.maxAttempts s.env.client)
    (hpos : 1 ≤ s.par.maxAttempts) (hmove : ClientMove s t) : WithinBudget s.par.maxAttempts t.env.client := by
  cases hmove with
  | @begins _ calls =>
    have hbegun : WithinBudget s.par.maxAttempts { s.env.client with calls := calls } := h.of_same_attempt rfl rfl
    exact WithinBudget.of_loopHead (s := { s with env.client.calls := calls }) hbegun hpos (Nat.zero_le _) _
  | places st => exact h.of_same_attempt (by rw [st]; rfl) rfl
  | arms st => exact h.of_same_attempt (by rw [st]; rfl) rfl
  | asks next =>
    obtain ⟨raw, k, hbefore, hafter⟩ := next.frameSent
    exact h.of_same_attempt ((attemptOf_of_frameSent hafter).trans (attemptOf_of_frameSent hbefore).symm) rfl
  | retries spent => exact h.of_loopHead hpos (h.attempt _ (attemptOf_of_frameSent spent.frameSent)).2 _
  | returns st =>
    obtain ⟨hone, hle⟩ := h.attempt _ (by rw [st]; rfl)
    exact h.of_return hone hle nofun

theorem WithinBudget.of_step {m : Nat} {s t : State} (hpos : 1 ≤ m)
    (h : s.par.maxAttempts = m ∧ WithinBudget m s.env.client) (hstep : step s = .next t) :
    t.par.maxAttempts = m ∧ WithinBudget m t.env.client := by
  obtain ⟨rfl, h⟩ := h
  refine ⟨by rw [(step_blockStep hstep).1], ?_⟩
  by_cases hclient : s.env.turns.head? = some .client
  · rcases clientTurn_move (clientTurn_of_step hclient hstep) with rfl | ⟨-, hmove⟩
    · exact h
    · exact WithinBudget.of_move (s := s.takeTurn) h hpos hmove
  · rwa [step_keeps_client hclient hstep]

/-- Settles O58: the budget holds of a client with no call made yet, and every step keeps it. -/
theorem clientKeepsBudget : Obligations.ClientKeepsBudget := by
  intro n s t hst hreturned hpos hrun
  have hstart : WithinBudget s.par.maxAttempts s.env.client :=
    ⟨fun k hk => by simp [hst, attemptOf] at hk, fun r hr => by simp [hreturned] at hr⟩
  obtain ⟨-, hbudget⟩ := run_induction
    (P := fun u => u.par.maxAttempts = s.par.maxAttempts ∧ WithinBudget s.par.maxAttempts u.env.client)
    (fun _ _ h hstep => WithinBudget.of_step hpos h hstep) ⟨rfl, hstart⟩ hrun
  exact ⟨hbudget.attempt, hbudget.record⟩

end Sys2Proof.Proofs
end

section
/-! What a step that is no reset does around the client (00_scope.md R10): it keeps the client and the port, the port
accepts its head word, or it is a move of the client. -/

namespace Sys2Proof.Proofs

open Sys2Proof Sys2Proof.Machine Sys2Proof.Claims

/-- The receive side after a step of another agent than the host: as it was, or after an event of RXD. -/
inductive ReceiveStep (p : Params) (b b' : Block) : Prop
  | same (same : sameReceiveSide b' b)
  | byte (armed : b.rxSt = .receiving) (x : Byte) (after : b' = b.rxByte p x)
  | timeout (armed : b.rxSt = .receiving) (after : b' = b.rxTimeout)

/-- Between `s` and `t` the client and the port have stayed, and the transmit side has, pops aside. -/
structure Kept (s t : State) : Prop where
  client : t.env.client = s.env.client
  port : t.env.cmdPort = s.env.cmdPort
  transmit : sameTransmitSide (unpopped t) (unpopped s)
  receive : ReceiveStep s.par s.blk t.blk

/-- From `s` to `t` the port has accepted its head word, and the client has stayed. -/
structure Accepted (s t : State) : Prop where
  client : t.env.client = s.env.client
  word : ∃ (w : Word) (ws : List Word), s.env.cmdPort = w :: ws ∧ t.env.cmdPort = ws ∧
    ∀ i, decode w = .ok i → exec i s.takeTurn = .next t

theorem Kept.takeTurn (s : State) : Kept s s.takeTurn :=
  ⟨rfl, rfl, sameTransmitSide_refl _, .same ⟨rfl, rfl, rfl, rfl, rfl, rfl, rfl⟩⟩

/-- Besides a reset and the host's turn, unless it leaves the block alone, a step is an event of RXD on the receive
side, or keeps it. -/
theorem step_receiveStep {s t : State} (hstep : step s = .next t) (hreset : s.env.turns.head? ≠ some .reset)
    (hkeeps : t.blk = s.blk ∨ s.env.turns.head? ≠ some .command) : ReceiveStep s.par s.blk t.blk := by
  rcases hkeeps with hblk | hcommand
  · rw [hblk]
    exact .same ⟨rfl, rfl, rfl, rfl, rfl, rfl, rfl⟩
  · obtain ⟨-, hblk⟩ := step_blockStep hstep
    generalize t.blk = b at hblk ⊢
    cases hblk with
    | command turn | illegal turn => exact absurd turn hcommand
    | reset turn => exact absurd turn hreset
    | rxByte x _ armed => exact .byte armed x rfl
    | rxTimeout _ armed => exact .timeout armed rfl
    | stable | txPop => exact .same ⟨rfl, rfl, rfl, rfl, rfl, rfl, rfl⟩

theorem step_kept_accepted_or_moved {s t : State} (hreset : s.env.turns.head? ≠ some .reset)
    (hstep : step s = .next t) :
    Kept s t ∨ Accepted s t ∨ (s.env.cmdPort = [] ∧ ClientMove s.takeTurn t) := by
  by_cases hturn : s.env.turns.head? = some .client
  · rcases clientTurn_move (clientTurn_of_step hturn hstep) with rfl | hmove
    · exact .inl (.takeTurn s)
    · exact .inr (.inr hmove)
  · have hclient := step_keeps_client hturn hstep
    rcases (step_port_cases hturn hstep).2 with ⟨hport, hkeeps⟩ | hword
    · exact .inl ⟨hclient, hport, step_unpopped hstep hreset hkeeps, step_receiveStep hstep hreset hkeeps⟩
    · exact .inr (.inl ⟨hclient, hword⟩)

/-- The command on the port, accepted. -/
theorem Accepted.exec_eq {s t : State} (h : Accepted s t) {i : Instr} {ws : List Word}
    (hport : s.env.cmdPort = encode i :: ws) : t.env.cmdPort = ws ∧ exec i s.takeTurn = .next t := by
  obtain ⟨w, ws', hcons, hrest, hexec⟩ := h.word
  cases hcons.symm.trans hport
  exact ⟨hrest, hexec i (decode_encode i)⟩

/-! ### Runs without a reset -/

theorem step_turns {s t : State} (hstep : step s = .next t) : t.env.turns = s.env.turns.tail := by
  by_cases hturn : s.env.turns.head? = some .client
  · obtain ⟨-, -, -, -, hturns⟩ := clientTurn_frame (clientTurn_of_step hturn hstep)
    exact hturns
  · exact (step_port_cases hturn hstep).1

/-- What every step but a reset keeps holds through a run with no reset to come. -/
theorem run_induction_unreset {P : State → Prop}
    (hs : ∀ s t, P s → s.env.turns.head? ≠ some .reset → step s = .next t → P t) {n : Nat} {s t : State} (h : P s)
    (hturns : ∀ τ ∈ s.env.turns, τ ≠ .reset) (hrun : run n s = .next t) : P t := by
  refine (run_induction (P := fun u => P u ∧ ∀ τ ∈ u.env.turns, τ ≠ .reset) (fun u v ⟨hu, hts⟩ hstep => ?_)
    ⟨h, hturns⟩ hrun).1
  refine ⟨hs u v hu (fun e => hts _ (List.mem_of_head? e) rfl) hstep, fun τ hτ => ?_⟩
  rw [step_turns hstep] at hτ
  exact hts τ (List.mem_of_mem_tail hτ)

end Sys2Proof.Proofs
end

section
/-! The words of SEND_MSG that the client has not yet placed, and the one on the port (47_exchange_client.md R204,
R205): accepted one after another, they lead to one and the same transmit side (41_encoder.md R130). -/

namespace Sys2Proof.Proofs

open Sys2Proof Sys2Proof.Machine Sys2Proof.Claims Sys2Proof.Config

/-- The port and after it `todo` hold sending commands which, all accepted, will make the transmit side that of `b`. -/
def StillSends (b : Block) (todo : List Word) (s : State) : Prop :=
  ∃ is : List Instr, (∀ i ∈ is, Sends i) ∧ s.env.cmdPort ++ todo = assembleWords is ∧
    sameTransmitSide (is.foldl sent (unpopped s)) b

/-- It depends on the words to come and on the transmit side, pops aside. -/
theorem StillSends.congr {b : Block} {todo todo' : List Word} {s t : State} (h : StillSends b todo s)
    (hwords : t.env.cmdPort ++ todo' = s.env.cmdPort ++ todo) (hsame : sameTransmitSide (unpopped t) (unpopped s)) :
    StillSends b todo' t := by
  obtain ⟨is, his, hs, hb⟩ := h
  exact ⟨is, his, hwords.trans hs, sameTransmitSide_trans (foldl_sent_of_sameTransmitSide hsame is) hb⟩

/-- A sending command that has left the port has made the block `sent`, pops aside. -/
theorem unpopped_of_accepted {i : Instr} (hi : Sends i) {s t : State} {ws : List Word}
    (hport : s.env.cmdPort = encode i :: ws) (htport : t.env.cmdPort = ws) (hexec : exec i s.takeTurn = .next t) :
    unpopped t = sent (unpopped s) i := by
  rw [exec_of_sends hi] at hexec
  split at hexec <;> cases hexec
  · simp [hport] at htport
  · exact unpopped_sent i s.takeTurn

/-- It stays so when the port accepts a word, which leaves the receive side alone. -/
theorem StillSends.of_accepted {b : Block} {todo : List Word} {s t : State} (h : StillSends b todo s)
    (hacc : Accepted s t) : StillSends b todo t ∧ sameReceiveSide t.blk s.blk := by
  obtain ⟨is, his, hs, hb⟩ := h
  obtain ⟨w, ws, hport, -⟩ := hacc.word
  rw [hport] at hs
  cases is with
  | nil => cases hs
  | cons i is =>
    obtain ⟨rfl, hrest⟩ := List.cons.inj hs
    rw [List.forall_mem_cons] at his
    obtain ⟨htport, hexec⟩ := hacc.exec_eq hport
    have hsent := unpopped_of_accepted his.1 hport htport hexec
    have hreceive : sameReceiveSide (unpopped t) (unpopped s) := hsent ▸ sent_sameReceiveSide _ i
    exact ⟨⟨is, his.2, htport ▸ hrest, by rwa [hsent]⟩, hreceive⟩

/-- With no frame open all of SEND_MSG will push the frame of the message and its checksum. -/
theorem stillSends_sendMsg {s : State} (hport : s.env.cmdPort = []) (hclosed : s.blk.encOpen = false)
    (raw : List Byte) :
    StillSends (Block.txPush { unpopped s with acc := checksum raw } (frameEncode (raw ++ [checksum raw])))
      (assembleWords (sendMsg raw)) s := by
  refine ⟨sendMsg raw, sends_of_mem_sendMsg, by rw [hport, List.nil_append], ?_⟩
  rw [foldl_sent_sendMsg (b := unpopped s) hclosed]
  exact sameTransmitSide_refl _

/-- With no word left the transmit side is that of `b`, pops aside. -/
theorem StillSends.all_accepted {b : Block} {s : State} (h : StillSends b [] s) (hport : s.env.cmdPort = []) :
    sameTransmitSide (unpopped s) b := by
  obtain ⟨is, -, hs, hb⟩ := h
  obtain rfl : is = [] := List.map_eq_nil_iff.mp (by rw [← assembleWords, ← hs, hport, List.nil_append])
  exact hb

end Sys2Proof.Proofs
end

section
/-! The client's frames on the stream (47_exchange_client.md R205, R211): what the transport has taken and what is
queued are the frames of the finished calls and, once a frame of the call in progress is sent, one for each of its
attempts. -/

namespace Sys2Proof.Proofs

open Sys2Proof Sys2Proof.Machine Sys2Proof.Claims

/-! ### The frames of calls -/

theorem transmissions_succ (raw : List Byte) (k : Nat) :
    transmissions raw (k + 1) = transmissions raw k ++ frameEncode (raw ++ [checksum raw]) := by
  simp [transmissions, List.replicate_succ']

/-- The next call to finish adds its frames at the end. -/
theorem finishedFrames_concat {calls rest : List (List Byte)} {raw : List Byte} {rs : List Returned}
    (h : calls.drop rs.length = raw :: rest) (r : Returned) :
    finishedFrames calls (rs ++ [r]) = finishedFrames calls rs ++ transmissions raw r.writes := by
  induction rs generalizing calls with
  | nil =>
    obtain rfl : calls = raw :: rest := h
    simp [finishedFrames]
  | cons q rs ih =>
    cases calls with
    | nil => cases h
    | cons c calls =>
      have hrest := ih (calls := calls) h
      simp only [finishedFrames] at hrest
      simp [finishedFrames, hrest]

/-! ### The invariant -/

/-- No frame is open and the queue is `q`. -/
def ClosedWith (q : List Byte) (b : Block) : Prop := b.encOpen = false ∧ b.txq = q

theorem ClosedWith.congr {q : List Byte} {b c : Block} (h : ClosedWith q b) (hsame : sameTransmitSide c b) :
    ClosedWith q c := by
  obtain ⟨-, -, hopen, htxq, -⟩ := hsame
  exact ⟨hopen.trans h.1, htxq.trans h.2⟩

section Calls

variable (calls : List (List Byte)) (q : List Byte)

/-- The stream after the finished calls of the client, the first ones of `calls`, for a stream that began as `q`. -/
def streamAfter (c : Client) : List Byte := q ++ finishedFrames calls c.returned

/-- The client is at the call `raw` of `calls`, which has sent `k` frames. -/
structure HasSent (raw : List Byte) (k : Nat) (s : State) : Prop where
  left : calls.drop s.env.client.returned.length = raw :: s.env.client.calls
  stream : ClosedWith (streamAfter calls q s.env.client ++ transmissions raw k) (unpopped s)

/-- The client has put just its frames on the stream: between calls; while it sends a frame, which the words still to be
accepted complete; and after it, with the port empty or asking for the reply. -/
inductive PutsFrames (s : State) : Prop
  | idle (st : s.env.client.st = .idle) (port : s.env.cmdPort = [])
      (left : calls.drop s.env.client.returned.length = s.env.client.calls)
      (stream : ClosedWith (streamAfter calls q s.env.client) (unpopped s))
  | sending {raw : List Byte} {k : Nat} {todo : List Word} {b : Block} (st : s.env.client.st = .sending raw k todo)
      (left : calls.drop s.env.client.returned.length = raw :: s.env.client.calls) (sends : StillSends b todo s)
      (stream : ClosedWith (streamAfter calls q s.env.client ++ transmissions raw k) b)
  | sent {raw : List Byte} {k : Nat} (st : frameSent s.env.client.st = some (raw, k))
      (port : s.env.cmdPort = [] ∨ ∃ i, s.env.cmdPort = [encode i] ∧ isEnc i = false) (sent : HasSent calls q raw k s)

end Calls

variable {calls : List (List Byte)} {q : List Byte} {s t : State} {raw : List Byte} {k : Nat}

theorem HasSent.congr (h : HasSent calls q raw k s) (hclient : t.env.client = s.env.client)
    (hsame : sameTransmitSide (unpopped t) (unpopped s)) : HasSent calls q raw k t :=
  ⟨hclient ▸ h.left, hclient ▸ h.stream.congr hsame⟩

theorem PutsFrames.of_kept (h : PutsFrames calls q s) (hkept : Kept s t) : PutsFrames calls q t := by
  obtain ⟨hclient, hport, htransmit, -⟩ := hkept
  cases h with
  | idle st port left stream =>
    exact .idle (hclient ▸ st) (hport.trans port) (hclient ▸ left) (hclient ▸ stream.congr htransmit)
  | sending st left sends stream =>
    exact .sending (hclient ▸ st) (hclient ▸ left) (sends.congr (by rw [hport]) htransmit) (hclient ▸ stream)
  | sent st port sent => exact .sent (hclient ▸ st) (hport ▸ port) (sent.congr hclient htransmit)

/-- Commands of the other units touch neither ENC nor the queue (41_encoder.md R131). -/
theorem CommandStep.encOpen_eq {p : Params} {b b' : Block} {i : Instr} (hstep : CommandStep p b i b')
    (hi : isEnc i = false) : b'.encOpen = b.encOpen := by
  cases hstep with
  | encOpen | encByte | encByteAcc | encCksum | encClose => cases hi
  | decByte | decLast => exact decStep_encOpen ..
  | _ => rfl

theorem closedWith_of_exec {i : Instr} (hi : isEnc i = false) (hexec : exec i s = .next t) {out : List Byte}
    (h : ClosedWith out (unpopped s)) : ClosedWith out (unpopped t) := by
  obtain ⟨u, hu, -, heffect⟩ := exec_answers i s
  cases hu.symm.trans hexec
  obtain ⟨-, b, hcomplete, hq⟩ := exec_of_not_isEnc hi s
  cases hcomplete.symm.trans hexec
  exact ⟨(heffect.encOpen_eq hi).trans h.1, (congrArg _ hq).trans h.2⟩

theorem PutsFrames.of_accepted (h : PutsFrames calls q s) (hacc : Accepted s t) : PutsFrames calls q t := by
  have hclient := hacc.client
  cases h with
  | idle _ port =>
    obtain ⟨w, ws, hcons, -⟩ := hacc.word
    cases port.symm.trans hcons
  | sending st left sends stream =>
    exact .sending (hclient ▸ st) (hclient ▸ left) (sends.of_accepted hacc).1 (hclient ▸ stream)
  | sent st port sent =>
    rcases port with port | ⟨i, port, hi⟩
    · obtain ⟨w, ws, hcons, -⟩ := hacc.word
      cases port.symm.trans hcons
    · obtain ⟨htport, hexec⟩ := hacc.exec_eq port
      exact .sent (hclient ▸ st) (.inl htport)
        ⟨hclient ▸ sent.left, hclient ▸ closedWith_of_exec (s := s.takeTurn) hi hexec sent.stream⟩

/-! ### The client's moves -/

/-- A call that returns after `k` frames is recorded with them. -/
theorem HasSent.of_return (h : HasSent calls q raw k s) (hport : s.env.cmdPort = []) (r : Reply) :
    PutsFrames calls q (clientReturn k r s) := by
  refine .idle rfl hport ?_ ?_
  · have hnext := congrArg List.tail h.left
    simpa using hnext
  · have hframes := finishedFrames_concat h.left { writes := k, reply := r }
    have hstream : streamAfter calls q (clientReturn k r s).env.client =
        streamAfter calls q s.env.client ++ transmissions raw k := by
      rw [streamAfter, streamAfter, List.append_assoc]
      exact congrArg _ hframes
    exact hstream ▸ h.stream

/-- At the head of the loop one more frame of the message will be sent, or the call returns. -/
theorem HasSent.of_loopHead (h : HasSent calls q raw k s) (hport : s.env.cmdPort = []) :
    PutsFrames calls q (clientNextAttempt raw k s) := by
  rcases clientNextAttempt_cases raw k s with ⟨-, e⟩ | ⟨-, e⟩ <;> rw [e]
  · obtain ⟨hclosed, hq⟩ := h.stream
    refine .sending rfl h.left (stillSends_sendMsg (s := { s with env.client.st := _ }) hport hclosed raw)
      ⟨hclosed, ?_⟩
    rw [transmissions_succ, ← List.append_assoc]
    exact congrArg (· ++ _) hq
  · exact h.of_return hport .empty

theorem PutsFrames.hasSent (h : PutsFrames calls q s) (hst : frameSent s.env.client.st = some (raw, k)) :
    HasSent calls q raw k s := by
  cases h with
  | idle st | sending st => rw [st] at hst; cases hst
  | sent st _ sent => cases st.symm.trans hst; exact sent

theorem PutsFrames.between_calls (h : PutsFrames calls q s) (hst : s.env.client.st = .idle) :
    calls.drop s.env.client.returned.length = s.env.client.calls ∧
      ClosedWith (streamAfter calls q s.env.client) (unpopped s) := by
  cases h with
  | idle _ _ left stream => exact ⟨left, stream⟩
  | sending st => cases st.symm.trans hst
  | sent st => rw [hst] at st; cases st

theorem PutsFrames.while_sending (h : PutsFrames calls q s) {todo : List Word}
    (hst : s.env.client.st = .sending raw k todo) :
    calls.drop s.env.client.returned.length = raw :: s.env.client.calls ∧
      ∃ b, StillSends b todo s ∧ ClosedWith (streamAfter calls q s.env.client ++ transmissions raw k) b := by
  cases h with
  | idle st => cases st.symm.trans hst
  | sending st left sends stream => cases st.symm.trans hst; exact ⟨left, _, sends, stream⟩
  | sent st => rw [hst] at st; cases st

theorem PutsFrames.of_move (h : PutsFrames calls q s) (hport : s.env.cmdPort = []) (hmove : ClientMove s t) :
    PutsFrames calls q t := by
  cases hmove with
  | @begins raw rest st waiting =>
    obtain ⟨hleft, hstream⟩ := h.between_calls st
    have hnone : HasSent calls q raw 0 { s with env.client.calls := rest } :=
      ⟨hleft.trans waiting, hstream.1, hstream.2.trans (List.append_nil _).symm⟩
    exact hnone.of_loopHead hport
  | places st =>
    obtain ⟨hleft, b, hsends, hstream⟩ := h.while_sending st
    exact .sending rfl hleft (hsends.congr (by rw [hport]; rfl) (sameTransmitSide_refl _)) hstream
  | arms st =>
    obtain ⟨hleft, b, hsends, hstream⟩ := h.while_sending st
    exact .sent rfl (.inr ⟨.rxArm, rfl, rfl⟩) ⟨hleft, hstream.congr (hsends.all_accepted hport)⟩
  | @asks i st' next =>
    obtain ⟨raw, k, hbefore, hafter⟩ := next.frameSent
    obtain ⟨hleft, hstream⟩ := h.hasSent hbefore
    exact .sent hafter (.inr ⟨i, rfl, next.not_isEnc⟩) ⟨hleft, hstream⟩
  | retries spent => exact (h.hasSent spent.frameSent).of_loopHead hport
  | returns st => exact (h.hasSent (by rw [st]; rfl)).of_return hport _

theorem PutsFrames.of_step (h : PutsFrames calls q s) (hreset : s.env.turns.head? ≠ some .reset)
    (hstep : step s = .next t) : PutsFrames calls q t := by
  rcases step_kept_accepted_or_moved hreset hstep with hkept | hacc | ⟨hport, hmove⟩
  · exact h.of_kept hkept
  · exact h.of_accepted hacc
  · exact PutsFrames.of_move (s := s.takeTurn) (h.of_kept (.takeTurn s)) hport hmove

/-- Settles O60: the client has put just its frames on the stream before its first call, and every step but a reset
keeps that so. -/
theorem clientWritesItsFrames : Obligations.ClientWritesItsFrames := by
  intro n s t hst hreturned hport hclosed hturns hrun
  have hstart : PutsFrames s.env.client.calls (s.env.txOut ++ s.blk.txq) s := by
    refine .idle hst hport (by rw [hreturned]; rfl) ⟨hclosed, ?_⟩
    simp [streamAfter, finishedFrames, hreturned, unpopped]
  have hputs := run_induction_unreset (fun _ _ h hreset hstep => PutsFrames.of_step h hreset hstep) hstart hturns hrun
  refine ⟨fun hidle => (hputs.between_calls hidle).2.2, fun raw k hsent => ?_⟩
  obtain ⟨hleft, -, hstream⟩ := hputs.hasSent hsent
  have hcall := congrArg List.head? hleft
  exact ⟨by rwa [List.head?_drop] at hcall, hstream⟩

end Sys2Proof.Proofs
end

section
/-! A correct client keeps the host protocol (47_exchange_client.md R213): each command it issues is one the block
accepts without CMD_ERR, and a call ends with no frame open and no receive in progress. -/

namespace Sys2Proof.Proofs

open Sys2Proof Sys2Proof.Machine Sys2Proof.Claims

/-- No frame is open and CMD_ERR is 0. -/
def Quiet (b : Block) : Prop := b.encOpen = false ∧ b.cmdErr = false

theorem Quiet.congr {b c : Block} (h : Quiet b) (hsame : sameTransmitSide c b) : Quiet c := by
  obtain ⟨-, -, hopen, -, herr⟩ := hsame
  exact ⟨hopen.trans h.1, herr.trans h.2⟩

/-- No command that sends clears CMD_ERR (R33). -/
theorem sent_cmdErr_of_set {b : Block} (h : b.cmdErr = true) (i : Instr) : (sent b i).cmdErr = true := by
  cases i with
  | encOpen | encByte | encByteAcc | encCksum | encClose => cases hopen : b.encOpen <;> simp [sent, hopen, h]
  | _ => exact h

theorem foldl_sent_cmdErr_of_set {b : Block} (h : b.cmdErr = true) (is : List Instr) :
    (is.foldl sent b).cmdErr = true := by
  induction is generalizing b with
  | nil => exact h
  | cons i is ih => exact ih (sent_cmdErr_of_set h i)

/-- If the words to come leave CMD_ERR 0, it is 0 now. -/
theorem StillSends.cmdErr {b : Block} {todo : List Word} {s : State} (h : StillSends b todo s)
    (hb : b.cmdErr = false) : s.blk.cmdErr = false := by
  obtain ⟨is, -, -, -, -, -, -, herr⟩ := h
  by_contra hset
  have hfinal := foldl_sent_cmdErr_of_set (b := unpopped s) (Bool.eq_true_of_not_eq_false hset) is
  exact absurd (hfinal.symm.trans (herr.trans hb)) (by decide)

/-! ### The receive -/

/-- A receive that the client has armed: in progress, aborted, or ended with a finished frame. -/
def Received (b : Block) : Prop := b.rxSt ≠ .idle ∧ (b.rxSt = .done → b.decSt = .doneOk ∨ b.decSt = .doneFail)

/-- A payload has been received and decoded. -/
def Delivered (b : Block) : Prop := b.rxSt = .done ∧ b.decSt = .doneOk

theorem Delivered.unarmed {b : Block} (h : Delivered b) : b.rxSt ≠ .receiving := by rw [h.1]; decide

/-- An unarmed RXD has no events. -/
theorem ReceiveStep.of_unarmed {p : Params} {b c : Block} (h : ReceiveStep p b c) (unarmed : b.rxSt ≠ .receiving) :
    sameReceiveSide c b := by
  cases h with
  | same same => exact same
  | byte armed | timeout armed => exact absurd armed unarmed

/-- The second FLAG finishes the frame (R173), and a bound or a timeout does not end in DONE (R174, R175). -/
theorem ReceiveStep.received {p : Params} {b c : Block} (hstep : ReceiveStep p b c) (h : Received b) :
    Received c := by
  cases hstep with
  | same same =>
    obtain ⟨hdec, -, -, -, hrx, -⟩ := same
    rwa [Received, hdec, hrx]
  | byte armed x after =>
    subst after
    rcases Block.rxByte_cases p x b with ⟨-, e⟩ | ⟨-, -, e⟩ | ⟨-, -, e⟩ <;> rw [e]
    · exact ⟨nofun, fun _ => decStep_true_done ..⟩
    · exact ⟨nofun, nofun⟩
    · simp [Received, armed]
  | timeout armed after =>
    subst after
    exact ⟨nofun, nofun⟩

/-! ### The commands after Sending -/

/-- The client stands in a state in which its command `i` is on the port, and the block will not reject it. -/
inductive Ready (b : Block) : ClientSt → Instr → Prop
  | arm {raw : List Byte} {k : Nat} (unarmed : b.rxSt ≠ .receiving) : Ready b (.awaiting raw k) .rxArm
  | length {raw : List Byte} {k : Nat} (delivered : Delivered b) : Ready b (.lenAsked raw k) .plLen
  | code {raw : List Byte} {k len : Nat} (delivered : Delivered b) (all : b.decLen = len) (two : 2 ≤ len) :
      Ready b (.codeAsked raw k len) (.plRead 0x01#8)
  | payload {raw got : List Byte} {k len : Nat} (delivered : Delivered b) (all : b.decLen = len)
      (inside : got.length < len) : Ready b (.reading raw k len got) (.plRead (BitVec.ofNat 8 got.length))

/-- The block has accepted the command the client issued, and shows its answer. -/
inductive Answered (b : Block) : ClientSt → Prop
  | arm {raw : List Byte} {k : Nat} (received : Received b) : Answered b (.awaiting raw k)
  | length {raw : List Byte} {k : Nat} (delivered : Delivered b) (result : b.result = countByte b.decLen) :
      Answered b (.lenAsked raw k)
  | code {raw : List Byte} {k len : Nat} (delivered : Delivered b) (all : b.decLen = len) (two : 2 ≤ len) :
      Answered b (.codeAsked raw k len)
  | payload {raw got : List Byte} {k len : Nat} (delivered : Delivered b) (all : b.decLen = len)
      (inside : got.length < len) : Answered b (.reading raw k len got)

section After

variable {b c : Block} {st st' : ClientSt} {i : Instr}

theorem Ready.unarmed (h : Ready b st i) : b.rxSt ≠ .receiving := by
  cases h with
  | arm unarmed => exact unarmed
  | length delivered | code delivered | payload delivered => exact delivered.unarmed

theorem Ready.congr (h : Ready b st i) (hsame : sameReceiveSide c b) : Ready c st i := by
  obtain ⟨hdec, -, hlen, -, hrx, -⟩ := hsame
  have hdelivered (h : Delivered b) : Delivered c := ⟨hrx.trans h.1, hdec.trans h.2⟩
  cases h with
  | arm unarmed => exact .arm (hrx ▸ unarmed)
  | length delivered => exact .length (hdelivered delivered)
  | code delivered all two => exact .code (hdelivered delivered) (hlen.trans all) two
  | payload delivered all inside => exact .payload (hdelivered delivered) (hlen.trans all) inside

theorem Answered.of_receiveStep {p : Params} (h : Answered b st) (hstep : ReceiveStep p b c)
    (hresult : c.result = b.result) : Answered c st := by
  have hdelivered (h : Delivered b) : Delivered c ∧ c.decLen = b.decLen := by
    obtain ⟨hdec, -, hlen, -, hrx, -⟩ := hstep.of_unarmed h.unarmed
    exact ⟨⟨hrx.trans h.1, hdec.trans h.2⟩, hlen⟩
  cases h with
  | arm received => exact .arm (hstep.received received)
  | length delivered result =>
    obtain ⟨hd, hlen⟩ := hdelivered delivered
    exact .length hd (by rw [hresult, hlen, result])
  | code delivered all two =>
    obtain ⟨hd, hlen⟩ := hdelivered delivered
    exact .code hd (hlen.trans all) two
  | payload delivered all inside =>
    obtain ⟨hd, hlen⟩ := hdelivered delivered
    exact .payload hd (hlen.trans all) inside

/-- The block answers a command it does not reject, and CMD_ERR stays 0. -/
theorem Ready.answered {s t : State} (h : Ready s.blk st i) (hquiet : Quiet s.blk) (hbound : s.blk.decLen ≤ 255)
    (hexec : exec i s = .next t) : Answered t.blk st ∧ Quiet t.blk := by
  cases h with
  | arm unarmed =>
    cases (exec_rxArm_unarmed unarmed).symm.trans hexec
    exact ⟨.arm ⟨nofun, nofun⟩, hquiet⟩
  | length delivered =>
    cases (exec_plLen s).symm.trans hexec
    exact ⟨.length delivered rfl, hquiet⟩
  | code delivered all two =>
    have hread : (0x01#8).toNat < s.blk.decLen := by rw [all]; exact two
    cases (exec_plRead_inside delivered.2 hread).symm.trans hexec
    exact ⟨.code delivered all two, hquiet⟩
  | @payload _ got _ _ delivered all inside =>
    have hread : (BitVec.ofNat 8 got.length).toNat < s.blk.decLen := by
      rw [BitVec.toNat_ofNat, all]
      omega
    cases (exec_plRead_inside delivered.2 hread).symm.trans hexec
    exact ⟨.payload delivered all inside, hquiet⟩

/-- What the client asks next on an answer, the block will not reject. -/
theorem Answered.ready (h : Answered b st) (hbound : b.decLen ≤ 255) (hnext : AsksNext b st i st') :
    Ready b st' i := by
  cases hnext with
  | length ended decoded =>
    cases h with
    | arm received =>
      obtain ⟨hidle, hdone⟩ := received
      have hended : b.rxSt = .done := ended.resolve_right hidle
      exact .length ⟨hended, (hdone hended).resolve_right decoded⟩
  | code two =>
    cases h with
    | length delivered result =>
      have hall : b.decLen = b.result.toNat := by rw [result, toNat_countByte (by omega)]
      exact .code delivered hall two
  | firstByte =>
    cases h with
    | code delivered all two => exact .payload (got := []) delivered all (by rw [List.length_nil]; omega)
  | @nextByte _ got _ _ more =>
    cases h with
    | payload delivered all inside =>
      have hlen : (got ++ [b.result]).length = got.length + 1 := List.length_append
      rw [← hlen] at more ⊢
      exact .payload delivered all more

/-- An attempt is given up only after the receive. -/
theorem Answered.unarmed_of_spent {raw : List Byte} {k : Nat} (h : Answered b st) (hspent : AttemptSpent b st raw k) :
    b.rxSt ≠ .receiving := by
  cases hspent with
  | noFrame unarmed => exact unarmed
  | short => cases h with | length delivered => exact delivered.unarmed
  | retryCode => cases h with | code delivered => exact delivered.unarmed

end After

/-! ### The invariant -/

/-- The client keeps the protocol: between calls the block is quiet; while the client sends, the words to come leave it
quiet; afterwards the command on the port will not be rejected, or has been answered. -/
inductive Orderly (s : State) : Prop
  | idle (st : s.env.client.st = .idle) (port : s.env.cmdPort = []) (quiet : Quiet s.blk)
      (unarmed : s.blk.rxSt ≠ .receiving)
  | sending {raw : List Byte} {k : Nat} {todo : List Word} {b : Block} (st : s.env.client.st = .sending raw k todo)
      (sends : StillSends b todo s) (quiet : Quiet b) (unarmed : s.blk.rxSt ≠ .receiving)
  | issued {i : Instr} (port : s.env.cmdPort = [encode i]) (quiet : Quiet s.blk)
      (ready : Ready s.blk s.env.client.st i)
  | answered (port : s.env.cmdPort = []) (quiet : Quiet s.blk) (answered : Answered s.blk s.env.client.st)

section Invariant

variable {s t : State}

theorem Orderly.cmdErr (h : Orderly s) : s.blk.cmdErr = false := by
  cases h with
  | idle _ _ quiet | issued _ quiet | answered _ quiet => exact quiet.2
  | sending _ sends quiet => exact sends.cmdErr quiet.2

theorem Orderly.between_calls (h : Orderly s) (hst : s.env.client.st = .idle) :
    s.env.cmdPort = [] ∧ Quiet s.blk ∧ s.blk.rxSt ≠ .receiving := by
  cases h with
  | idle _ port quiet unarmed => exact ⟨port, quiet, unarmed⟩
  | sending st => cases st.symm.trans hst
  | issued _ _ ready => rw [hst] at ready; cases ready
  | answered _ _ answered => rw [hst] at answered; cases answered

theorem Orderly.while_sending (h : Orderly s) {raw : List Byte} {k : Nat} {todo : List Word}
    (hst : s.env.client.st = .sending raw k todo) :
    s.blk.rxSt ≠ .receiving ∧ ∃ b, StillSends b todo s ∧ Quiet b := by
  cases h with
  | idle st => cases st.symm.trans hst
  | sending st sends quiet unarmed => cases st.symm.trans hst; exact ⟨unarmed, _, sends, quiet⟩
  | issued _ _ ready => rw [hst] at ready; cases ready
  | answered _ _ answered => rw [hst] at answered; cases answered

theorem Orderly.after_sending (h : Orderly s) (hport : s.env.cmdPort = []) {raw : List Byte} {k : Nat}
    (hst : frameSent s.env.client.st = some (raw, k)) : Quiet s.blk ∧ Answered s.blk s.env.client.st := by
  cases h with
  | idle st | sending st => rw [st] at hst; cases hst
  | issued port => cases port.symm.trans hport
  | answered _ quiet answered => exact ⟨quiet, answered⟩

theorem Orderly.of_kept (h : Orderly s) (hkept : Kept s t) : Orderly t := by
  have ⟨hclient, hport, htransmit, hreceive⟩ := hkept
  obtain ⟨-, hresult, hopen, -, herr⟩ := hkept.transmit
  have hquiet (h : Quiet s.blk) : Quiet t.blk := ⟨hopen.trans h.1, herr.trans h.2⟩
  have hunarmed (h : s.blk.rxSt ≠ .receiving) : t.blk.rxSt ≠ .receiving := by
    obtain ⟨-, -, -, -, hrx, -⟩ := hreceive.of_unarmed h
    exact hrx ▸ h
  cases h with
  | idle st port quiet unarmed => exact .idle (hclient ▸ st) (hport.trans port) (hquiet quiet) (hunarmed unarmed)
  | sending st sends quiet unarmed =>
    exact .sending (hclient ▸ st) (sends.congr (by rw [hport]) htransmit) quiet (hunarmed unarmed)
  | issued port quiet ready =>
    exact .issued (hport.trans port) (hquiet quiet) (hclient ▸ ready.congr (hreceive.of_unarmed ready.unarmed))
  | answered port quiet answered =>
    exact .answered (hport.trans port) (hquiet quiet) (hclient ▸ answered.of_receiveStep hreceive hresult)

theorem Orderly.of_accepted (h : Orderly s) (hbound : s.blk.decLen ≤ 255) (hacc : Accepted s t) : Orderly t := by
  have hclient := hacc.client
  have offered : s.env.cmdPort ≠ [] := by
    obtain ⟨w, ws, hport, -⟩ := hacc.word
    exact hport ▸ List.cons_ne_nil w ws
  cases h with
  | idle _ port | answered port => exact absurd port offered
  | sending st sends quiet unarmed =>
    obtain ⟨hsends, -, -, -, -, hrx, -⟩ := sends.of_accepted hacc
    exact .sending (hclient ▸ st) hsends quiet (hrx ▸ unarmed)
  | issued port quiet ready =>
    obtain ⟨htport, hexec⟩ := hacc.exec_eq port
    obtain ⟨hanswered, hquiet⟩ := Ready.answered (s := s.takeTurn) ready quiet hbound hexec
    exact .answered htport hquiet (hclient ▸ hanswered)

/-- At the head of the loop SEND_MSG meets no open frame, or the call returns. -/
theorem orderly_of_loopHead (hport : s.env.cmdPort = []) (hquiet : Quiet s.blk) (hunarmed : s.blk.rxSt ≠ .receiving)
    (raw : List Byte) (k : Nat) : Orderly (clientNextAttempt raw k s) := by
  rcases clientNextAttempt_cases raw k s with ⟨-, e⟩ | ⟨-, e⟩ <;> rw [e]
  · exact .sending rfl (stillSends_sendMsg (s := { s with env.client.st := _ }) hport hquiet.1 raw) hquiet hunarmed
  · exact .idle rfl hport hquiet hunarmed

theorem Orderly.of_move (h : Orderly s) (hbound : s.blk.decLen ≤ 255) (hport : s.env.cmdPort = [])
    (hmove : ClientMove s t) : Orderly t := by
  cases hmove with
  | @begins raw rest st =>
    obtain ⟨-, hquiet, hunarmed⟩ := h.between_calls st
    exact orderly_of_loopHead (s := { s with env.client.calls := rest }) hport hquiet hunarmed raw 0
  | places st =>
    obtain ⟨hunarmed, b, hsends, hquiet⟩ := h.while_sending st
    exact .sending rfl (hsends.congr (by rw [hport]; rfl) (sameTransmitSide_refl _)) hquiet hunarmed
  | arms st =>
    obtain ⟨hunarmed, b, hsends, hquiet⟩ := h.while_sending st
    have hsent : Quiet (unpopped s) := hquiet.congr (hsends.all_accepted hport)
    exact .issued rfl hsent (.arm hunarmed)
  | asks next =>
    obtain ⟨raw, k, hbefore, -⟩ := next.frameSent
    obtain ⟨hquiet, hanswered⟩ := h.after_sending hport hbefore
    exact .issued rfl hquiet (hanswered.ready hbound next)
  | retries spent =>
    obtain ⟨hquiet, hanswered⟩ := h.after_sending hport spent.frameSent
    exact orderly_of_loopHead hport hquiet (hanswered.unarmed_of_spent spent) _ _
  | returns st =>
    obtain ⟨hquiet, hanswered⟩ := h.after_sending hport (by rw [st]; rfl)
    rw [st] at hanswered
    cases hanswered with
    | payload delivered => exact .idle rfl hport hquiet delivered.unarmed

/-- The payload buffer's depth bounds every payload by 255 bytes (R8, R40 item 3). -/
theorem decLen_le_of_inv (h : Inv s) : s.blk.decLen ≤ 255 := h.len_le.trans (plbDepth_le h.par)

theorem Orderly.of_step (h : Orderly s) (hinv : Inv s) (hreset : s.env.turns.head? ≠ some .reset)
    (hstep : step s = .next t) : Orderly t := by
  have hbound := decLen_le_of_inv hinv
  rcases step_kept_accepted_or_moved hreset hstep with hkept | hacc | ⟨hport, hmove⟩
  · exact h.of_kept hkept
  · exact h.of_accepted hbound hacc
  · exact Orderly.of_move (s := s.takeTurn) (h.of_kept (.takeTurn s)) hbound hport hmove

end Invariant

/-- Settles O59: an idle client with a quiet block keeps the protocol, and so does every step but a reset. -/
theorem clientNeverMisusesPort : Obligations.ClientNeverMisusesPort := by
  intro n s t hinv hst hport hclosed hunarmed herr hturns hrun
  obtain ⟨-, horderly⟩ := run_induction_unreset (P := fun u => Inv u ∧ Orderly u)
    (fun u v ⟨hu, h⟩ hreset hstep => ⟨stepKeepsInvariant u v hu hstep, h.of_step hu hreset hstep⟩)
    ⟨hinv, .idle hst hport ⟨hclosed, herr⟩ hunarmed⟩ hturns hrun
  refine ⟨horderly.cmdErr, fun hidle => ?_⟩
  obtain ⟨htport, hquiet, htunarmed⟩ := horderly.between_calls hidle
  exact ⟨htport, hquiet.1, htunarmed⟩

end Sys2Proof.Proofs
end

section
/-! Where CMD_ERR comes from (60_exceptions.md R231): what a rejected command does, and that an illegal word or a command
that the table rejects is the only source. -/

namespace Sys2Proof.Proofs

open Sys2Proof Sys2Proof.Machine Sys2Proof.Claims

/-- A rejected command without an "also written" column leaves the port and sets CMD_ERR alone. -/
theorem exec_of_isRejected {i : Instr} {s : State} (h : isRejected i s.blk) (hread : ∀ k, i ≠ .plRead k) :
    exec i s = .next (rejected s) := by
  cases i with
  | nop | ckClear | ckAdd | ckRead | plLen => exact h.elim
  | encOpen => exact exec_encOpen_of_open h
  | encByte d => exact exec_encByte_of_closed h d
  | encByteAcc d => exact exec_encByteAcc_of_closed h d
  | encCksum => exact exec_encCksum_of_closed h
  | encClose => exact exec_encClose_of_closed h
  | decClear => exact exec_decClear_of_receiving h
  | decByte d => exact exec_decByte_of_receiving h d
  | decLast d => exact exec_decLast_of_receiving h d
  | plRead k => exact absurd rfl (hread k)
  | rxArm => exact exec_rxArm_of_receiving h

/-- A command that the table does not reject leaves CMD_ERR alone. -/
theorem CommandStep.cmdErr_eq {p : Params} {b b' : Block} {i : Instr} (hstep : CommandStep p b i b')
    (h : ¬ isRejected i b) : b'.cmdErr = b.cmdErr := by
  cases hstep with
  | rejected rejects => exact absurd rejects h
  | plReadRejected k rejects => exact absurd rejects h
  | decByte d => exact decStep_cmdErr ..
  | decLast d => exact decStep_cmdErr ..
  | _ => rfl

/-- A host's turn with an illegal word on the port is a rejection. -/
theorem commandEvent_of_illegal {s : State} {w : Word} {ws : List Word} (hport : s.env.cmdPort = w :: ws)
    (hillegal : ∀ i, decode w ≠ .ok i) : commandEvent s = .next (rejected s) := by
  cases hdec : decode w with
  | ok i => exact absurd hdec (hillegal i)
  | error e => exact commandEvent_error hport hdec

/-- A set CMD_ERR was set before the step, or the host's turn rejects the word on the port. -/
theorem BlockStep.cmdErr_source {s : State} {b : Block} (hstep : BlockStep s b) (hset : b.cmdErr = true) :
    s.blk.cmdErr = true ∨
    (s.env.turns.head? = some .command ∧ ∃ (w : Word) (ws : List Word), s.env.cmdPort = w :: ws ∧
      ∀ i, decode w = .ok i → isRejected i s.blk) := by
  cases hstep with
  | @command w ws i b turn port decodes effect =>
    by_cases hrej : isRejected i s.blk
    · exact .inr ⟨turn, w, ws, port, fun j hj => by cases decodes.symm.trans hj; exact hrej⟩
    · exact .inl ((effect.cmdErr_eq hrej).symm.trans hset)
  | illegal turn port fails => exact .inr ⟨turn, _, _, port, fun j hj => by cases fails.symm.trans hj⟩
  | reset => cases hset
  | rxByte x => exact .inl ((rxByte_cmdErr ..).symm.trans hset)
  | _ => exact .inl hset

/-- Settles O27: a rejected command has the one effect its row of the table gives, and a raised CMD_ERR has no source
but the host's turn. -/
theorem rejectedExactlyByTable : Obligations.RejectedExactlyByTable := by
  refine ⟨fun s i => ?_, fun s w ws => commandEvent_of_illegal, fun s t hstep hclear hset => ?_⟩
  · obtain ⟨t, hexec, -, heffect⟩ := exec_answers i s
    refine ⟨t, hexec, heffect.cmdErr_eq, need_of_isRejected, fun hrej hread => ?_, ?_⟩
    · cases hexec.symm.trans (exec_of_isRejected hrej hread); rfl
    · rintro hrej k rfl
      cases hexec.symm.trans (exec_plRead_rejected hrej); rfl
  · obtain ⟨-, hblk⟩ := step_blockStep hstep
    exact (hblk.cmdErr_source hset).resolve_left (Bool.eq_false_iff.mp hclear)

end Sys2Proof.Proofs
end

section
/-! What every turn answers (60_exceptions.md R230, 47_exchange_client.md R203): a next state, but for the client's turn
that would begin `send_message([])`. -/

namespace Sys2Proof.Proofs

open Sys2Proof Sys2Proof.Machine

theorem commandEvent_next (s : State) : ∃ t, commandEvent s = .next t := by
  cases hport : s.env.cmdPort with
  | nil => exact ⟨_, commandEvent_nil hport⟩
  | cons w ws =>
    cases hdec : decode w with
    | ok i => rw [commandEvent_ok hport hdec]; exact exec_next i s
    | error e => exact ⟨_, commandEvent_error hport hdec⟩

theorem clientBegin_next_or_refused (s : State) : (∃ t, clientBegin s = .next t) ∨
    (clientBegin s = .refused .emptyRawMessage ∧ s.env.client.calls.head? = some []) := by
  unfold clientBegin
  split
  case h_1 => exact .inl ⟨_, rfl⟩
  case h_2 calls hcalls => exact .inr ⟨rfl, by rw [hcalls, List.head?_cons]⟩
  case h_3 => exact .inl ⟨_, rfl⟩

/-- Only beginning a call can be refused: every other place of the client answers a next state. -/
theorem clientTurn_next_or_refused (s : State) : (∃ t, clientTurn s = .next t) ∨
    (clientTurn s = .refused .emptyRawMessage ∧ s.env.client.calls.head? = some []) := by
  unfold clientTurn
  split
  case h_1 => exact .inl ⟨_, rfl⟩
  case h_2 =>
    split
    case h_1 => exact clientBegin_next_or_refused s
    all_goals exact .inl ⟨_, rfl⟩

/-- Settles O54: the host's turn always answers, since no command and no illegal word stops the block; so do the
transport and reset; the client's turn may be the one refusal. -/
theorem nothingStopsTheBlock : Obligations.NothingStopsTheBlock := by
  intro s
  cases hturns : s.env.turns with
  | nil => exact .inl ⟨s, step_of_nil hturns⟩
  | cons τ ts =>
    rw [step_of_cons hturns]
    cases τ with
    | command => exact .inl (commandEvent_next s.takeTurn)
    | txPop | rxByte | rxTimeout | reset => exact .inl ⟨_, rfl⟩
    | client =>
      exact (clientTurn_next_or_refused s.takeTurn).imp_right fun ⟨hrefused, hcalls⟩ => ⟨hrefused, rfl, hcalls⟩

end Sys2Proof.Proofs
end

section
/-! Reset and STATUS (70_reset_and_hazards.md R260, 10_state.md R35): with room for a byte the empty queue is not full, so
TXQ_EMPTY is the only bit set. -/

namespace Sys2Proof.Proofs

open Sys2Proof Sys2Proof.Machine

theorem status_of_resetBlock {s : State} (hblk : s.blk = Block.reset) (hdepth : 1 ≤ s.par.txqDepth) :
    s.status = 0x0800#16 := by
  have hempty : s.txqEmpty = true := by rw [State.txqEmpty, hblk]; rfl
  have hfull : s.txqFull = false := by
    rw [State.txqFull, hblk]
    exact beq_false_of_ne (Nat.ne_of_lt hdepth)
  rw [State.status, hempty, hfull, hblk]
  decide

/-- Settles O51: the reset event writes `Block.reset` over the block and touches no agent's data. -/
theorem resetEventResetsBlock : Obligations.ResetEventResetsBlock := by
  refine ⟨fun s ts hturns hdepth => ?_, rfl, status_of_resetBlock rfl (by decide)⟩
  exact ⟨resetEvent { s with env.turns := ts }, step_eq_event hturns, rfl, rfl, status_of_resetBlock rfl hdepth,
    rfl, rfl, rfl, rfl, rfl, rfl, rfl, rfl, rfl, rfl, rfl⟩

end Sys2Proof.Proofs
end

section
/-! What lifts a hold (70_reset_and_hazards.md R268): a held command's need and the free bytes change only by the host's
own turn, which it is denied, by a TX pop and by reset. -/

namespace Sys2Proof.Proofs

open Sys2Proof Sys2Proof.Machine Sys2Proof.Claims

/-- CMD_READY is 0 exactly while a command is held: the word on the port is a command whose need does not fit. -/
theorem cmdReady_eq_false_iff (s : State) : s.cmdReady = false ↔
    ∃ (w : Word) (ws : List Word) (i : Instr),
      s.env.cmdPort = w :: ws ∧ decode w = .ok i ∧ free s < need i s.blk := by
  cases hport : s.env.cmdPort with
  | nil => simp [State.cmdReady, hport]
  | cons w ws =>
    cases hdec : decode w with
    | error e => simp [State.cmdReady, hport, hdec]
    | ok i =>
      rw [Bool.eq_false_iff, Ne, (holdRule s i).2.2 w ws hport hdec]
      simp [hdec]

/-- The host's turn on a held command changes nothing. -/
theorem commandEvent_of_held {s : State} (h : s.cmdReady = false) : commandEvent s = .next s := by
  obtain ⟨w, ws, i, hport, hdec, hfull⟩ := (cmdReady_eq_false_iff s).mp h
  rw [commandEvent_ok hport hdec]
  exact (holdRule s i).2.1 hfull

/-- The hold stays while the parameters, the port and the transmit side do. -/
theorem cmdReady_false_congr {s t : State} (h : s.cmdReady = false) (hpar : t.par = s.par)
    (hport : t.env.cmdPort = s.env.cmdPort) (hsame : sameTransmitSide t.blk s.blk) : t.cmdReady = false := by
  obtain ⟨w, ws, i, hcons, hdec, hfull⟩ := (cmdReady_eq_false_iff s).mp h
  have ⟨_, _, _, hq, _⟩ := hsame
  refine (cmdReady_eq_false_iff t).mpr ⟨w, ws, i, hport.trans hcons, hdec, ?_⟩
  rw [free, hpar, hq, need_of_sameTransmitSide hsame]
  exact hfull

/-- A step that hands no byte to the transport keeps the queue if it keeps the stream. -/
theorem sameTransmitSide_of_unpopped {s t : State} (hout : t.env.txOut = s.env.txOut)
    (h : sameTransmitSide (unpopped t) (unpopped s)) : sameTransmitSide t.blk s.blk := by
  obtain ⟨hacc, hresult, hopen, hq, herr⟩ := h
  refine ⟨hacc, hresult, hopen, List.append_cancel_left (as := s.env.txOut) ?_, herr⟩
  rw [← hout]
  exact hq.trans (by rw [unpopped, hout])

/-- Besides a TX pop and a reset no step lifts a hold. -/
theorem step_keeps_hold {s t : State} (hheld : s.cmdReady = false) (hstep : step s = .next t)
    (hpop : s.env.turns.head? ≠ some .txPop) (hreset : s.env.turns.head? ≠ some .reset) : t.cmdReady = false := by
  obtain ⟨w, ws, i, hport, hdec, hfull⟩ := (cmdReady_eq_false_iff s).mp hheld
  rcases step_kept_accepted_or_moved hreset hstep with hkept | haccepted | ⟨hempty, -⟩
  · exact cmdReady_false_congr hheld (step_blockStep hstep).1 hkept.port
      (sameTransmitSide_of_unpopped (step_txOut hstep hpop) hkept.transmit)
  · obtain ⟨w', ws', hport', -, hexec⟩ := haccepted.word
    cases hport.symm.trans hport'
    cases ((holdRule s.takeTurn i).2.1 hfull).symm.trans (hexec i hdec)
    exact hheld
  · cases hport.symm.trans hempty

/-- Settles O25: any other step would keep the hold. -/
theorem onlyPopLiftsHold : Obligations.OnlyPopLiftsHold := by
  intro s t hheld hstep hready
  by_contra hother
  obtain ⟨hpop, hreset⟩ := not_or.mp hother
  exact Bool.eq_false_iff.mp (step_keeps_hold hheld hstep hpop hreset) hready

end Sys2Proof.Proofs
end

section
/-! Stuck states (70_reset_and_hazards.md R266): a turn whose event is not enabled is used up and changes nothing else,
and what is enabled does not depend on the turns to come. -/

namespace Sys2Proof.Proofs

open Sys2Proof Sys2Proof.Machine

section Disabled

variable {s : State} {ts : List Turn}

theorem step_command_disabled (hturns : s.env.turns = .command :: ts) (h : s.enabled .command = false) :
    step s = .next { s with env.turns := ts } := by
  rw [step_eq_event hturns]
  cases hport : s.env.cmdPort with
  | nil => exact commandEvent_nil hport
  | cons w ws =>
    have hheld : s.cmdReady = false := by simpa [State.enabled, hport] using h
    exact commandEvent_of_held hheld

theorem step_rxByte_disabled (hturns : s.env.turns = .rxByte :: ts) (h : s.enabled .rxByte = false) :
    step s = .next { s with env.turns := ts } := by
  by_cases harmed : s.blk.rxSt = .receiving
  · have hempty : s.env.rxIn = [] := by simpa [State.enabled, State.rxReady, harmed] using h
    rw [step_eq_event hturns]
    simp [event, rxByteEvent, hempty]
  · exact step_rxByte_unarmed harmed hturns

/-- A client with an empty port waits for a call to make or for the receive to end. -/
theorem step_client_disabled (hturns : s.env.turns = .client :: ts) (h : s.enabled .client = false) :
    step s = .next { s with env.turns := ts } := by
  by_cases hport : s.env.cmdPort = []
  · cases hst : s.env.client.st with
    | idle =>
      have hcalls : s.env.client.calls = [] := by simpa [State.enabled, hport, hst] using h
      rw [step_client_idle hturns hport hst]
      simp [clientBegin, hcalls]
    | awaiting raw k =>
      have harmed : s.blk.rxSt = .receiving := by simpa [State.enabled, hport, hst, RxSt.code_inj] using h
      rw [step_client_awaiting hturns hport hst]
      exact congrArg _ (clientPoll_of_receiving harmed)
    | sending | lenAsked | codeAsked | reading => simp [State.enabled, hport, hst] at h
  · exact step_client_waiting hturns hport

theorem step_of_disabled {τ : Turn} (hturns : s.env.turns = τ :: ts) (h : s.enabled τ = false) :
    step s = .next { s with env.turns := ts } := by
  cases τ with
  | command => exact step_command_disabled hturns h
  | txPop => exact step_txPop_empty (by simpa [State.enabled, State.txValid] using h) hturns
  | rxByte => exact step_rxByte_disabled hturns h
  | rxTimeout => exact step_rxTimeout_unarmed (by simpa [State.enabled, State.rxReady] using h) hturns
  | reset => cases h
  | client => exact step_client_disabled hturns h

end Disabled

theorem stuck_iff (s : State) : s.stuck = true ↔ s.finished = false ∧ ∀ τ ∈ s.env.turns, s.enabled τ = false := by
  simp [State.stuck]

/-- Settles O55: the turn that is taken is not enabled, and the same turns but that one remain. -/
theorem stuckStaysStuck : Obligations.StuckStaysStuck := by
  intro s t hstuck hstep
  obtain ⟨hunfinished, hdisabled⟩ := (stuck_iff s).mp hstuck
  cases hturns : s.env.turns with
  | nil =>
    cases (step_of_nil hturns).symm.trans hstep
    exact ⟨hstuck, rfl, rfl⟩
  | cons τ ts =>
    rw [hturns, List.forall_mem_cons] at hdisabled
    obtain ⟨hfirst, hrest⟩ := hdisabled
    cases (step_of_disabled hturns hfirst).symm.trans hstep
    exact ⟨(stuck_iff _).mpr ⟨hunfinished, hrest⟩, rfl, rfl⟩

end Sys2Proof.Proofs
end
